-- ==== Sys2Proof/Word.lean ====
section
/-! DEFINITION. The word types of FCLA: everything on the link is a sequence of bytes (30_encoding.md R50), all
values are unsigned (00_scope.md R9), and a client buffer is named by an opaque handle (20_memory.md R41). -/

namespace Sys2Proof

/-- A byte: 8 bits, bit 7 the most significant (00_scope.md R9). -/
abbrev Byte := BitVec 8

/-- A 16-bit value: the numeric operand of ENC_PARAM_U16, and the width of `TX_COUNT` (10_state.md R11). -/
abbrev Half := BitVec 16

/-- The opaque handle of a client buffer (20_memory.md R41): a name, not an address. -/
abbrev Handle := Nat

end Sys2Proof
end

