-- ==== Sys2Proof/Config.lean ====
section
/-! DEFINITION. The implementation parameters of 00_scope.md R7. The model's functions take them as one record
`Params`; `Config.hw` is the record the machine runs with. A value no document gives is an opaque constant with no
body (log 1, 2); a value the spec decided stands at its decided value (log 14). -/

namespace Sys2Proof

/-- Where the filler stands relative to END (92_eei_decisions.md D7). -/
inductive PadPosition where
  | beforeEnd
  | afterEnd
deriving DecidableEq, Repr

/-- The parameters some rule depends on (00_scope.md R7). -/
structure Params where
  startByte : Byte
  endByte : Byte
  replyMarker : Byte
  padByte : Byte
  padPosition : PadPosition
  acqRetryMax : Nat
  startPollMax : Nat
  checkReplyEnd : Bool
  retryOnTransportError : Bool
deriving DecidableEq, Repr

/-- The constraints on the open parameters: 00_scope.md R8 (a), (b), and the two bounds of at least 1 of R7. -/
abbrev Params.valid (p : Params) : Prop :=
  p.replyMarker ≠ 0x00#8 ∧ (0x20#8 ||| p.replyMarker) ≠ 0x20#8 ∧ 1 ≤ p.acqRetryMax ∧ 1 ≤ p.startPollMax

/-- `WORD_BYTES` (R7). -/
def wordBytes : Nat := 4
/-- `MAX_PARAM_LEN` (R7). -/
def maxParamLen : Nat := 255
/-- `MAX_PARAMS` (R7). -/
def maxParams : Nat := 255
/-- `MAX_NETWORKS` (R7): the bound a client gives EXECUTE_VARIABLE for the network list. -/
def maxNetworks : Nat := 10
/-- `IPV4_LEN` (R7, 30_encoding.md R60): a capacity a client gives. -/
def ipv4Len : Nat := 4
/-- `MAC_LEN` (R7, 30_encoding.md R60): a capacity a client gives. -/
def macLen : Nat := 6
/-- `DATA_SENT_RETRY_MAX` (R7). -/
def dataSentRetryMax : Nat := 25
/-- `OPC_SET_NET` (R7, 30_encoding.md R63). -/
def opcSetNet : Byte := 0x10#8
/-- `OPC_GET_CONN_STATUS` (R7, 30_encoding.md R63). -/
def opcGetConnStatus : Byte := 0x20#8
/-- `UNSUPPORTED_OPCODES` (R7; D40): empty, and used outside the core only. -/
def unsupportedOpcodes : List Byte := []

/-- `START_BYTE`: OPEN (D3), any byte. -/
opaque Config.startByte : Byte
/-- `END_BYTE`: OPEN (D4), any byte. -/
opaque Config.endByte : Byte
/-- `PAD_BYTE`: OPEN (D6), any byte. -/
opaque Config.padByte : Byte
/-- The open bits of `REPLY_MARKER` (D5). -/
opaque Config.replyMarkerBits : Byte
/-- Which bit outside bit 5 `REPLY_MARKER` is known to have (00_scope.md R8 b). -/
opaque Config.replyMarkerBit : Fin 7
/-- `ACQ_RETRY_MAX - 1`: OPEN (D13), any natural number. -/
opaque Config.acqRetriesAfterFirst : Nat
/-- `START_POLL_MAX - 1`: OPEN (D16), any natural number. -/
opaque Config.startPollsAfterFirst : Nat
/-- `T_POLL`: OPEN (D23); no rule depends on it. -/
opaque Config.tPoll : Nat
/-- `T_TURNAROUND`: OPEN (D23); no rule depends on it. -/
opaque Config.tTurnaround : Nat
/-- `T_RETRY`: OPEN (D23); no rule depends on it. -/
opaque Config.tRetry : Nat
/-- `SELECT_ACTIVE_LEVEL`: OPEN (D33); the pin level of an asserted select line. -/
opaque Config.selectActiveLevel : Bool
/-- `READY_ACTIVE_LEVEL`: OPEN (D33); the pin level of a ready peer. -/
opaque Config.readyActiveLevel : Bool

/-- The peer's answer to the `n`-th ready sample that no script of the state names (20_memory.md R44; log 4). -/
opaque Config.peerReady : Nat → Bool
/-- The peer's answer to the `n`-th received byte that no script of the state names (20_memory.md R44; log 4). -/
opaque Config.peerByte : Nat → Byte
/-- What a buffer byte that nothing has written reads as, by cell: 10_state.md R24 leaves the contents of buffers
unspecified, so it is a free value (log 5). -/
opaque Config.unwrittenByte : Nat → Byte

/-- The seven bits of a byte other than bit 5. -/
def markerBit (k : Fin 7) : Byte :=
  match k with
  | 0 => 0x01#8
  | 1 => 0x02#8
  | 2 => 0x04#8
  | 3 => 0x08#8
  | 4 => 0x10#8
  | 5 => 0x40#8
  | 6 => 0x80#8

/-- `REPLY_MARKER`: any byte with a 1 bit outside bit 5, which is what 00_scope.md R8 leaves of it (log 2). -/
def Config.replyMarker : Byte := Config.replyMarkerBits ||| markerBit Config.replyMarkerBit

/-- The parameters the machine runs with. -/
def Config.hw : Params where
  startByte := Config.startByte
  endByte := Config.endByte
  replyMarker := Config.replyMarker
  padByte := Config.padByte
  padPosition := .beforeEnd
  acqRetryMax := Config.acqRetriesAfterFirst + 1
  startPollMax := Config.startPollsAfterFirst + 1
  checkReplyEnd := true
  retryOnTransportError := false

end Sys2Proof
end

