-- ==== Sys2Proof/Syntax.lean ====
section
/-! DEFINITION. The syntax of FCLA: one constructor of `Instr` per row of spec/opcode_table.json, and the forms in
which a request reaches the machine (the operation port's named fields, or the bytes of a wire row). -/

namespace Sys2Proof

/-- A command parameter as the operation port carries it (30_encoding.md R67): a raw buffer with its length, or a
16-bit numeric. -/
inductive Param where
  | raw (buf : Handle) (len : Byte)
  | u16 (value : Half)
deriving DecidableEq, Repr

/-- A destination: a buffer and its capacity in bytes, a natural number (30_encoding.md R67). -/
structure Dst where
  dst : Handle
  cap : Nat
deriving DecidableEq, Repr

/-- The access level of whoever requests an operation (60_exceptions.md R171). -/
inductive AccessLevel where
  /-- The Feature API or any caller: only EXECUTE, EXECUTE_VARIABLE and POLL_DATA_SENT. -/
  | client
  /-- The Command Driver itself: the primitives too. -/
  | driver
deriving DecidableEq, Repr

/-- The operations of FCLA: one constructor per row of spec/opcode_table.json. The first sixteen are the `op_sel`
codes (30_encoding.md R66), the others the rows of the wire formats (30_encoding.md R51, R52, R59, R63, R56). -/
inductive Instr where
  /-- NONE, `op_sel` 0x0: no operation requested (R68). -/
  | noOperation
  /-- ENC_HEADER, 0x1 (R81). -/
  | encHeader (opcode count : Byte)
  /-- ENC_PARAM, 0x2 (R82). -/
  | encParam (buf : Handle) (len : Byte) (last : Bool)
  /-- ENC_PARAM_U16, 0x3 (R83). -/
  | encParamU16 (value : Half) (last : Bool)
  /-- PAD_TO_WORD, 0x4 (R84). -/
  | padToWord (total : Half)
  /-- ENC_END, 0x5 (R85). -/
  | encEnd
  /-- ENCODE_COMMAND, 0x6 (R87). -/
  | encodeCommand (opcode : Byte) (params : List Param) (isLast : List Bool)
  /-- DECODE_REPLY_HEADER, 0x7 (R101). -/
  | decodeReplyHeader (expected : Byte)
  /-- DECODE_PARAMETER, 0x8 (R104). -/
  | decodeParameter (dst : Handle) (cap : Nat)
  /-- DECODE_END, 0x9 (R106). -/
  | decodeEnd
  /-- ACQUIRE, 0xA (R121). -/
  | acquire
  /-- RELEASE, 0xB (R122). -/
  | release
  /-- EXECUTE, 0xC (R136). -/
  | execute (opcode : Byte) (params : List Param) (expectedReplyParams : Byte) (dsts : List Dst)
  /-- EXECUTE_VARIABLE, 0xD (R137). -/
  | executeVariable (opcode maxItems : Byte) (dsts : List Dst)
  /-- POLL_DATA_SENT, 0xE (R138). -/
  | pollDataSent (opcode : Byte) (params : List Param) (dst : Handle)
  /-- RESERVED, 0xF (R68). -/
  | reserved
  /-- CMD_FRAME: a whole command frame, host to peer (R51). -/
  | cmdFrame (opcode : Byte) (payloads : List (List Byte))
  /-- REPLY_FRAME: a whole reply frame, peer to host (R52); `confirm` is its OPCODE byte. -/
  | replyFrame (confirm : Byte) (payloads : List (List Byte))
  /-- PARAM_U16: the parameter record of a 16-bit numeric (R59). -/
  | paramU16 (value : Half)
  /-- SET_NET: OPCODE byte 0x10 of a command frame (R63), with the PARAM_COUNT byte that follows it. -/
  | setNet (count : Byte)
  /-- SET_NET.reply: OPCODE byte `0x10 | REPLY_MARKER` of a reply frame (R63, R56). -/
  | setNetReply
  /-- GET_CONN_STATUS: OPCODE byte 0x20 of a command frame (R63), with the PARAM_COUNT byte that follows it. -/
  | getConnStatus (count : Byte)
  /-- GET_CONN_STATUS.reply: OPCODE byte `0x20 | REPLY_MARKER` of a reply frame (R63, R56). -/
  | getConnStatusReply
deriving DecidableEq, Repr

/-- The operation port: `op_sel` and the separate named operand fields of 30_encoding.md R67. The spec defines no
packed word for them, and neither does the model. A field an operation does not use is ignored. -/
structure OpPort where
  opSel : BitVec 4
  opcode : Byte := 0
  count : Byte := 0
  params : List Param := []
  isLast : List Bool := []
  buf : Handle := 0
  len : Byte := 0
  value : Half := 0
  last : Bool := false
  total : Half := 0
  expected : Byte := 0
  dst : Handle := 0
  cap : Nat := 0
  expectedReplyParams : Byte := 0
  dsts : List Dst := []
  maxItems : Byte := 0
deriving DecidableEq, Repr

/-- What a request is written as, one constructor per "format" of spec/opcode_table.json. -/
inductive Form where
  /-- OPSEL4: a request on the operation port. -/
  | opSel (port : OpPort)
  /-- COMMAND_FRAME: the bytes of a command frame, first byte first. -/
  | commandFrame (bytes : List Byte)
  /-- REPLY_FRAME: the bytes of a reply frame, first byte first. -/
  | replyFrame (bytes : List Byte)
  /-- PARAMETER_RECORD: the bytes of one parameter record. -/
  | parameterRecord (bytes : List Byte)
  /-- COMMAND_FRAME.OPCODE: the OPCODE byte of a command frame and the PARAM_COUNT byte after it. -/
  | commandOpcode (bytes : List Byte)
  /-- REPLY_FRAME.OPCODE: the OPCODE byte of a reply to the command `answered` (R56 gives the byte its meaning only
  relative to the command it answers). -/
  | replyOpcode (answered : Byte) (confirm : Byte)
deriving DecidableEq, Repr

/-- One request as it waits for FCLA: who asks, and for what. -/
structure Request where
  level : AccessLevel
  form : Form
deriving DecidableEq, Repr

end Sys2Proof
end

