-- ==== Sys2Proof/WellFormed.lean ====
section
/-! DEFINITION. What an operation's operands must satisfy for the formats to carry them
(93_implementation_defined.md U1, U9). Field widths are in the types; what is left are lengths of lists. A request
that fails one of these checks is refused under the check's name (Machine/Operands.lean uses the same checks). -/

namespace Sys2Proof

/-- The list of `n` terminal marks that is true at index `n - 1` only, empty for 0 (43_command_driver.md R135,
`flags(n)`). -/
def terminalFlags : Nat → List Bool
  | 0 => []
  | n + 1 => List.replicate n false ++ [true]

/-- At most 255 parameters (30_encoding.md R54). -/
def paramsFit (params : List Param) : Bool := params.length ≤ maxParams

/-- `is_last[k] = 1` exactly for the last parameter, and one mark per parameter (40_frame_encoder.md R87). -/
def flagsFit (params : List Param) (isLast : List Bool) : Bool := isLast == terminalFlags params.length

/-- Exactly as many destinations as parameters announced (43_command_driver.md R136, R137). -/
def dstsFit (announced : Byte) (dsts : List Dst) : Bool := dsts.length == announced.toNat

/-- A payload list a frame can carry: at most 255 records, each at most 255 bytes (30_encoding.md R54, R55). -/
def payloadsFit (payloads : List (List Byte)) : Bool :=
  payloads.length ≤ maxParams && payloads.all (fun b => b.length ≤ maxParamLen)

/-- Operands the formats can carry. -/
def Instr.wellFormed : Instr → Bool
  | .noOperation => true
  | .encHeader _ _ => true
  | .encParam _ _ _ => true
  | .encParamU16 _ _ => true
  | .padToWord _ => true
  | .encEnd => true
  | .encodeCommand _ params isLast => paramsFit params && flagsFit params isLast
  | .decodeReplyHeader _ => true
  | .decodeParameter _ _ => true
  | .decodeEnd => true
  | .acquire => true
  | .release => true
  | .execute _ params e dsts => paramsFit params && dstsFit e dsts
  | .executeVariable _ m dsts => dstsFit m dsts
  | .pollDataSent _ params _ => paramsFit params
  | .reserved => true
  | .cmdFrame _ payloads => payloadsFit payloads
  | .replyFrame _ payloads => payloadsFit payloads
  | .paramU16 _ => true
  | .setNet _ => true
  | .setNetReply => true
  | .getConnStatus _ => true
  | .getConnStatusReply => true

end Sys2Proof
end

