-- ==== Sys2Proof/Decode.lean ====
section
/-! DEFINITION. From a request's form to an instruction and back (30_encoding.md). The decoder is total on every
form and refuses by name; the encoder after it is written from the same rules. The pure frame functions of the spec,
`EncodeFrame` (40_frame_encoder.md R88), `ParseCommand` (30_encoding.md R71) and the layout of a reply frame
(30_encoding.md R52), are here because they are the encodings of the rows CMD_FRAME and REPLY_FRAME. -/

namespace Sys2Proof

/-! ### Field assembly (30_encoding.md section 2) -/

/-- `v[15:8]` (30_encoding.md R72 f). -/
def hiByte (v : Half) : Byte := BitVec.extractLsb' 8 8 v

/-- `v[7:0]` (30_encoding.md R72 f). -/
def loByte (v : Half) : Byte := BitVec.extractLsb' 0 8 v

/-- The 16-bit value whose high byte is `hi` and low byte `lo`. -/
def halfOf (hi lo : Byte) : Half := hi ++ lo

/-- The payload of a 16-bit numeric: big-endian, two bytes (30_encoding.md R59). -/
def u16Payload (v : Half) : List Byte := [hiByte v, loByte v]

/-- A parameter on the wire: `LEN(1) PAYLOAD(LEN)` (30_encoding.md R53, R55). -/
def recordBytes (payload : List Byte) : List Byte := BitVec.ofNat 8 payload.length :: payload

/-- The number of filler bytes that bring `total` to a multiple of 4: `(4 - (total mod 4)) mod 4`
(30_encoding.md R57, 40_frame_encoder.md R84). -/
def fillerCount (total : Nat) : Nat := (wordBytes - total % wordBytes) % wordBytes

/-- START, OPCODE, PARAM_COUNT and the parameter records: everything before PAD and END (30_encoding.md R51). -/
def frameBody (p : Params) (opcode : Byte) (payloads : List (List Byte)) : List Byte :=
  [p.startByte, opcode, BitVec.ofNat 8 payloads.length] ++ payloads.flatMap recordBytes

/-- The filler and END after a body of `bodyLen` bytes, in the order `PAD_POSITION` says (30_encoding.md R51). -/
def frameTail (p : Params) (bodyLen : Nat) : List Byte :=
  match p.padPosition with
  | .beforeEnd => List.replicate (fillerCount (bodyLen + 1)) p.padByte ++ [p.endByte]
  | .afterEnd => p.endByte :: List.replicate (fillerCount (bodyLen + 1)) p.padByte

/-- `EncodeFrame` (40_frame_encoder.md R88), the parameters given by their payload bytes. -/
def encodeFrame (p : Params) (opcode : Byte) (payloads : List (List Byte)) : List Byte :=
  frameBody p opcode payloads ++ frameTail p (frameBody p opcode payloads).length

/-- A reply frame with OPCODE byte `confirm` (30_encoding.md R52): a body and END, no PAD. -/
def replyFrameBytes (p : Params) (confirm : Byte) (payloads : List (List Byte)) : List Byte :=
  frameBody p confirm payloads ++ [p.endByte]

/-- The OPCODE byte of a reply to the command `opcode` (30_encoding.md R56). -/
def confirmByte (p : Params) (opcode : Byte) : Byte := opcode ||| p.replyMarker

/-! ### The decoder -/

/-- Why a form is no instruction. -/
inductive DecodeError where
  /-- The first byte of a frame is not START (30_encoding.md R71). Safe: nothing is executed. -/
  | notStart
  /-- The frame ends before its records do, or before its header does (30_encoding.md R71). Safe. -/
  | truncated
  /-- What follows the records is not the filler and END of the format (30_encoding.md R71, R52). Safe. -/
  | badTail
  /-- The record is not a 16-bit numeric `02 hi lo` (30_encoding.md R59). Safe. -/
  | notU16Record
  /-- The wire opcode is not one of the two the spec gives (30_encoding.md R63). Safe. -/
  | unknownOpcode
  /-- The byte does not confirm the command it is said to answer (30_encoding.md R56). Safe. -/
  | notConfirmed
deriving DecidableEq, Repr

/-- Read `n` parameter records off the front of `bytes` (30_encoding.md R62): the payloads and what is left. -/
def parseRecords : Nat → List Byte → Option (List (List Byte) × List Byte)
  | 0, bytes => some ([], bytes)
  | _ + 1, [] => none
  | n + 1, len :: rest =>
    if len.toNat ≤ rest.length then
      match parseRecords n (rest.drop len.toNat) with
      | some (payloads, left) => some (rest.take len.toNat :: payloads, left)
      | none => none
    else none

/-- Whether `tail` is `fillerCount` filler bytes (of any value) and END, as `ParseCommand` requires
(30_encoding.md R71). -/
def tailFits (p : Params) (bodyLen : Nat) (tail : List Byte) : Bool :=
  match p.padPosition with
  | .beforeEnd => tail.drop (fillerCount (bodyLen + 1)) == [p.endByte]
  | .afterEnd => tail.head? == some p.endByte && tail.length == fillerCount (bodyLen + 1) + 1

/-- `ParseCommand` (30_encoding.md R71). -/
def parseCommand (p : Params) (bytes : List Byte) : Except DecodeError (Byte × List (List Byte)) :=
  match bytes with
  | start :: opcode :: count :: rest =>
    if start = p.startByte then
      match parseRecords count.toNat rest with
      | some (payloads, tail) =>
        if tailFits p (bytes.length - tail.length) tail then .ok (opcode, payloads) else .error .badTail
      | none => .error .truncated
    else .error .notStart
  | _ => .error .truncated

/-- The reply frame of 30_encoding.md R52, from its START byte to its END byte. -/
def parseReplyFrame (p : Params) (bytes : List Byte) : Except DecodeError (Byte × List (List Byte)) :=
  match bytes with
  | start :: confirm :: count :: rest =>
    if start = p.startByte then
      match parseRecords count.toNat rest with
      | some (payloads, tail) => if tail = [p.endByte] then .ok (confirm, payloads) else .error .badTail
      | none => .error .truncated
    else .error .notStart
  | _ => .error .truncated

/-- The operation `op_sel` selects, with its operands from the named fields (30_encoding.md R66, R67). -/
def decodePort (r : OpPort) : Instr :=
  match r.opSel.toNat with
  | 0x0 => .noOperation
  | 0x1 => .encHeader r.opcode r.count
  | 0x2 => .encParam r.buf r.len r.last
  | 0x3 => .encParamU16 r.value r.last
  | 0x4 => .padToWord r.total
  | 0x5 => .encEnd
  | 0x6 => .encodeCommand r.opcode r.params r.isLast
  | 0x7 => .decodeReplyHeader r.expected
  | 0x8 => .decodeParameter r.dst r.cap
  | 0x9 => .decodeEnd
  | 0xA => .acquire
  | 0xB => .release
  | 0xC => .execute r.opcode r.params r.expectedReplyParams r.dsts
  | 0xD => .executeVariable r.opcode r.maxItems r.dsts
  | 0xE => .pollDataSent r.opcode r.params r.dst
  | _ => .reserved

/-- The row PARAM_U16: `00000010 hi lo` (30_encoding.md R59). -/
def decodeRecord (bytes : List Byte) : Except DecodeError Instr :=
  match bytes with
  | [len, hi, lo] => if len = 0x02#8 then .ok (.paramU16 (halfOf hi lo)) else .error .notU16Record
  | _ => .error .notU16Record

/-- The rows SET_NET and GET_CONN_STATUS (30_encoding.md R63): an OPCODE byte and the PARAM_COUNT after it. -/
def decodeOpcode (bytes : List Byte) : Except DecodeError Instr :=
  match bytes with
  | [opcode, count] =>
    if opcode = opcSetNet then .ok (.setNet count)
    else if opcode = opcGetConnStatus then .ok (.getConnStatus count)
    else .error .unknownOpcode
  | _ => .error .truncated

/-- The rows SET_NET.reply and GET_CONN_STATUS.reply (30_encoding.md R56, R63). -/
def decodeConfirm (p : Params) (answered confirm : Byte) : Except DecodeError Instr :=
  if confirm = confirmByte p answered then
    if answered = opcSetNet then .ok .setNetReply
    else if answered = opcGetConnStatus then .ok .getConnStatusReply
    else .error .unknownOpcode
  else .error .notConfirmed

/-- The instruction a form stands for under the parameters `p`. -/
def decodeWith (p : Params) : Form → Except DecodeError Instr
  | .opSel port => .ok (decodePort port)
  | .commandFrame bytes => (parseCommand p bytes).map fun r => .cmdFrame r.1 r.2
  | .replyFrame bytes => (parseReplyFrame p bytes).map fun r => .replyFrame r.1 r.2
  | .parameterRecord bytes => decodeRecord bytes
  | .commandOpcode bytes => decodeOpcode bytes
  | .replyOpcode answered confirm => decodeConfirm p answered confirm

/-- The machine's decoder. -/
def decode (f : Form) : Except DecodeError Instr := decodeWith Config.hw f

/-! ### The encoder -/

/-- The form that stands for an instruction under the parameters `p`; operand fields it does not use are zero. -/
def encodeWith (p : Params) : Instr → Form
  | .noOperation => .opSel { opSel := 0x0#4 }
  | .encHeader opcode count => .opSel { opSel := 0x1#4, opcode, count }
  | .encParam buf len last => .opSel { opSel := 0x2#4, buf, len, last }
  | .encParamU16 value last => .opSel { opSel := 0x3#4, value, last }
  | .padToWord total => .opSel { opSel := 0x4#4, total }
  | .encEnd => .opSel { opSel := 0x5#4 }
  | .encodeCommand opcode params isLast => .opSel { opSel := 0x6#4, opcode, params, isLast }
  | .decodeReplyHeader expected => .opSel { opSel := 0x7#4, expected }
  | .decodeParameter dst cap => .opSel { opSel := 0x8#4, dst, cap }
  | .decodeEnd => .opSel { opSel := 0x9#4 }
  | .acquire => .opSel { opSel := 0xA#4 }
  | .release => .opSel { opSel := 0xB#4 }
  | .execute opcode params e dsts => .opSel { opSel := 0xC#4, opcode, params, expectedReplyParams := e, dsts }
  | .executeVariable opcode m dsts => .opSel { opSel := 0xD#4, opcode, maxItems := m, dsts }
  | .pollDataSent opcode params dst => .opSel { opSel := 0xE#4, opcode, params, dst }
  | .reserved => .opSel { opSel := 0xF#4 }
  | .cmdFrame opcode payloads => .commandFrame (encodeFrame p opcode payloads)
  | .replyFrame confirm payloads => .replyFrame (replyFrameBytes p confirm payloads)
  | .paramU16 value => .parameterRecord (recordBytes (u16Payload value))
  | .setNet count => .commandOpcode [opcSetNet, count]
  | .setNetReply => .replyOpcode opcSetNet (confirmByte p opcSetNet)
  | .getConnStatus count => .commandOpcode [opcGetConnStatus, count]
  | .getConnStatusReply => .replyOpcode opcGetConnStatus (confirmByte p opcGetConnStatus)

/-- The machine's encoder. -/
def encode (i : Instr) : Form := encodeWith Config.hw i

/-! ### Words of spec/opcode_table.json -/

/-- The `n` bytes of `w`, most significant first: the order in which the table numbers a record's bytes, the first
byte on the wire in the highest bits (log 12). -/
def tableBytes : Nat → Nat → List Byte
  | 0, _ => []
  | n + 1, w => BitVec.ofNat 8 (w / 256 ^ n) :: tableBytes n w

/-- The form of a word of the table: up to 8 bits an `op_sel` code (0 to 15) or a wire OPCODE byte, more bits a
parameter record. Operands the table gives no bits are zero or empty. -/
def tableForm (nbits w : Nat) : Form :=
  if nbits ≤ 8 then
    if w < 16 then .opSel { opSel := BitVec.ofNat 4 w } else .commandOpcode [BitVec.ofNat 8 w, 0x00#8]
  else .parameterRecord (tableBytes (nbits / 8) w)

/-- The instruction the decoder reads from a word of the table, none where it refuses. -/
def decodeTableWord (nbits w : Nat) : Option Instr :=
  match decode (tableForm nbits w) with
  | .ok i => some i
  | .error _ => none

end Sys2Proof
end

