-- ==== Sys2Proof/Machine/State.lean ====
section
/-! DEFINITION. The state of FCLA (10_state.md), as plain data, and its value after reset (10_state.md R24,
70_reset_and_hazards.md R190). -/

namespace Sys2Proof.Machine

/-- `ENC_STATE` (10_state.md R11, R15). -/
inductive EncState where
  | idle
  | open
deriving DecidableEq, Repr

/-- `DEC_STATE` (10_state.md R11, R16). -/
inductive DecState where
  | idle
  | params
  | atEnd
deriving DecidableEq, Repr

/-- `SEQ_PHASE` (10_state.md R17), in the order one exchange visits its values. -/
inductive SeqPhase where
  | idle
  | cmdAcq
  | cmdSend
  | turn
  | rplAcq
  | rplHdr
  | rplPar
  | rplEnd
  /-- Between two attempts of POLL_DATA_SENT. -/
  | retryWait
deriving DecidableEq, Repr

/-- The three kinds of yield (00_scope.md R9, 60_exceptions.md R172). -/
inductive YieldKind where
  | poll
  | turnaround
  | retry
deriving DecidableEq, Repr

/-- An interface event (20_memory.md R43). -/
inductive Event where
  | tx (b : Byte)
  | rx (b : Byte)
  | rdy (v : Bool)
  | sel (v : Bool)
  | yielded (k : YieldKind)
deriving DecidableEq, Repr

/-- The two causes of a Timeout (60_exceptions.md R161). -/
inductive TimeoutCause where
  | ready
  | start
deriving DecidableEq, Repr

/-- The three causes of a ProtocolMismatch (60_exceptions.md R162). -/
inductive MismatchCause where
  | opcode
  | count
  | atEnd
deriving DecidableEq, Repr

/-- The error kinds FCLA returns, with the information fields of 60_exceptions.md R160. -/
inductive OpError where
  | timeout (cause : TimeoutCause)
  | protocolMismatch (cause : MismatchCause) (got : Byte) (want : Option Byte)
  /-- `k`, the parameter index, is given by the driver operations only. -/
  | bufferOverflow (declared : Byte) (capacity : Nat) (k : Option Nat)
  | peerReportedFailure (attempts : Nat)
deriving DecidableEq, Repr

/-- The result codes of 60_exceptions.md R160. -/
inductive ResultCode where
  | ok
  | timeout
  | protocolMismatch
  | bufferOverflow
  | peerReportedFailure
  /-- Named by the spec and never returned by FCLA (60_exceptions.md R165). -/
  | unsupportedOperation
deriving DecidableEq, Repr

/-- What the result port carries after an operation (10_state.md R19, 30_encoding.md R67). -/
inductive OpResult where
  /-- OK with no value. -/
  | done
  /-- DECODE_REPLY_HEADER: the reply's PARAM_COUNT. -/
  | count (n : Byte)
  /-- DECODE_PARAMETER: the decoded length. -/
  | len (n : Byte)
  /-- EXECUTE: the decoded lengths. -/
  | lens (ls : List Byte)
  /-- EXECUTE_VARIABLE: the count and the decoded lengths. -/
  | items (n : Byte) (ls : List Byte)
  | error (e : OpError)
deriving DecidableEq, Repr

/-- Why the machine stops with a fault. FCLA has none: 93_implementation_defined.md says that "fault" is not used,
since "FCLA has no fault that the source does not name" (log 17). Safe: nothing is lost by a fault never raised. -/
inductive Fault where
deriving DecidableEq, Repr

/-- Why a request has no meaning. Every constructor but `notModelled` and `undecodable` is a row of
93_implementation_defined.md section 1, whose treatment is "refuse". All are safe: the model stops where the spec
gives no behaviour. -/
inductive Refusal where
  /-- An instruction the model gives no meaning. Raised by no arm of `exec`. -/
  | notModelled (mnemonic : String)
  /-- `op_sel = 0xF` (U5). Raised by RESERVED. -/
  | reservedOpSel
  /-- A primitive requested from the client level (U3). Raised by every primitive. -/
  | primitiveAtClientLevel
  /-- A codec primitive while `SEL = 0` (U8). Raised by every codec primitive. -/
  | linkNotSelected
  /-- ACQUIRE while `SEL = 1` (U4). Raised by ACQUIRE and by the driver operations, which begin with one. -/
  | linkSelected
  /-- A command frame is open where none may be (U6). Raised by ENC_HEADER and what begins with it. -/
  | encoderNotIdle
  /-- No command frame is open (U6). Raised by ENC_PARAM, ENC_PARAM_U16. -/
  | encoderNotOpen
  /-- `last` disagrees with `ENC_REMAINING` (U1). Raised by ENC_PARAM, ENC_PARAM_U16. -/
  | lastDisagrees
  /-- PAD_TO_WORD or ENC_END outside the closing sequence (U2). -/
  | outsideClosing
  /-- A reply is in progress where none may be (U6). Raised by DECODE_REPLY_HEADER and the driver operations. -/
  | decoderNotIdle
  /-- No parameter is left to decode, or no header was decoded (U6). Raised by DECODE_PARAMETER. -/
  | decoderNotInParams
  /-- The parameters are not all decoded, or no header was (U6). Raised by DECODE_END. -/
  | decoderNotAtEnd
  /-- More than 255 parameters (U9). -/
  | tooManyParams
  /-- `is_last` disagrees with the parameter list (U1). Raised by ENCODE_COMMAND. -/
  | flagsDisagree
  /-- `len(dsts)` differs from the announced count (U9). Raised by EXECUTE, EXECUTE_VARIABLE. -/
  | dstCountDisagrees
  /-- A source buffer shorter than the length given with it (U7). Raised by ENC_PARAM and by the operations that take
  a parameter list. -/
  | sourceTooShort
  /-- A frame whose records the format cannot carry (U9). Raised by CMD_FRAME, REPLY_FRAME. -/
  | frameTooLarge
  /-- A request whose form is no instruction: refusing it is a DESIGN CHOICE (log 12). Raised by `step`. -/
  | undecodable (e : DecodeError)
deriving DecidableEq, Repr

/-- The client's buffers (20_memory.md R33, R34): the bytes that have been written, by cell. Byte `i` of buffer `h`
is cell `256 * h + i` (log 5). A cell that is not listed has not been written; what an operation reads there is a free
value (`readByte`, Machine/Ops.lean). -/
abbrev Memory := List Host.Cell

/-- The canonical form: addresses strictly rising, so that equal memories are equal data. -/
def Memory.wf : Memory → Bool
  | [] => true
  | [_] => true
  | a :: b :: rest => decide (a.1 < b.1) && Memory.wf (b :: rest)

/-- The state of the machine: 10_state.md R11 and R19, the buffers, the trace, and the model's own fields.

DESIGN CHOICE (log 21): what the client does to the buffers it owns between two operations (00_scope.md R6) is no step.
It is another `mem` and other `sizes` in the state a step begins with. -/
structure State where
  /-- `SEL`: 1 selected (R13). -/
  sel : Bool
  /-- `ACQ_CNT` (R14). -/
  acqCnt : Nat
  /-- `ENC_STATE` (R15). -/
  encState : EncState
  /-- `ENC_REMAINING` (R15). -/
  encRemaining : Byte
  /-- `TX_COUNT` (R15). -/
  txCount : Half
  /-- `DEC_STATE` (R16). -/
  decState : DecState
  /-- `DEC_REMAINING` (R16). -/
  decRemaining : Byte
  /-- `START_CNT` (R16). -/
  startCnt : Nat
  /-- `SEQ_PHASE` (R17). -/
  seqPhase : SeqPhase
  /-- `SEQ_ATTEMPT` (R17). -/
  seqAttempt : BitVec 5
  /-- `SEQ_EXPECTED` (R17). -/
  seqExpected : Byte
  /-- The result port (R19): none while no result is pending. How long a result stays is log 20. -/
  result : Option OpResult
  /-- SRC and DST buffers, the driver's scratch buffers among them (20_memory.md R33, R34; 10_state.md R20). -/
  mem : Memory
  /-- The interface events since reset, in the order performed (20_memory.md R43). -/
  trace : List Event
  /-- The operation port: the requests that wait, oldest first (R19; 43_command_driver.md R140). -/
  port : List Request
  /-- MODEL: the lengths of the client's buffers, as far as the client has stated them (20_memory.md R42,
  93_implementation_defined.md U7; log 5). A buffer not listed is as long as the length given with it. -/
  sizes : List (Handle × Nat)
  /-- MODEL: the level of the request being executed (60_exceptions.md R171; log 8). -/
  level : AccessLevel
  /-- MODEL: whether the closing sequence `Close()` is running (40_frame_encoder.md R86; log 9). -/
  closing : Bool
  /-- MODEL: the peer's next ready samples, as far as they are named (20_memory.md R44; log 4). -/
  rdyIn : List Bool
  /-- MODEL: the peer's next bytes, as far as they are named (20_memory.md R44; log 4). -/
  rxIn : List Byte
  /-- MODEL: how many answers were taken from the opaque peer of Config (log 4). -/
  draws : Nat
deriving DecidableEq, Repr

/-- The machine right after reset: 10_state.md R24 for every register it gives a value; the counters, which it
leaves unspecified, at zero (log 3); the one event of a reset, `sel 0` (70_reset_and_hazards.md R190; log 13). -/
def State.reset : State where
  sel := false
  acqCnt := 0
  encState := .idle
  encRemaining := 0x00#8
  txCount := 0x0000#16
  decState := .idle
  decRemaining := 0x00#8
  startCnt := 0
  seqPhase := .idle
  seqAttempt := 0#5
  seqExpected := 0x00#8
  result := none
  mem := []
  trace := [.sel false]
  port := []
  sizes := []
  level := .client
  closing := false
  rdyIn := []
  rxIn := []
  draws := 0

end Sys2Proof.Machine
end

