-- ==== Sys2Proof/Machine/Ops.lean ====
section
/-! DEFINITION. The named operations over memory and the link: reading and writing one buffer byte
(20_memory.md R33, R34), the five transport primitives (00_scope.md R9), raising an error and aborting
(60_exceptions.md R160, R168), and refusing a request (60_exceptions.md R176). -/

namespace Sys2Proof.Machine

/-! ### Buffers -/

/-- The cell of byte `i` of buffer `buf` (log 5). FCLA uses indices 0 to 254 only. -/
def cellAddr (buf : Handle) (i : Nat) : Nat := 256 * buf + i

/-- The byte at a cell, none where nothing has been written. -/
def memRead? : Memory → Nat → Option Byte
  | [], _ => none
  | c :: rest, a => if c.1 = a then some c.2 else memRead? rest a

/-- Write one byte, keeping the canonical form. -/
def memWrite : Memory → Nat → Byte → Memory
  | [], a, v => [(a, v)]
  | c :: rest, a, v =>
    if a < c.1 then (a, v) :: c :: rest
    else if a = c.1 then (a, v) :: rest
    else c :: memWrite rest a v

/-- `MemRead(SRC, buf, i)` (20_memory.md R33): what was written last, a free value where nothing was (10_state.md R24;
log 5). -/
def readByte (m : Memory) (buf : Handle) (i : Nat) : Byte :=
  (memRead? m (cellAddr buf i)).getD (Config.unwrittenByte (cellAddr buf i))

/-- The `len` bytes of buffer `buf`, in ascending index order (20_memory.md R33). -/
def readBuffer (m : Memory) (buf : Handle) (len : Byte) : List Byte :=
  (List.range len.toNat).map (readByte m buf)

/-- The length of a buffer, where the client has stated one (log 5). -/
def bufferLength : List (Handle × Nat) → Handle → Option Nat
  | [], _ => none
  | c :: rest, buf => if c.1 = buf then some c.2 else bufferLength rest buf

/-- Whether a buffer is at least as long as the `len` given with it (93_implementation_defined.md U7). A buffer whose
length was not stated is: U7 lets a model make `len` the buffer's length. What its bytes hold does not matter. -/
def bufferHolds (sizes : List (Handle × Nat)) (buf : Handle) (len : Byte) : Bool :=
  match bufferLength sizes buf with
  | some n => decide (len.toNat ≤ n)
  | none => true

/-- `MemWrite(DST, buf, i, v)` (20_memory.md R34). -/
def writeByte (buf : Handle) (i : Nat) (v : Byte) (s : State) : State :=
  { s with mem := memWrite s.mem (cellAddr buf i) v }

/-! ### Transport primitives and their events (00_scope.md R9, 20_memory.md R43) -/

/-- Record an interface event. -/
def emit (e : Event) (s : State) : State := { s with trace := s.trace ++ [e] }

/-- `TxByte(b)`. -/
def txByte (b : Byte) (s : State) : State := emit (.tx b) s

/-- `TxByte` of each byte of a list, first byte first. -/
def txBytes : List Byte → State → State
  | [], s => s
  | b :: rest, s => txBytes rest (txByte b s)

/-- `RxByte()`: the next byte the peer presents; always a byte (20_memory.md R32; log 4). -/
def rxByte (s : State) : Byte × State :=
  match s.rxIn with
  | b :: rest => (b, emit (.rx b) { s with rxIn := rest })
  | [] => (Config.peerByte s.draws, emit (.rx (Config.peerByte s.draws)) { s with draws := s.draws + 1 })

/-- `ReadyQuery()`: one sample of the ready line (20_memory.md R35; log 4). -/
def readyQuery (s : State) : Bool × State :=
  match s.rdyIn with
  | v :: rest => (v, emit (.rdy v) { s with rdyIn := rest })
  | [] => (Config.peerReady s.draws, emit (.rdy (Config.peerReady s.draws)) { s with draws := s.draws + 1 })

/-- `SetSelect(v)` and `SEL <- v`, which every rule writes together (42_link_arbiter.md R121, R122). -/
def setSelect (v : Bool) (s : State) : State := { emit (.sel v) s with sel := v }

/-- `Yield(k)`: no state of FCLA changes (70_reset_and_hazards.md R205). -/
def yieldFor (k : YieldKind) (s : State) : State := emit (.yielded k) s

/-! ### The lines and streams as an observer sees them -/

/-- The logical level of the select line (10_state.md R13). -/
def selectLine (s : State) : Bool := s.sel

/-- The physical level of the select line (10_state.md R13; D33). -/
def selectPin (s : State) : Bool := if s.sel then Config.selectActiveLevel else !Config.selectActiveLevel

/-- The logical ready value of a physical level (20_memory.md R35; D33). -/
def readyOfPin (level : Bool) : Bool := level == Config.readyActiveLevel

/-- FCLA is busy exactly when `SEQ_PHASE != SEQ_IDLE` (10_state.md R17). -/
def busy (s : State) : Bool := s.seqPhase != .idle

/-- The bytes sent in a trace, in order (20_memory.md R31). -/
def txStream (t : List Event) : List Byte :=
  t.filterMap fun e => match e with
    | .tx b => some b
    | _ => none

/-- The bytes received in a trace, in order (20_memory.md R32). -/
def rxStream (t : List Event) : List Byte :=
  t.filterMap fun e => match e with
    | .rx b => some b
    | _ => none

/-! ### Errors (60_exceptions.md R160) -/

/-- What a procedure that can raise answers: the state it leaves, and a value or the error it raised. -/
abbrev Run (α : Type) := State × Except OpError α

/-- Go on with `f` where `r` returned normally; a raise ends the procedure at once (00_scope.md R9). -/
def andThen {α β : Type} (r : Run α) (f : α → State → Run β) : Run β :=
  match r with
  | (s, .ok a) => f a s
  | (s, .error e) => (s, .error e)

/-- RELEASE's effect (42_link_arbiter.md R122): deselect, and no frame stays open. -/
def releaseLink (s : State) : State :=
  { setSelect false s with encState := .idle, decState := .idle, closing := false }

/-- `Abort()`, what taking an error inside an exchange does (60_exceptions.md R168): both codec positions idle, then
RELEASE. Nothing is saved and nothing returns from it (R169). -/
def abort (s : State) : State := releaseLink { s with encState := .idle, decState := .idle }

/-- `on any raise: Abort()` of `Exchange` (43_command_driver.md R135). -/
def abortOnRaise {α : Type} (r : Run α) : Run α :=
  match r with
  | (s, .ok a) => (s, .ok a)
  | (s, .error e) => (abort s, .error e)

/-- Put a result on the result port (10_state.md R19, 60_exceptions.md R160).

DESIGN CHOICE (log 20): the spec says only that no result is pending after reset, and never when a returned result
stops being pending. The model keeps it on the port until the next operation's result overwrites it. -/
def finish (r : OpResult) (s : State) : State := { s with result := some r }

/-- End an operation that can raise: its value, or the error, goes to the result port. -/
def finishRun {α : Type} (r : Run α) (f : α → OpResult) : State :=
  match r with
  | (s, .ok a) => finish (f a) s
  | (s, .error e) => finish (.error e) s

/-! ### Refusals (60_exceptions.md R176) -/

/-- What an operation answers. -/
abbrev Answer := Host.Outcome State Fault Refusal

/-- Go on where the precondition holds, refuse by name where it does not. -/
def require (c : Bool) (r : Refusal) (k : Answer) : Answer :=
  match c with
  | true => k
  | false => .refused r

/-- A primitive is refused at client level (60_exceptions.md R171; 93_implementation_defined.md U3). -/
def requireDriver (s : State) (k : Answer) : Answer := require (s.level == .driver) .primitiveAtClientLevel k

/-- A codec primitive needs a selected link (70_reset_and_hazards.md R196; 93_implementation_defined.md U8). -/
def requireSelected (s : State) (k : Answer) : Answer := require s.sel .linkNotSelected k

end Sys2Proof.Machine
end

