-- ==== Sys2Proof/Machine/Operands.lean ====
section
/-! DEFINITION. Operand forms: the parameters of a command as bytes (30_encoding.md R53, R59), their terminal marks
(40_frame_encoder.md R87), and the destinations of a reply (43_command_driver.md R136). -/

namespace Sys2Proof.Machine

/-- The payload bytes of a parameter (40_frame_encoder.md R88, `bytes(P)`). -/
def paramBytes (m : Memory) : Param → List Byte
  | .raw buf len => readBuffer m buf len
  | .u16 v => u16Payload v

/-- Whether a parameter's source buffer is as long as the length given with it (93_implementation_defined.md U7). -/
def paramHolds (sizes : List (Handle × Nat)) : Param → Bool
  | .raw buf len => bufferHolds sizes buf len
  | .u16 _ => true

/-- Whether every parameter's source buffer is as long as the length given with it. -/
def sourcesHold (sizes : List (Handle × Nat)) (params : List Param) : Bool := params.all (paramHolds sizes)

/-- The destinations of a reply of `n` parameters: the first `n` (43_command_driver.md R135). -/
def dstsFor (n : Byte) (dsts : List Dst) : List Dst := dsts.take n.toNat

/-- The status buffer of POLL_DATA_SENT: capacity 1 (43_command_driver.md R138). -/
def statusDst (dst : Handle) : List Dst := [⟨dst, 1⟩]

end Sys2Proof.Machine
end

