-- ==== Sys2Proof/Machine/Flags.lean ====
section
/-! DEFINITION. FCLA has no status flags, condition codes or predicate registers (10_state.md R18). What an operation
decides is in its result; here are the conditions the rules test and the result codes of 60_exceptions.md R160. -/

namespace Sys2Proof.Machine

/-- The confirmation check (41_frame_decoder.md R103): all 8 bits equal. -/
def confirms (p : Params) (expected got : Byte) : Bool := got == confirmByte p expected

/-- The bound check (41_frame_decoder.md R105; 30_encoding.md R72 d). -/
def overflows (len : Byte) (cap : Nat) : Bool := decide (cap < len.toNat)

/-- The count test of EXECUTE: exactly `e` (43_command_driver.md R136). -/
def admitExactly (e n : Byte) : Bool := n == e

/-- The count test of EXECUTE_VARIABLE: at most `m` (43_command_driver.md R137). -/
def admitAtMost (m n : Byte) : Bool := decide (n.toNat ≤ m.toNat)

/-- The terminator check (41_frame_decoder.md R106): passes when END is there or is not checked. -/
def endAccepted (p : Params) (got : Byte) : Bool := !p.checkReplyEnd || got == p.endByte

/-- A true status: one byte, not zero (43_command_driver.md R138). `lens` are the decoded lengths. -/
def statusTrue (m : Memory) (dst : Handle) (lens : List Byte) : Bool :=
  lens == [0x01#8] &&
    match memRead? m (cellAddr dst 0) with
    | some b => b != 0x00#8
    | none => false

/-- `last = 1` exactly when one parameter is left (40_frame_encoder.md R82). -/
def lastAgrees (remaining : Byte) (last : Bool) : Bool := last == (remaining == 0x01#8)

/-- The kind of an error (60_exceptions.md R160). -/
def errorCode : OpError → ResultCode
  | .timeout _ => .timeout
  | .protocolMismatch _ _ _ => .protocolMismatch
  | .bufferOverflow _ _ _ => .bufferOverflow
  | .peerReportedFailure _ => .peerReportedFailure

/-- The result code of a result (60_exceptions.md R160). -/
def resultCode : OpResult → ResultCode
  | .done => .ok
  | .count _ => .ok
  | .len _ => .ok
  | .lens _ => .ok
  | .items _ _ => .ok
  | .error e => errorCode e

/-- The 3-bit number of a result code (60_exceptions.md R160; D24). -/
def codeBits : ResultCode → BitVec 3
  | .ok => 0#3
  | .timeout => 1#3
  | .protocolMismatch => 2#3
  | .bufferOverflow => 3#3
  | .peerReportedFailure => 4#3
  | .unsupportedOperation => 5#3

end Sys2Proof.Machine
end

