-- ==== Sys2Proof/Machine/FrameDecoder.lean ====
section
/-! DEFINITION. The frame decoder (41_frame_decoder.md): the procedures of R101 to R106 over the parameters `p`, the
operations, and `ParseReply` (R107), what they deliver from a byte sequence. -/

namespace Sys2Proof.Machine

/-- The START scan (R102) with `n` bytes still allowed: `START_CNT` counts down once for each byte that is not
START, and at zero Timeout is raised. -/
def scanStart (p : Params) : Nat → State → Run Unit
  | 0, s => (s, .error (.timeout .start))
  | n + 1, s =>
    if (rxByte s).1 = p.startByte then ((rxByte s).2, .ok ())
    else scanStart p n { (rxByte s).2 with startCnt := n }

/-- The confirmation check (R103). -/
def readConfirm (p : Params) (expected : Byte) (s : State) : Run Unit :=
  if confirms p expected (rxByte s).1 then ((rxByte s).2, .ok ())
  else ((rxByte s).2, .error (.protocolMismatch .opcode (rxByte s).1 (some (confirmByte p expected))))

/-- Read PARAM_COUNT and take the position it leads to (R101). -/
def readCount (s : State) : Run Byte :=
  let n := (rxByte s).1
  ({ (rxByte s).2 with decRemaining := n, decState := if n = 0x00#8 then .atEnd else .params }, .ok n)

/-- DECODE_REPLY_HEADER's pseudocode (R101). -/
def readHeader (p : Params) (expected : Byte) (s : State) : Run Byte :=
  andThen (scanStart p p.startPollMax { s with startCnt := p.startPollMax }) fun _ s =>
  andThen (readConfirm p expected s) fun _ s => readCount s

/-- Receive `n` bytes into buffer `dst` from index `i` on, ascending (R104, 20_memory.md R34). -/
def storePayload (dst : Handle) : Nat → Nat → State → State
  | 0, _, s => s
  | n + 1, i, s => storePayload dst n (i + 1) (writeByte dst i (rxByte s).1 (rxByte s).2)

/-- One parameter is decoded: count down, and at zero go to DEC_END (R104). -/
def countDecoded (s : State) : State :=
  let left := s.decRemaining - 1#8
  { s with decRemaining := left, decState := if left = 0x00#8 then .atEnd else s.decState }

/-- DECODE_PARAMETER's pseudocode (R104), with the bound check of R105. `k` is the parameter index a driver
operation reports (60_exceptions.md R160). -/
def readParameter (dst : Dst) (k : Option Nat) (s : State) : Run Byte :=
  let len := (rxByte s).1
  let s := (rxByte s).2
  if overflows len dst.cap then ({ s with decState := .idle }, .error (.bufferOverflow len dst.cap k))
  else (countDecoded (storePayload dst.dst len.toNat 0 s), .ok len)

/-- DECODE_PARAMETER for each destination in order, from parameter `k` on (43_command_driver.md R135). -/
def readParameters : List Dst → Nat → State → Run (List Byte)
  | [], _, s => (s, .ok [])
  | dst :: dsts, k, s =>
    andThen (readParameter dst (some k) s) fun len s =>
    andThen (readParameters dsts (k + 1) s) fun lens s => (s, .ok (len :: lens))

/-- DECODE_END's pseudocode (R106). -/
def readEnd (p : Params) (s : State) : Run Unit :=
  let s' := { (rxByte s).2 with decState := .idle }
  if endAccepted p (rxByte s).1 then (s', .ok ())
  else (s', .error (.protocolMismatch .atEnd (rxByte s).1 (some p.endByte)))

/-! ### Preconditions -/

/-- The precondition of a decoder operation: driver level, `SEL = 1`, `DEC_STATE` at the given position
(R101, R104, R106). -/
def requireDecoder (pos : DecState) (r : Refusal) (s : State) (k : Answer) : Answer :=
  requireDriver s <| requireSelected s <| require (s.decState == pos) r k

/-! ### The operations, for any parameters -/

/-- DECODE_REPLY_HEADER (R101). -/
def decodeReplyHeaderWith (p : Params) (expected : Byte) (s : State) : Answer :=
  requireDecoder .idle .decoderNotIdle s <| .next (finishRun (readHeader p expected s) .count)

/-- DECODE_PARAMETER (R104). No parameter depends on it: the rule names no constant. -/
def decodeParameterWith (dst : Handle) (cap : Nat) (s : State) : Answer :=
  requireDecoder .params .decoderNotInParams s <| .next (finishRun (readParameter ⟨dst, cap⟩ none s) .len)

/-- DECODE_END (R106). -/
def decodeEndWith (p : Params) (s : State) : Answer :=
  requireDecoder .atEnd .decoderNotAtEnd s <| .next (finishRun (readEnd p s) fun _ => .done)

/-! ### The meanings -/

/-- DECODE_REPLY_HEADER (R101). -/
def execDecodeReplyHeader (expected : Byte) (s : State) : Answer := decodeReplyHeaderWith Config.hw expected s

/-- DECODE_PARAMETER (R104). -/
def execDecodeParameter (dst : Handle) (cap : Nat) (s : State) : Answer := decodeParameterWith dst cap s

/-- DECODE_END (R106). -/
def execDecodeEnd (s : State) : Answer := decodeEndWith Config.hw s

/-! ### `ParseReply` (R107) -/

/-- What `ParseReply` delivers: the outcome and the number of bytes consumed. -/
structure ReplyOutcome where
  /-- The parameters delivered, in order. -/
  delivered : List (List Byte)
  /-- The count, or the error raised. -/
  result : Except OpError Byte
  /-- How many bytes were consumed. -/
  consumed : Nat

/-- The parameter part of `ParseReply` (R107): `n` records against the capacities, then END. None where the byte
sequence or the list of capacities is too short for the question. -/
def parseReplyRecords (p : Params) (count : Byte) : Nat → Nat → List Nat → List Byte → Option ReplyOutcome
  | 0, _, _, bytes =>
    match bytes with
    | [] => none
    | b :: _ =>
      if endAccepted p b then some ⟨[], .ok count, 1⟩
      else some ⟨[], .error (.protocolMismatch .atEnd b (some p.endByte)), 1⟩
  | n + 1, k, caps, bytes =>
    match caps, bytes with
    | cap :: caps, len :: rest =>
      if overflows len cap then some ⟨[], .error (.bufferOverflow len cap (some k)), 1⟩
      else if len.toNat ≤ rest.length then
        match parseReplyRecords p count n (k + 1) caps (rest.drop len.toNat) with
        | some r => some ⟨rest.take len.toNat :: r.delivered, r.result, 1 + len.toNat + r.consumed⟩
        | none => none
      else none
    | _, _ => none

/-- The part of `ParseReply` after START: confirmation, count, records (R107). -/
def parseReplyBody (p : Params) (expected : Byte) (caps : List Nat) : List Byte → Option ReplyOutcome
  | [] => none
  | confirm :: rest =>
    if confirms p expected confirm then
      match rest with
      | [] => none
      | n :: rest =>
        match parseReplyRecords p n n.toNat 0 caps rest with
        | some r => some { r with consumed := 2 + r.consumed }
        | none => none
    else some ⟨[], .error (.protocolMismatch .opcode confirm (some (confirmByte p expected))), 1⟩

/-- `ParseReply` with `polls` bytes of the START budget left (R107). -/
def parseReplyFrom (p : Params) (expected : Byte) (caps : List Nat) : Nat → List Byte → Option ReplyOutcome
  | 0, _ => some ⟨[], .error (.timeout .start), 0⟩
  | _ + 1, [] => none
  | polls + 1, b :: rest =>
    match (if b = p.startByte then parseReplyBody p expected caps rest
           else parseReplyFrom p expected caps polls rest) with
    | some r => some { r with consumed := 1 + r.consumed }
    | none => none

/-- `ParseReply(expected, caps, s)` (R107). -/
def parseReply (p : Params) (expected : Byte) (caps : List Nat) (bytes : List Byte) : Option ReplyOutcome :=
  parseReplyFrom p expected caps p.startPollMax bytes

end Sys2Proof.Machine
end

