-- ==== Sys2Proof/Machine/FrameEncoder.lean ====
section
/-! DEFINITION. The frame encoder (40_frame_encoder.md): the procedures of R81 to R87 over the parameters `p`, then
the operations, which check level and preconditions and run them. -/

namespace Sys2Proof.Machine

/-- PAD_TO_WORD's pseudocode (R84). -/
def padToWord (p : Params) (total : Half) (s : State) : State :=
  { txBytes (List.replicate (fillerCount total.toNat) p.padByte) s with
    txCount := s.txCount + BitVec.ofNat 16 (fillerCount total.toNat) }

/-- ENC_END's pseudocode (R85). -/
def writeEnd (p : Params) (s : State) : State :=
  { txByte p.endByte s with txCount := s.txCount + 1#16, encState := .idle }

/-- The closing sequence `Close()` (R86). `closing` holds exactly while it runs (log 9). -/
def closeFrame (p : Params) (s : State) : State :=
  match p.padPosition with
  | .beforeEnd => { writeEnd p (padToWord p (s.txCount + 1#16) { s with closing := true }) with closing := false }
  | .afterEnd =>
    { padToWord p (s.txCount + 1#16) (writeEnd p { s with closing := true }) with closing := false }

/-- ENC_HEADER's pseudocode (R81). -/
def writeHeader (p : Params) (opcode count : Byte) (s : State) : State :=
  let s := { txBytes [p.startByte, opcode, count] s with txCount := 3#16, encRemaining := count }
  if count = 0x00#8 then closeFrame p s else { s with encState := .open }

/-- The pseudocode of ENC_PARAM (R82), and of ENC_PARAM_U16 (R83), which is byte for byte ENC_PARAM of the two
big-endian bytes. -/
def writeRecord (p : Params) (payload : List Byte) (last : Bool) (s : State) : State :=
  let s := { txBytes (recordBytes payload) s with
    txCount := s.txCount + 1#16 + BitVec.ofNat 16 payload.length
    encRemaining := s.encRemaining - 1#8 }
  if last then closeFrame p s else s

/-- ENC_PARAM or ENC_PARAM_U16, as the parameter says (R87). -/
def writeParam (p : Params) (param : Param) (last : Bool) (s : State) : State :=
  writeRecord p (paramBytes s.mem param) last s

/-- The loop of ENCODE_COMMAND (R87): one parameter, one mark, in order. -/
def writeParams (p : Params) : List Param → List Bool → State → State
  | param :: params, last :: flags, s => writeParams p params flags (writeParam p param last s)
  | _, _, s => s

/-- ENCODE_COMMAND's pseudocode (R87). -/
def writeCommand (p : Params) (opcode : Byte) (params : List Param) (isLast : List Bool) (s : State) : State :=
  writeParams p params isLast (writeHeader p opcode (BitVec.ofNat 8 params.length) s)

/-! ### Preconditions -/

/-- The precondition of ENC_HEADER (R81): driver level, `SEL = 1`, `ENC_STATE = ENC_IDLE`. -/
def requireHeader (s : State) (k : Answer) : Answer :=
  requireDriver s <| requireSelected s <| require (s.encState == .idle) .encoderNotIdle k

/-- The precondition of ENC_PARAM (R82): driver level, `SEL = 1`, `ENC_STATE = ENC_OPEN`, `last = 1` exactly when
`ENC_REMAINING = 1`. -/
def requireRecord (last : Bool) (s : State) (k : Answer) : Answer :=
  requireDriver s <| requireSelected s <| require (s.encState == .open) .encoderNotOpen <|
    require (lastAgrees s.encRemaining last) .lastDisagrees k

/-- The precondition of PAD_TO_WORD and ENC_END (R84, R85): driver level, inside the closing sequence, `SEL = 1`. -/
def requireClosing (s : State) (k : Answer) : Answer :=
  requireDriver s <| require s.closing .outsideClosing <| requireSelected s k

/-! ### The operations, for any parameters -/

/-- ENC_HEADER (R81). -/
def encHeaderWith (p : Params) (opcode count : Byte) (s : State) : Answer :=
  requireHeader s <| .next (finish .done (writeHeader p opcode count s))

/-- ENC_PARAM (R82). -/
def encParamWith (p : Params) (buf : Handle) (len : Byte) (last : Bool) (s : State) : Answer :=
  requireRecord last s <| require (bufferHolds s.sizes buf len) .sourceTooShort <|
    .next (finish .done (writeParam p (.raw buf len) last s))

/-- ENC_PARAM_U16 (R83). -/
def encParamU16With (p : Params) (value : Half) (last : Bool) (s : State) : Answer :=
  requireRecord last s <| .next (finish .done (writeParam p (.u16 value) last s))

/-- PAD_TO_WORD (R84). -/
def padToWordWith (p : Params) (total : Half) (s : State) : Answer :=
  requireClosing s <| .next (finish .done (padToWord p total s))

/-- ENC_END (R85). -/
def encEndWith (p : Params) (s : State) : Answer :=
  requireClosing s <| .next (finish .done (writeEnd p s))

/-- ENCODE_COMMAND (R87). -/
def encodeCommandWith (p : Params) (opcode : Byte) (params : List Param) (isLast : List Bool) (s : State) : Answer :=
  requireHeader s <| require (paramsFit params) .tooManyParams <| require (flagsFit params isLast) .flagsDisagree <|
    require (sourcesHold s.sizes params) .sourceTooShort <|
      .next (finish .done (writeCommand p opcode params isLast s))

/-! ### The meanings -/

/-- ENC_HEADER (R81). -/
def execEncHeader (opcode count : Byte) (s : State) : Answer := encHeaderWith Config.hw opcode count s

/-- ENC_PARAM (R82). -/
def execEncParam (buf : Handle) (len : Byte) (last : Bool) (s : State) : Answer :=
  encParamWith Config.hw buf len last s

/-- ENC_PARAM_U16 (R83). -/
def execEncParamU16 (value : Half) (last : Bool) (s : State) : Answer := encParamU16With Config.hw value last s

/-- PAD_TO_WORD (R84). -/
def execPadToWord (total : Half) (s : State) : Answer := padToWordWith Config.hw total s

/-- ENC_END (R85). -/
def execEncEnd (s : State) : Answer := encEndWith Config.hw s

/-- ENCODE_COMMAND (R87). -/
def execEncodeCommand (opcode : Byte) (params : List Param) (isLast : List Bool) (s : State) : Answer :=
  encodeCommandWith Config.hw opcode params isLast s

end Sys2Proof.Machine
end

