-- ==== Sys2Proof/Machine/LinkArbiter.lean ====
section
/-! DEFINITION. The link arbiter (42_link_arbiter.md): ACQUIRE (R121) and RELEASE (R122, whose effect `releaseLink`
stands in Machine/Ops.lean because the abort procedure uses it). -/

namespace Sys2Proof.Machine

/-- The loop of ACQUIRE (R121) with `n` samples still allowed: a not-ready sample counts `ACQ_CNT` down; at zero the
link is deselected and Timeout raised, before that a yield separates it from the next sample. -/
def pollReady : Nat → State → Run Unit
  | 0, s => (setSelect false s, .error (.timeout .ready))
  | n + 1, s =>
    if (readyQuery s).1 then ((readyQuery s).2, .ok ())
    else
      let s' := { (readyQuery s).2 with acqCnt := n }
      pollReady n (if n = 0 then s' else yieldFor .poll s')

/-- ACQUIRE's pseudocode (R121). -/
def acquireLink (p : Params) (s : State) : Run Unit :=
  pollReady p.acqRetryMax { setSelect true s with acqCnt := p.acqRetryMax }

/-- ACQUIRE (R121): refused while `SEL = 1` (93_implementation_defined.md U4). -/
def acquireWith (p : Params) (s : State) : Answer :=
  requireDriver s <| require (!s.sel) .linkSelected <| .next (finishRun (acquireLink p s) fun _ => .done)

/-- ACQUIRE (R121). -/
def execAcquire (s : State) : Answer := acquireWith Config.hw s

/-- RELEASE (R122): no precondition but the level. -/
def execRelease (s : State) : Answer := requireDriver s <| .next (finish .done (releaseLink s))

end Sys2Proof.Machine
end

