-- ==== Sys2Proof/Machine/CommandDriver.lean ====
section
/-! DEFINITION. The Command Driver (43_command_driver.md): `Exchange` (R135) and the three operations a client may
request, EXECUTE (R136), EXECUTE_VARIABLE (R137) and POLL_DATA_SENT (R138). -/

namespace Sys2Proof.Machine

/-- `SEQ_PHASE <- v`. -/
def enterPhase (v : SeqPhase) (s : State) : State := { s with seqPhase := v }

/-- The command phase and the turnaround of `Exchange` (R135): acquire, encode and send, release, yield. -/
def commandPhase (p : Params) (opcode : Byte) (params : List Param) (s : State) : Run Unit :=
  andThen (acquireLink p (enterPhase .cmdAcq { s with seqExpected := opcode })) fun _ s =>
    let s := writeCommand p opcode params (terminalFlags params.length) (enterPhase .cmdSend s)
    (yieldFor .turnaround (enterPhase .turn (releaseLink s)), .ok ())

/-- The count test of `Exchange` (R135), before any parameter is decoded. -/
def testCount (passes : Byte → Bool) (n : Byte) (s : State) : Run Unit :=
  if passes n then (s, .ok ()) else (s, .error (.protocolMismatch .count n none))

/-- The parameters and END of a reply of `n` parameters (R135). -/
def replyItems (p : Params) (dsts : List Dst) (n : Byte) (s : State) : Run (List Byte) :=
  andThen (readParameters (dstsFor n dsts) 0 (enterPhase .rplPar s)) fun lens s =>
  andThen (readEnd p (enterPhase .rplEnd s)) fun _ s => (releaseLink s, .ok lens)

/-- The reply phase of `Exchange` (R135): acquire, header, count test, parameters, END, release. -/
def replyPhase (p : Params) (passes : Byte → Bool) (dsts : List Dst) (s : State) : Run (Byte × List Byte) :=
  andThen (acquireLink p (enterPhase .rplAcq s)) fun _ s =>
  andThen (readHeader p s.seqExpected (enterPhase .rplHdr s)) fun n s =>
  andThen (testCount passes n s) fun _ s =>
  andThen (replyItems p dsts n s) fun lens s => (s, .ok (n, lens))

/-- `Exchange` (R135), with the abort on any raise. -/
def exchange (p : Params) (opcode : Byte) (params : List Param) (passes : Byte → Bool) (dsts : List Dst)
    (s : State) : Run (Byte × List Byte) :=
  abortOnRaise <| andThen (commandPhase p opcode params s) fun _ s => replyPhase p passes dsts s

/-- End a driver operation: `SEQ_PHASE <- SEQ_IDLE`, and the result (R136 to R138). -/
def endDriver (r : OpResult) (s : State) : State := finish r (enterPhase .idle s)

/-- End EXECUTE or EXECUTE_VARIABLE with what the exchange returned. -/
def endExchange (r : Run (Byte × List Byte)) (f : Byte → List Byte → OpResult) : State :=
  match r with
  | (s, .ok a) => endDriver (f a.1 a.2) s
  | (s, .error e) => endDriver (.error e) s

/-- Whether an attempt of POLL_DATA_SENT ends the polling, and with what (R138): a true status with OK, a transport
error with that error unless errors are retried; a false status does not end it. -/
def attemptEnds (p : Params) (dst : Handle) (r : Run (Byte × List Byte)) : Option OpResult :=
  match r with
  | (s, .ok a) => if statusTrue s.mem dst a.2 then some .done else none
  | (_, .error e) => if p.retryOnTransportError then none else some (.error e)

/-- The loop of POLL_DATA_SENT (R138). `fuel` bounds the attempts; `SEQ_ATTEMPT` ends them.

DESIGN CHOICE (log 19): where the status buffer is also a source buffer of `params`, each attempt reads the sources
anew, so a later attempt sends the byte the attempt before it stored. -/
def pollAttempts (p : Params) (opcode : Byte) (params : List Param) (dst : Handle) : Nat → State → State
  | 0, s => endDriver (.error (.peerReportedFailure dataSentRetryMax)) s
  | fuel + 1, s =>
    let r := exchange p opcode params (admitExactly 0x01#8) (statusDst dst)
      { s with seqAttempt := s.seqAttempt + 1#5 }
    match attemptEnds p dst r with
    | some res => endDriver res r.1
    | none =>
      if r.1.seqAttempt.toNat = dataSentRetryMax then
        endDriver (.error (.peerReportedFailure dataSentRetryMax)) r.1
      else pollAttempts p opcode params dst fuel (yieldFor .retry (enterPhase .retryWait r.1))

/-! ### Preconditions -/

/-- What a driver operation needs on entry: not busy is tested by the operation itself (a request while busy waits,
R140); `SEL = 0` and both codec machines idle, which the first ACQUIRE and the codec primitives need (log 18). -/
def requireIdle (s : State) (k : Answer) : Answer :=
  require (!s.sel) .linkSelected <| require (s.encState == .idle) .encoderNotIdle <|
    require (s.decState == .idle) .decoderNotIdle k

/-- A driver operation is taken only when FCLA is not busy; presented while busy it waits: nothing happens
(R140; log 6). -/
def whenIdle (s : State) (k : Answer) : Answer :=
  match busy s with
  | true => .next s
  | false => requireIdle s k

/-! ### The operations, for any parameters -/

/-- EXECUTE (R136). -/
def executeWith (p : Params) (opcode : Byte) (params : List Param) (e : Byte) (dsts : List Dst)
    (s : State) : Answer :=
  whenIdle s <| require (paramsFit params) .tooManyParams <| require (dstsFit e dsts) .dstCountDisagrees <|
    require (sourcesHold s.sizes params) .sourceTooShort <|
      .next (endExchange (exchange p opcode params (admitExactly e) dsts s) fun _ lens => .lens lens)

/-- EXECUTE_VARIABLE (R137): the command has no parameters. -/
def executeVariableWith (p : Params) (opcode m : Byte) (dsts : List Dst) (s : State) : Answer :=
  whenIdle s <| require (dstsFit m dsts) .dstCountDisagrees <|
    .next (endExchange (exchange p opcode [] (admitAtMost m) dsts s) .items)

/-- POLL_DATA_SENT (R138). -/
def pollDataSentWith (p : Params) (opcode : Byte) (params : List Param) (dst : Handle) (s : State) : Answer :=
  whenIdle s <| require (paramsFit params) .tooManyParams <| require (sourcesHold s.sizes params) .sourceTooShort <|
    .next (pollAttempts p opcode params dst dataSentRetryMax { s with seqAttempt := 0#5 })

/-! ### The meanings -/

/-- EXECUTE (R136). -/
def execExecute (opcode : Byte) (params : List Param) (e : Byte) (dsts : List Dst) (s : State) : Answer :=
  executeWith Config.hw opcode params e dsts s

/-- EXECUTE_VARIABLE (R137). -/
def execExecuteVariable (opcode m : Byte) (dsts : List Dst) (s : State) : Answer :=
  executeVariableWith Config.hw opcode m dsts s

/-- POLL_DATA_SENT (R138). -/
def execPollDataSent (opcode : Byte) (params : List Param) (dst : Handle) (s : State) : Answer :=
  pollDataSentWith Config.hw opcode params dst s

end Sys2Proof.Machine
end

