-- ==== Sys2Proof/Machine/PortCodes.lean ====
section
/-! DEFINITION. The two `op_sel` codes that are no operation (30_encoding.md R68). -/

namespace Sys2Proof.Machine

/-- NONE, 0x0: no state changes and no event occurs (R68). -/
def execNoOperation (s : State) : Answer := .next s

/-- RESERVED, 0xF: a request with it has no meaning and is refused (R68; 93_implementation_defined.md U5). -/
def execReserved (_ : State) : Answer := .refused .reservedOpSel

end Sys2Proof.Machine
end

