-- ==== Sys2Proof/Machine/WireForms.lean ====
section
/-! DEFINITION. The rows of spec/opcode_table.json that are wire formats and not `op_sel` codes. A frame passes over
the link in its direction: CMD_FRAME is sent by FCLA (30_encoding.md R51, 40_frame_encoder.md R88), REPLY_FRAME is
presented by the peer (30_encoding.md R52). A field of a frame is handled by the codec step that writes or confirms
it: PARAM_U16 by ENC_PARAM_U16 (30_encoding.md R59), a command OPCODE by ENC_HEADER (30_encoding.md R63, R64), a
reply OPCODE by DECODE_REPLY_HEADER (30_encoding.md R56). Logs 10 and 11. -/

namespace Sys2Proof.Machine

/-- The parameter records of a frame given literally, the last one marked (40_frame_encoder.md R87). -/
def writeRecords (p : Params) : List (List Byte) → State → State
  | [], s => s
  | payload :: payloads, s => writeRecords p payloads (writeRecord p payload payloads.isEmpty s)

/-- The bytes of a whole command frame, through the encoder (40_frame_encoder.md R87, R88). -/
def writeFrame (p : Params) (opcode : Byte) (payloads : List (List Byte)) (s : State) : State :=
  writeRecords p payloads (writeHeader p opcode (BitVec.ofNat 8 payloads.length) s)

/-- The peer presents bytes: they are the last of those it will answer with (20_memory.md R32, R44). -/
def presentBytes (bytes : List Byte) (s : State) : State := { s with rxIn := s.rxIn ++ bytes }

/-- CMD_FRAME (30_encoding.md R51): ENCODE_COMMAND of the payloads. -/
def cmdFrameWith (p : Params) (opcode : Byte) (payloads : List (List Byte)) (s : State) : Answer :=
  requireHeader s <| require (payloadsFit payloads) .frameTooLarge <|
    .next (finish .done (writeFrame p opcode payloads s))

/-- REPLY_FRAME (30_encoding.md R52): the peer presents the frame. No operation of FCLA runs, so no level is asked
and no result appears. -/
def replyFrameWith (p : Params) (confirm : Byte) (payloads : List (List Byte)) (s : State) : Answer :=
  require (payloadsFit payloads) .frameTooLarge <| .next (presentBytes (replyFrameBytes p confirm payloads) s)

/-- PARAM_U16 (30_encoding.md R59): the record as the next parameter of the open frame. The wire carries no `last`
mark (90_conflicts.md C8); the only one ENC_PARAM_U16 accepts is taken. -/
def paramU16With (p : Params) (value : Half) (s : State) : Answer :=
  encParamU16With p value (s.encRemaining == 0x01#8) s

/-- CMD_FRAME (30_encoding.md R51). -/
def execCmdFrame (opcode : Byte) (payloads : List (List Byte)) (s : State) : Answer :=
  cmdFrameWith Config.hw opcode payloads s

/-- REPLY_FRAME (30_encoding.md R52). -/
def execReplyFrame (confirm : Byte) (payloads : List (List Byte)) (s : State) : Answer :=
  replyFrameWith Config.hw confirm payloads s

/-- PARAM_U16 (30_encoding.md R59). -/
def execParamU16 (value : Half) (s : State) : Answer := paramU16With Config.hw value s

/-- SET_NET (30_encoding.md R63): the header of a command frame with OPCODE 0x10. -/
def execSetNet (count : Byte) (s : State) : Answer := encHeaderWith Config.hw opcSetNet count s

/-- SET_NET.reply (30_encoding.md R56): the header of a reply, confirmed as `0x10 | REPLY_MARKER`. -/
def execSetNetReply (s : State) : Answer := decodeReplyHeaderWith Config.hw opcSetNet s

/-- GET_CONN_STATUS (30_encoding.md R63): the header of a command frame with OPCODE 0x20. -/
def execGetConnStatus (count : Byte) (s : State) : Answer := encHeaderWith Config.hw opcGetConnStatus count s

/-- GET_CONN_STATUS.reply (30_encoding.md R56): the header of a reply, confirmed as `0x20 | REPLY_MARKER`. -/
def execGetConnStatusReply (s : State) : Answer := decodeReplyHeaderWith Config.hw opcGetConnStatus s

end Sys2Proof.Machine
end

