-- ==== Sys2Proof/Machine/Dispatch.lean ====
section
/-! DEFINITION. One arm per constructor of Instr. -/

namespace Sys2Proof.Machine

def exec (i : Instr) (s : State) : Host.Outcome State Fault Refusal :=
  match i with
  | .noOperation => Sys2Proof.Machine.execNoOperation s
  | .encHeader opcode count => Sys2Proof.Machine.execEncHeader opcode count s
  | .encParam buf len last => Sys2Proof.Machine.execEncParam buf len last s
  | .encParamU16 value last => Sys2Proof.Machine.execEncParamU16 value last s
  | .padToWord total => Sys2Proof.Machine.execPadToWord total s
  | .encEnd => Sys2Proof.Machine.execEncEnd s
  | .encodeCommand opcode params isLast => Sys2Proof.Machine.execEncodeCommand opcode params isLast s
  | .decodeReplyHeader expected => Sys2Proof.Machine.execDecodeReplyHeader expected s
  | .decodeParameter dst cap => Sys2Proof.Machine.execDecodeParameter dst cap s
  | .decodeEnd => Sys2Proof.Machine.execDecodeEnd s
  | .acquire => Sys2Proof.Machine.execAcquire s
  | .release => Sys2Proof.Machine.execRelease s
  | .execute opcode params e dsts => Sys2Proof.Machine.execExecute opcode params e dsts s
  | .executeVariable opcode m dsts => Sys2Proof.Machine.execExecuteVariable opcode m dsts s
  | .pollDataSent opcode params dst => Sys2Proof.Machine.execPollDataSent opcode params dst s
  | .reserved => Sys2Proof.Machine.execReserved s
  | .cmdFrame opcode payloads => Sys2Proof.Machine.execCmdFrame opcode payloads s
  | .replyFrame confirm payloads => Sys2Proof.Machine.execReplyFrame confirm payloads s
  | .paramU16 value => Sys2Proof.Machine.execParamU16 value s
  | .setNet count => Sys2Proof.Machine.execSetNet count s
  | .setNetReply => Sys2Proof.Machine.execSetNetReply s
  | .getConnStatus count => Sys2Proof.Machine.execGetConnStatus count s
  | .getConnStatusReply => Sys2Proof.Machine.execGetConnStatusReply s

end Sys2Proof.Machine
end

