-- ==== Sys2Proof/Machine/OperationPort.lean ====
section
/-! DEFINITION. How a request is taken from the operation port (10_state.md R19, 20_memory.md R48,
43_command_driver.md R140): FCLA has no program counter (10_state.md R12), the oldest waiting request stands in the
place of the instruction at it. -/

namespace Sys2Proof.Machine

/-- The request the port presents: the oldest one, or `op_sel = 0x0` where none waits (30_encoding.md R68). -/
def fetch (s : State) : Request :=
  match s.port with
  | r :: _ => r
  | [] => ⟨s.level, .opSel { opSel := 0x0#4 }⟩

/-- Take the request off the port: the next one moves up, and the operation runs at the requester's level. -/
def accept (s : State) : State := { s with port := s.port.tail, level := (fetch s).level }

/-- While FCLA is busy nothing is taken from the port (20_memory.md R48, 43_command_driver.md R140): a request presented
then is neither refused nor dropped, it is held until FCLA is idle (92_eei_decisions.md D31; log 6). -/
def waits (s : State) : Bool := busy s

/-- Put a request at the head of the port. -/
def presentRequest (r : Request) (s : State) : State := { s with port := r :: s.port }

end Sys2Proof.Machine
end

