-- ==== Sys2Proof/Machine/Step.lean ====
section
/-! DEFINITION. One step: the oldest request on the operation port is decoded and executed. -/

namespace Sys2Proof.Machine

/-- One operation (92_eei_decisions.md D1): while FCLA is busy the request is held on the port; otherwise it is decoded,
taken and executed. -/
def step (s : State) : Host.Outcome State Fault Refusal :=
  if waits s then .next s
  else
    match decode (fetch s).form with
    | .ok i => exec i (accept s)
    | .error e => .refused (.undecodable e)

/-- The state in which the next request is a word of spec/opcode_table.json, asked for at driver level, the level at
which no operation is refused for its requester (log 7, 8). -/
def State.withFetchWord (s : State) (nbits w : Nat) : State :=
  presentRequest ⟨.driver, tableForm nbits w⟩ s

end Sys2Proof.Machine
end

