-- ==== Sys2Proof/Safety.lean ====
section
/-! DEFINITION. The terms in which claims about FCLA are stated: the invariants of 10_state.md R23, the state a driver
operation leaves, the shapes of traces (43_command_driver.md R139), and what a reply leaves in the buffers. -/

namespace Sys2Proof.Safety

open Sys2Proof.Machine

/-! ### Invariants -/

/-- 10_state.md R23 (a): an open frame has parameters left, and the three header bytes are sent. The bound on
`TX_COUNT` is what 30_encoding.md R61 gives for the parameters already written. -/
abbrev encoderOk (s : State) : Prop :=
  s.encState = .open → 1 ≤ s.encRemaining.toNat ∧ 3 ≤ s.txCount.toNat ∧
    s.txCount.toNat ≤ 3 + (255 - s.encRemaining.toNat) * 256

/-- 10_state.md R23 (b): parameters are left exactly while the decoder stands before one. -/
abbrev decoderOk (s : State) : Prop :=
  (s.decState = .params → 1 ≤ s.decRemaining.toNat) ∧ (s.decState = .atEnd → s.decRemaining = 0x00#8)

/-- 10_state.md R23 (c): a frame is open only on a selected link. -/
abbrev linkOk (s : State) : Prop := (s.encState = .open ∨ s.decState ≠ .idle) → s.sel = true

/-- The invariant of every state between two operations: 10_state.md R23 (a) to (c), no operation in progress, and
the buffers in canonical form. -/
abbrev invariant (s : State) : Prop :=
  encoderOk s ∧ decoderOk s ∧ linkOk s ∧ s.seqPhase = .idle ∧ s.closing = false ∧ s.txCount.toNat ≤ 65284 ∧
    s.mem.wf = true

/-- 10_state.md R23 (d), R24: link idle, both codec machines idle, no driver operation in progress. -/
abbrev atRest (s : State) : Prop :=
  s.sel = false ∧ s.encState = .idle ∧ s.decState = .idle ∧ s.seqPhase = .idle

/-- The value ranges of the counters (10_state.md R11). -/
abbrev countersInRange (s : State) : Prop :=
  s.acqCnt ≤ Config.hw.acqRetryMax ∧ s.startCnt ≤ Config.hw.startPollMax ∧ s.seqAttempt.toNat ≤ dataSentRetryMax

/-! ### Preconditions, by operation -/

/-- ENC_HEADER, ENCODE_COMMAND (40_frame_encoder.md R81, R87): asked at driver level on a selected link, no frame
open. -/
abbrev headerReady (s : State) : Prop := s.level = .driver ∧ s.sel = true ∧ s.encState = .idle

/-- ENC_PARAM, ENC_PARAM_U16 (40_frame_encoder.md R82): asked at driver level on a selected link, a frame open. -/
abbrev recordReady (s : State) : Prop := s.level = .driver ∧ s.sel = true ∧ s.encState = .open

/-- PAD_TO_WORD, ENC_END (40_frame_encoder.md R84, R85): asked inside the closing sequence, on a selected link. -/
abbrev closingReady (s : State) : Prop := s.level = .driver ∧ s.closing = true ∧ s.sel = true

/-- A decoder operation (41_frame_decoder.md R101, R104, R106): asked at driver level on a selected link, the decoder
at `pos`. -/
abbrev decoderReady (pos : DecState) (s : State) : Prop := s.level = .driver ∧ s.sel = true ∧ s.decState = pos

/-! ### Traces -/

/-- A successful ACQUIRE whose first `a` samples read not-ready (42_link_arbiter.md R121). -/
def acquired (a : Nat) : List Event :=
  [.sel true] ++ (List.replicate a [Event.rdy false, .yielded .poll]).flatten ++ [.rdy true]

/-- An ACQUIRE that times out after `n` samples, `n` at least 1 (42_link_arbiter.md R121). -/
def timedOut (n : Nat) : List Event :=
  [.sel true] ++ (List.replicate (n - 1) [Event.rdy false, .yielded .poll]).flatten ++ [.rdy false, .sel false]

/-- The command phase and the turnaround (43_command_driver.md R139), the first ACQUIRE ready after `a` samples. -/
def commandSent (a : Nat) (frame : List Byte) : List Event :=
  acquired a ++ frame.map .tx ++ [.sel false, .yielded .turnaround]

/-- A reply phase that received `bytes`, its ACQUIRE ready after `b` samples, up to but without the deselect
(43_command_driver.md R139). -/
def replyReceived (b : Nat) (bytes : List Byte) : List Event := acquired b ++ bytes.map .rx

/-- The level of the select line after events that start with it at `v` (10_state.md R13). -/
def lineAfter (v : Bool) : List Event → Bool
  | [] => v
  | .sel w :: rest => lineAfter w rest
  | _ :: rest => lineAfter v rest

/-- Select and deselect alternate, redundant deselects left out (42_link_arbiter.md R123): the line is never selected
while it is selected. `v` is its level before the events. -/
def selectsAlternate (v : Bool) : List Event → Bool
  | [] => true
  | .sel w :: rest => !(v && w) && selectsAlternate w rest
  | _ :: rest => selectsAlternate v rest

/-- Bytes move and ready is sampled only while the link is selected (70_reset_and_hazards.md R196; 20_memory.md
R35): `v` is the line's level before the events. -/
def onlySelected (v : Bool) : List Event → Bool
  | [] => true
  | .sel w :: rest => onlySelected w rest
  | .tx _ :: rest => v && onlySelected v rest
  | .rx _ :: rest => v && onlySelected v rest
  | .rdy _ :: rest => v && onlySelected v rest
  | .yielded _ :: rest => onlySelected v rest

/-- No phase both sends and receives (20_memory.md R46): `sent` and `received` say what the current phase has done,
and a select edge begins a new phase. -/
def halfDuplex (sent received : Bool) : List Event → Bool
  | [] => true
  | .sel _ :: rest => halfDuplex false false rest
  | .tx _ :: rest => !received && halfDuplex true received rest
  | .rx _ :: rest => !sent && halfDuplex sent true rest
  | .rdy _ :: rest => halfDuplex sent received rest
  | .yielded _ :: rest => halfDuplex sent received rest

/-- Phases alternate, command phases first; a command phase only sends and a reply phase only receives (20_memory.md
R46, 43_command_driver.md R139). A `sel 1` begins the next phase; `command` says whether the current one, or the last
one, is a command phase. -/
def phasesDirected (command : Bool) : List Event → Bool
  | [] => true
  | .sel v :: rest => phasesDirected (if v then !command else command) rest
  | .tx _ :: rest => command && phasesDirected command rest
  | .rx _ :: rest => !command && phasesDirected command rest
  | .rdy _ :: rest => phasesDirected command rest
  | .yielded _ :: rest => phasesDirected command rest

/-! ### Replies -/

/-- A payload written at index `i` of a buffer and on, in ascending order (20_memory.md R34). -/
def deliverFrom (dst : Handle) : Nat → List Byte → Memory → Memory
  | _, [], m => m
  | i, b :: rest, m => deliverFrom dst (i + 1) rest (memWrite m (cellAddr dst i) b)

/-- The payloads of a reply written to the destinations, in order (43_command_driver.md R135). -/
def deliver : List Dst → List (List Byte) → Memory → Memory
  | d :: dsts, payload :: payloads, m => deliver dsts payloads (deliverFrom d.dst 0 payload m)
  | _, _, m => m

/-- Each payload fits its destination (41_frame_decoder.md R105) and a LEN byte (30_encoding.md R55). -/
abbrev payloadsFitDsts (dsts : List Dst) (payloads : List (List Byte)) : Prop :=
  dsts.length = payloads.length ∧ (∀ b ∈ payloads, b.length ≤ 255) ∧
    ∀ x ∈ dsts.zip payloads, x.2.length ≤ x.1.cap

/-- The LEN bytes of payloads. -/
def lengthsOf (payloads : List (List Byte)) : List Byte := payloads.map fun b => BitVec.ofNat 8 b.length

/-- The bytes of a reply phase up to and with the count byte: bytes that are not START, START, the confirmation,
the count (41_frame_decoder.md R101). -/
def replyHead (pre : List Byte) (opcode count : Byte) : List Byte :=
  pre ++ [Config.hw.startByte, confirmByte Config.hw opcode, count]

/-- The bytes before START in a reply phase: none of them START, and fewer than the polling budget
(41_frame_decoder.md R102). -/
abbrev strayBytes (pre : List Byte) : Prop :=
  Config.hw.startByte ∉ pre ∧ pre.length < Config.hw.startPollMax

/-! ### Exchanges and attempts -/

/-- `i` asks for one exchange (43_command_driver.md R136, R137): EXECUTE of `opcode` and `params`, or EXECUTE_VARIABLE of
`opcode`, whose command has no parameters. `e` is the count EXECUTE expects and the bound of EXECUTE_VARIABLE. -/
abbrev exchangeRequest (i : Instr) (opcode : Byte) (params : List Param) (e : Byte) (dsts : List Dst) : Prop :=
  i = .execute opcode params e dsts ∨ (i = .executeVariable opcode e dsts ∧ params = [])

/-- The count test of `i` passes `n` (43_command_driver.md R136, R137): EXECUTE wants `e` itself, EXECUTE_VARIABLE no
more than `e`. -/
abbrev countPasses (i : Instr) (opcode e n : Byte) (dsts : List Dst) : Prop :=
  if i = .executeVariable opcode e dsts then n.toNat ≤ e.toNat else n = e

/-- What a peer does in one attempt of POLL_DATA_SENT that meets no error (43_command_driver.md R138, R139). -/
structure PollAttempt where
  /-- The not-ready samples of the first ACQUIRE. -/
  first : Nat
  /-- The not-ready samples of the second ACQUIRE. -/
  second : Nat
  /-- The bytes before START. -/
  stray : List Byte
  /-- The payload of the one parameter of the reply. -/
  status : List Byte
deriving DecidableEq, Repr

/-- Ready within the budget in both ACQUIREs, START within the polling budget (42_link_arbiter.md R121,
41_frame_decoder.md R102). -/
abbrev PollAttempt.conforms (x : PollAttempt) : Prop :=
  x.first < Config.hw.acqRetryMax ∧ x.second < Config.hw.acqRetryMax ∧ strayBytes x.stray

/-- The status is not true: the one byte zero, or no byte at all (43_command_driver.md R138, 95_test_vectors.md X12). -/
abbrev PollAttempt.notTrue (x : PollAttempt) : Prop := x.status = [0x00#8] ∨ x.status = []

/-- The ready samples the attempt takes. -/
def PollAttempt.samples (x : PollAttempt) : List Bool :=
  List.replicate x.first false ++ true :: (List.replicate x.second false ++ [true])

/-- The bytes the attempt receives. -/
def PollAttempt.bytes (opcode : Byte) (x : PollAttempt) : List Byte :=
  x.stray ++ replyFrameBytes Config.hw (opcode ||| Config.hw.replyMarker) [x.status]

/-- The events of the attempt (43_command_driver.md R139). -/
def PollAttempt.events (opcode : Byte) (frame : List Byte) (x : PollAttempt) : List Event :=
  commandSent x.first frame ++ replyReceived x.second (x.bytes opcode) ++ [.sel false]

/-- The frame decoder's three operations in a row on one reply (41_frame_decoder.md R107): header, one parameter for
each announced, terminator. -/
def decodeWhole (expected : Byte) (dsts : List Dst) (s : State) : Run Byte :=
  andThen (readHeader Config.hw expected s) fun n s =>
  andThen (readParameters (dstsFor n dsts) 0 s) fun _ s =>
  andThen (readEnd Config.hw s) fun _ s => (s, .ok n)

/-! ### What an instruction may write -/

/-- The destinations an instruction names. -/
def destinations : Instr → List Dst
  | .decodeParameter dst cap => [⟨dst, cap⟩]
  | .execute _ _ _ dsts => dsts
  | .executeVariable _ _ dsts => dsts
  | .pollDataSent _ _ dst => statusDst dst
  | .noOperation => []
  | .encHeader _ _ => []
  | .encParam _ _ _ => []
  | .encParamU16 _ _ => []
  | .padToWord _ => []
  | .encEnd => []
  | .encodeCommand _ _ _ => []
  | .decodeReplyHeader _ => []
  | .decodeEnd => []
  | .acquire => []
  | .release => []
  | .reserved => []
  | .cmdFrame _ _ => []
  | .replyFrame _ _ => []
  | .paramU16 _ => []
  | .setNet _ => []
  | .setNetReply => []
  | .getConnStatus _ => []
  | .getConnStatusReply => []

/-- The cells of a destination: its bytes below its capacity, and below 255, which is as far as a LEN byte reaches
(20_memory.md R34, R42). -/
abbrev inDestination (d : Dst) (a : Nat) : Prop := ∃ i, i < d.cap ∧ i < 255 ∧ a = cellAddr d.dst i

/-- The primitives, `op_sel` 0x1 to 0xB (60_exceptions.md R171). -/
def isPrimitive : Instr → Bool
  | .encHeader _ _ => true
  | .encParam _ _ _ => true
  | .encParamU16 _ _ => true
  | .padToWord _ => true
  | .encEnd => true
  | .encodeCommand _ _ _ => true
  | .decodeReplyHeader _ => true
  | .decodeParameter _ _ => true
  | .decodeEnd => true
  | .acquire => true
  | .release => true
  | .noOperation => false
  | .execute _ _ _ _ => false
  | .executeVariable _ _ _ => false
  | .pollDataSent _ _ _ => false
  | .reserved => false
  | .cmdFrame _ _ => false
  | .replyFrame _ _ => false
  | .paramU16 _ => false
  | .setNet _ => false
  | .setNetReply => false
  | .getConnStatus _ => false
  | .getConnStatusReply => false

/-- The driver operations, `op_sel` 0xC to 0xE (30_encoding.md R66). -/
def isDriverOperation : Instr → Bool
  | .execute _ _ _ _ => true
  | .executeVariable _ _ _ => true
  | .pollDataSent _ _ _ => true
  | .noOperation => false
  | .encHeader _ _ => false
  | .encParam _ _ _ => false
  | .encParamU16 _ _ => false
  | .padToWord _ => false
  | .encEnd => false
  | .encodeCommand _ _ _ => false
  | .decodeReplyHeader _ => false
  | .decodeParameter _ _ => false
  | .decodeEnd => false
  | .acquire => false
  | .release => false
  | .reserved => false
  | .cmdFrame _ _ => false
  | .replyFrame _ _ => false
  | .paramU16 _ => false
  | .setNet _ => false
  | .setNetReply => false
  | .getConnStatus _ => false
  | .getConnStatusReply => false

/-- The encoder's operations and RELEASE, which can return only OK (60_exceptions.md R160). -/
def returnsOnlyOk : Instr → Bool
  | .encHeader _ _ => true
  | .encParam _ _ _ => true
  | .encParamU16 _ _ => true
  | .padToWord _ => true
  | .encEnd => true
  | .encodeCommand _ _ _ => true
  | .release => true
  | .decodeReplyHeader _ => false
  | .decodeParameter _ _ => false
  | .decodeEnd => false
  | .acquire => false
  | .noOperation => false
  | .execute _ _ _ _ => false
  | .executeVariable _ _ _ => false
  | .pollDataSent _ _ _ => false
  | .reserved => false
  | .cmdFrame _ _ => false
  | .replyFrame _ _ => false
  | .paramU16 _ => false
  | .setNet _ => false
  | .setNetReply => false
  | .getConnStatus _ => false
  | .getConnStatusReply => false

/-- The same state but for the registers that 10_state.md R24 leaves unspecified after reset. -/
def withRegisters (s : State) (acqCnt : Nat) (encRemaining : Byte) (txCount : Half) (decRemaining : Byte)
    (startCnt : Nat) (seqAttempt : BitVec 5) (seqExpected : Byte) : State :=
  { s with acqCnt, encRemaining, txCount, decRemaining, startCnt, seqAttempt, seqExpected }

end Sys2Proof.Safety
end

