-- ==== Sys2Proof/Certificates/Slice0/Obligations.lean ====
section
/-! DEFINITION. The statements for the provers. Each docstring names the rule of spec/ it formalises. All statements
about the machine hold for every value of the open parameters (00_scope.md R7), since `Config.hw` is built of opaque
constants. -/

open Sys2Proof Sys2Proof.Machine Sys2Proof.Safety

/-! ### Encodings -/

/-- Decoding an encoded well-formed instruction gives it back, for all 23 rows and under every value of the
parameters, the two filler positions among them (30_encoding.md R51, R52, R56, R59, R63, R66, R67). -/
def Obligations.DecodeOfEncodeIsIdentity : Prop :=
  ∀ (p : Params) (i : Instr), i.wellFormed = true → decodeWith p (encodeWith p i) = .ok i

/-- 40_frame_encoder.md R90: the round-trip law, with the two big-endian bytes a 16-bit numeric comes back as. -/
def Obligations.ParseCommandInvertsEncodeFrame : Prop :=
  (∀ (p : Params) (opcode : Byte) (m : Memory) (params : List Param), params.length ≤ 255 →
    parseCommand p (encodeFrame p opcode (params.map (paramBytes m))) = .ok (opcode, params.map (paramBytes m))) ∧
  (∀ (m : Memory) (v : Half), paramBytes m (.u16 v) = [v.extractLsb' 8 8, v.extractLsb' 0 8])

/-- 30_encoding.md R71, R62: `ParseCommand` answers for the byte sequences that are command frames and for no other:
START, the records announced, and then exactly as many filler bytes as the length asks for, of any value, with END where
`PAD_POSITION` puts it. The decoder answers for those alone (95_test_vectors.md E20), and for a reply frame, a 16-bit
record and an opcode byte only for the form that encodes a well-formed instruction (R52, R56, R59, R63); a step taken
while FCLA is not busy refuses a request whose form it does not answer for. That a form with no meaning is refused is the model's choice (log 12). -/
def Obligations.OnlyTheFormatsDecode : Prop :=
  (∀ (p : Params) (bytes : List Byte) (opcode : Byte) (payloads : List (List Byte)),
    parseCommand p bytes = .ok (opcode, payloads) ↔
      payloadsFit payloads = true ∧
      let body := frameBody p opcode payloads
      ∃ filler : List Byte, filler.length = (4 - (body.length + 1) % 4) % 4 ∧
        bytes = body ++ (match p.padPosition with
          | .beforeEnd => filler ++ [p.endByte]
          | .afterEnd => p.endByte :: filler)) ∧
  (∀ (p : Params) (bytes : List Byte) (i : Instr),
    decodeWith p (.commandFrame bytes) = .ok i ↔
      ∃ opcode payloads, i = .cmdFrame opcode payloads ∧ parseCommand p bytes = .ok (opcode, payloads)) ∧
  (∀ (p : Params) (f : Form) (i : Instr), (∀ port, f ≠ .opSel port) → (∀ bytes, f ≠ .commandFrame bytes) →
    decodeWith p f = .ok i → i.wellFormed = true ∧ f = encodeWith p i) ∧
  (∀ (s : State) (r : Request) (rest : List Request) (e : DecodeError), s.port = r :: rest →
    s.seqPhase = .idle → decode r.form = .error e → step s = .refused (.undecodable e))

/-- 30_encoding.md R61: the lengths of frames, with their least and greatest values. -/
def Obligations.FrameLengths : Prop :=
  (∀ (p : Params) (opcode : Byte) (payloads : List (List Byte)), payloadsFit payloads = true →
    let bodyLen := 3 + payloads.length + (payloads.map List.length).sum
    (frameBody p opcode payloads).length = bodyLen ∧
    (encodeFrame p opcode payloads).length = bodyLen + fillerCount (bodyLen + 1) + 1 ∧
    (encodeFrame p opcode payloads).length % 4 = 0 ∧
    (replyFrameBytes p opcode payloads).length = bodyLen + 1 ∧
    4 ≤ (encodeFrame p opcode payloads).length ∧ (encodeFrame p opcode payloads).length ≤ 65284 ∧
    4 ≤ (replyFrameBytes p opcode payloads).length ∧ (replyFrameBytes p opcode payloads).length ≤ 65284) ∧
  (∀ (p : Params) (opcode : Byte),
    (encodeFrame p opcode []).length = 4 ∧ (replyFrameBytes p opcode []).length = 4) ∧
  (∀ (p : Params) (opcode : Byte) (payloads : List (List Byte)), payloads.length = 255 →
    (∀ b ∈ payloads, b.length = 255) →
    (encodeFrame p opcode payloads).length = 65284 ∧ (replyFrameBytes p opcode payloads).length = 65284)

/-- Words written out from 30_encoding.md R66, R63, R59, R51, R52 and R56 decode to the instructions they stand for. -/
def Obligations.SampleWordsDecode : Prop :=
  decodeTableWord 8 0x1 = some (.encHeader 0x00#8 0x00#8) ∧
  decodeTableWord 8 0x7 = some (.decodeReplyHeader 0x00#8) ∧
  decodeTableWord 8 0xA = some .acquire ∧
  decodeTableWord 8 0xE = some (.pollDataSent 0x00#8 [] 0) ∧
  decodeTableWord 8 0x10 = some (.setNet 0x00#8) ∧
  decodeTableWord 24 0x021F90 = some (.paramU16 0x1F90#16) ∧
  decode (.commandFrame [Config.startByte, 0x20#8, 0x00#8, Config.endByte]) = .ok (.cmdFrame 0x20#8 []) ∧
  decode (.replyFrame [Config.startByte, 0xA0#8, 0x01#8, 0x01#8, 0x03#8, Config.endByte])
    = .ok (.replyFrame 0xA0#8 [[0x03#8]]) ∧
  decode (.replyOpcode 0x20#8 (0x20#8 ||| Config.replyMarker)) = .ok .getConnStatusReply

/-- 00_scope.md R8 (a), (b): the reply marker is not zero and changes 0x20; and the two budgets of R7 are at least 1. -/
def Obligations.ParametersMeetTheirConstraints : Prop := Config.hw.valid

/-! ### The operation port and the step -/

/-- A step runs the decoded instruction: taken off the port, at the requester's level, when FCLA is not busy
(20_memory.md R48, 43_command_driver.md R140). The queue (log 7), one operation as one step (log 6) and the level in
State (log 8) are the model's choices. -/
def Obligations.StepRunsTheDecodedInstruction : Prop :=
  ∀ (s : State) (r : Request) (rest : List Request) (i : Instr),
    s.port = r :: rest → decode r.form = .ok i → i.wellFormed = true → s.seqPhase = .idle →
    step s = exec i { s with port := rest, level := r.level }

/-- After 20_memory.md R48 and 43_command_driver.md R140: an operation, a driver operation or any other, is taken from the
operation port only when FCLA is not busy; a request presented while it is busy is not refused and not dropped, whatever
it asks for. That the port is a queue (log 7), that a busy state answers itself, with the request where it was (log 6),
and that this holds for requests that are no operation, too (log 22), are the model's choices. No step of the model goes
on from a busy state, and none leads to one: an operation is one step. -/
def Obligations.DriverRequestsWaitWhileBusy : Prop :=
  ∀ (s : State) (r : Request) (rest : List Request), s.port = r :: rest →
    (s.seqPhase ≠ .idle → step s = .next s ∧
      ∀ i, decode r.form = .ok i → isDriverOperation i = true → exec i s = .next s) ∧
    (s.seqPhase = .idle → ∀ i, decode r.form = .ok i → step s = exec i { s with port := rest, level := r.level })

/-- 30_encoding.md R68: `op_sel` 0x0 changes no state and makes no event; 0xF is refused. -/
def Obligations.NoneAndReservedCodes : Prop :=
  ∀ s : State, exec .noOperation s = .next s ∧ exec .reserved s = .refused .reservedOpSel

/-- After 60_exceptions.md R171: a primitive requested from the client level is refused, with every operand and in
every state; the client level may request the driver operations. That the driver level may request them too is the
model's choice (log 8): R171 gives that level the primitives. -/
def Obligations.OnlyDriverOperationsAtClientLevel : Prop :=
  ∀ (i : Instr) (s : State),
    (isPrimitive i = true → s.level = .client → exec i s = .refused .primitiveAtClientLevel) ∧
    (isDriverOperation i = true → exec i s ≠ .refused .primitiveAtClientLevel)

/-- 70_reset_and_hazards.md R196: every codec primitive is refused on a deselected link, at either level; and a
deselected link becomes selected by an ACQUIRE that returned OK and by nothing else. -/
def Obligations.CodecRefusedOnDeselectedLink : Prop :=
  (∀ (i : Instr) (s : State), isPrimitive i = true → i ≠ .acquire → i ≠ .release → s.sel = false →
    ∃ r, exec i s = .refused r) ∧
  (∀ (i : Instr) (s t : State), s.sel = false → exec i s = .next t → t.sel = true →
    i = .acquire ∧ t.result = some .done)

/-- After 70_reset_and_hazards.md R197: operations of one frame come in frame order; a request in another position
state than the one the operation names, or a parameter whose `last` mark disagrees with the count, is refused. That
the flag `closing` says where PAD_TO_WORD and ENC_END may run is the model's (log 9; 40_frame_encoder.md R84, R85), and
so is which refusal is named where several preconditions fail (log 10). -/
def Obligations.OperationsOutOfFrameOrderRefused : Prop :=
  ∀ s : State, s.level = .driver → s.sel = true →
    (s.encState = .open → ∀ opcode count params flags,
      exec (.encHeader opcode count) s = .refused .encoderNotIdle ∧
      exec (.encodeCommand opcode params flags) s = .refused .encoderNotIdle) ∧
    (s.encState = .idle → ∀ buf len last value,
      exec (.encParam buf len last) s = .refused .encoderNotOpen ∧
      exec (.encParamU16 value last) s = .refused .encoderNotOpen) ∧
    (s.encState = .open → ∀ buf len last value, ¬(last = true ↔ s.encRemaining = 0x01#8) →
      exec (.encParam buf len last) s = .refused .lastDisagrees ∧
      exec (.encParamU16 value last) s = .refused .lastDisagrees) ∧
    (s.decState ≠ .idle → ∀ expected, exec (.decodeReplyHeader expected) s = .refused .decoderNotIdle) ∧
    (s.decState ≠ .params → ∀ dst cap, exec (.decodeParameter dst cap) s = .refused .decoderNotInParams) ∧
    (s.decState ≠ .atEnd → exec .decodeEnd s = .refused .decoderNotAtEnd) ∧
    (s.closing = false → ∀ total,
      exec (.padToWord total) s = .refused .outsideClosing ∧ exec .encEnd s = .refused .outsideClosing)

/-- The rows of the wire formats that run a primitive are refused where that primitive is: at client level, on a
deselected link, out of frame order. That they run a primitive is the model's choice (log 10). -/
def Obligations.WireRowsRefusedAsTheirPrimitives : Prop :=
  ∀ (s : State) (opcode count : Byte) (payloads : List (List Byte)) (value : Half),
    (s.level = .client → ∀ i ∈ [Instr.cmdFrame opcode payloads, .paramU16 value, .setNet count, .getConnStatus count,
        .setNetReply, .getConnStatusReply], exec i s = .refused .primitiveAtClientLevel) ∧
    (s.level = .driver → s.sel = false → ∀ i ∈ [Instr.cmdFrame opcode payloads, .paramU16 value, .setNet count,
        .getConnStatus count, .setNetReply, .getConnStatusReply], exec i s = .refused .linkNotSelected) ∧
    (s.level = .driver → s.sel = true → s.encState = .open →
      ∀ i ∈ [Instr.cmdFrame opcode payloads, .setNet count, .getConnStatus count],
        exec i s = .refused .encoderNotIdle) ∧
    (s.level = .driver → s.sel = true → s.encState = .idle → exec (.paramU16 value) s = .refused .encoderNotOpen) ∧
    (s.level = .driver → s.sel = true → s.decState ≠ .idle →
      ∀ i ∈ [Instr.setNetReply, .getConnStatusReply], exec i s = .refused .decoderNotIdle)

/-- A driver operation that would begin on a selected link, or with a frame of the client's own primitives still
open, is refused: its first step is an ACQUIRE (42_link_arbiter.md R121; 93_implementation_defined.md U4). No such
state is reached at client level (10_state.md R23 d). That the whole operation is refused, and not begun, is the
model's choice (log 18). -/
def Obligations.DriverOperationsNeedTheLinkAtRest : Prop :=
  ∀ (i : Instr) (s : State), isDriverOperation i = true → s.seqPhase = .idle →
    (s.sel = true → exec i s = .refused .linkSelected) ∧
    (s.sel = false → s.encState = .open → exec i s = .refused .encoderNotIdle) ∧
    (s.sel = false → s.encState = .idle → s.decState ≠ .idle → exec i s = .refused .decoderNotIdle)

/-- 93_implementation_defined.md U1, U7, U9: operands the formats cannot carry, marks that disagree with the
parameter list, and source buffers shorter than the length given with them are refused, by each operation that takes
such operands. Where the lengths of buffers stand is the model's choice (log 5), and so is which refusal is named where
several preconditions fail (log 10). -/
def Obligations.UnrepresentableOperandsRefused : Prop :=
  ∀ (s : State) (opcode : Byte) (params : List Param) (flags : List Bool) (e : Byte) (dsts : List Dst)
    (dst : Handle) (payloads : List (List Byte)) (buf : Handle) (len : Byte) (last : Bool) (size : Nat),
    (recordReady s → (last = true ↔ s.encRemaining = 0x01#8) → bufferLength s.sizes buf = some size →
      size < len.toNat → exec (.encParam buf len last) s = .refused .sourceTooShort) ∧
    (headerReady s → params.length ≤ 255 → sourcesHold s.sizes params = false →
      exec (.encodeCommand opcode params (terminalFlags params.length)) s = .refused .sourceTooShort) ∧
    (headerReady s → 255 < params.length → exec (.encodeCommand opcode params flags) s = .refused .tooManyParams) ∧
    (headerReady s → params.length ≤ 255 → flags ≠ terminalFlags params.length →
      exec (.encodeCommand opcode params flags) s = .refused .flagsDisagree) ∧
    (headerReady s → payloadsFit payloads = false → exec (.cmdFrame opcode payloads) s = .refused .frameTooLarge) ∧
    (payloadsFit payloads = false → exec (.replyFrame opcode payloads) s = .refused .frameTooLarge) ∧
    (atRest s → 255 < params.length →
      exec (.execute opcode params e dsts) s = .refused .tooManyParams ∧
      exec (.pollDataSent opcode params dst) s = .refused .tooManyParams) ∧
    (atRest s → params.length ≤ 255 → dsts.length ≠ e.toNat →
      exec (.execute opcode params e dsts) s = .refused .dstCountDisagrees) ∧
    (atRest s → dsts.length ≠ e.toNat →
      exec (.executeVariable opcode e dsts) s = .refused .dstCountDisagrees) ∧
    (atRest s → params.length ≤ 255 → dsts.length = e.toNat → sourcesHold s.sizes params = false →
      exec (.execute opcode params e dsts) s = .refused .sourceTooShort ∧
      exec (.pollDataSent opcode params dst) s = .refused .sourceTooShort)

/-! ### The frame encoder -/

/-- 40_frame_encoder.md R81: ENC_HEADER with a non-zero count writes START, OPCODE and PARAM_COUNT and opens the
frame; with a zero count it writes the whole 4-byte frame; without a selected link and an idle encoder it is refused.
Nothing else changes but the result port and the model's `closing`. -/
def Obligations.HeaderWritesThreeBytesOrTheEmptyFrame : Prop :=
  ∀ (s : State) (opcode count : Byte),
    (headerReady s → count ≠ 0x00#8 → exec (.encHeader opcode count) s = .next { s with
      trace := s.trace ++ [.tx Config.startByte, .tx opcode, .tx count]
      txCount := 3#16, encRemaining := count, encState := .open, result := some .done }) ∧
    (headerReady s → count = 0x00#8 → exec (.encHeader opcode count) s = .next { s with
      trace := s.trace ++ [.tx Config.startByte, .tx opcode, .tx 0x00#8, .tx Config.endByte]
      txCount := 4#16, encRemaining := 0x00#8, encState := .idle, closing := false, result := some .done }) ∧
    (¬(s.sel = true ∧ s.encState = .idle) → ∃ r, exec (.encHeader opcode count) s = .refused r)

/-- 30_encoding.md R63, R64: SET_NET and GET_CONN_STATUS put their OPCODE byte, 0x10 and 0x20, on the wire unchanged,
between START and PARAM_COUNT. That the row runs ENC_HEADER is the model's choice (log 10). -/
def Obligations.WireOpcodesOpenTheirFrames : Prop :=
  ∀ (s : State) (count : Byte), headerReady s →
    ∃ t u, exec (.setNet count) s = .next t ∧ exec (.getConnStatus count) s = .next u ∧
      (count ≠ 0x00#8 →
        t = { s with
          trace := s.trace ++ [.tx Config.startByte, .tx 0x10#8, .tx count]
          txCount := 3#16, encRemaining := count, encState := .open, result := some .done } ∧
        u = { s with
          trace := s.trace ++ [.tx Config.startByte, .tx 0x20#8, .tx count]
          txCount := 3#16, encRemaining := count, encState := .open, result := some .done }) ∧
      (count = 0x00#8 →
        t = { s with
          trace := s.trace ++ [.tx Config.startByte, .tx 0x10#8, .tx 0x00#8, .tx Config.endByte]
          txCount := 4#16, encRemaining := 0x00#8, encState := .idle, closing := false, result := some .done } ∧
        u = { s with
          trace := s.trace ++ [.tx Config.startByte, .tx 0x20#8, .tx 0x00#8, .tx Config.endByte]
          txCount := 4#16, encRemaining := 0x00#8, encState := .idle, closing := false, result := some .done })

/-- After 20_memory.md R33: the bytes of a source buffer are read in ascending order, `len` of them, and each that was
written is read as written. A byte that nothing has written is a free value (log 5). -/
def Obligations.SourceBytesAreReadInOrder : Prop :=
  ∀ (m : Memory) (buf : Handle) (len : Byte),
    (readBuffer m buf len).length = len.toNat ∧
    ∀ i v, i < len.toNat → memRead? m (cellAddr buf i) = some v → (readBuffer m buf len)[i]? = some v

/-- 40_frame_encoder.md R82: ENC_PARAM writes LEN and the payload in buffer order, counts `TX_COUNT` up and
`ENC_REMAINING` down, and changes nothing else but the result port; the last parameter then closes the frame: with
`B = TX_COUNT + 1 + LEN`, `p = (4 - ((B + 1) mod 4)) mod 4` filler bytes and END, leaving `TX_COUNT = B + p + 1` and
the encoder idle. Without its precondition it is refused. -/
def Obligations.ParameterWritesItsRecord : Prop :=
  ∀ (s : State) (buf : Handle) (len : Byte) (last : Bool),
    (recordReady s → bufferHolds s.sizes buf len = true → s.encRemaining ≠ 0x01#8 →
      exec (.encParam buf len false) s = .next { s with
        trace := s.trace ++ (len :: readBuffer s.mem buf len).map .tx
        txCount := s.txCount + 1#16 + len.setWidth 16
        encRemaining := s.encRemaining - 1#8, result := some .done }) ∧
    (recordReady s → bufferHolds s.sizes buf len = true → s.encRemaining = 0x01#8 → encoderOk s →
      let body := s.txCount.toNat + 1 + len.toNat
      let p := (4 - (body + 1) % 4) % 4
      exec (.encParam buf len true) s = .next { s with
        trace := s.trace ++ (len :: readBuffer s.mem buf len ++ List.replicate p Config.padByte
          ++ [Config.endByte]).map .tx
        txCount := BitVec.ofNat 16 (body + p + 1)
        encRemaining := 0x00#8, encState := .idle, closing := false, result := some .done }) ∧
    (¬(s.sel = true ∧ s.encState = .open ∧ (last = true ↔ s.encRemaining = 0x01#8)) →
      ∃ r, exec (.encParam buf len last) s = .refused r)

/-- 40_frame_encoder.md R83: ENC_PARAM_U16 writes `02 hi lo` and counts as ENC_PARAM does; the last one closes the
frame; without its precondition it is refused. -/
def Obligations.NumericParameterWritesItsRecord : Prop :=
  ∀ (s : State) (value : Half) (last : Bool),
    (recordReady s → s.encRemaining ≠ 0x01#8 →
      exec (.encParamU16 value false) s = .next { s with
        trace := s.trace ++ [.tx 0x02#8, .tx (value.extractLsb' 8 8), .tx (value.extractLsb' 0 8)]
        txCount := s.txCount + 3#16
        encRemaining := s.encRemaining - 1#8, result := some .done }) ∧
    (recordReady s → s.encRemaining = 0x01#8 → encoderOk s →
      let body := s.txCount.toNat + 3
      let p := (4 - (body + 1) % 4) % 4
      exec (.encParamU16 value true) s = .next { s with
        trace := s.trace ++ ([0x02#8, value.extractLsb' 8 8, value.extractLsb' 0 8]
          ++ List.replicate p Config.padByte ++ [Config.endByte]).map .tx
        txCount := BitVec.ofNat 16 (body + p + 1)
        encRemaining := 0x00#8, encState := .idle, closing := false, result := some .done }) ∧
    (¬(s.sel = true ∧ s.encState = .open ∧ (last = true ↔ s.encRemaining = 0x01#8)) →
      ∃ r, exec (.encParamU16 value last) s = .refused r)

/-- 30_encoding.md R59: the row PARAM_U16 puts the record `02 hi lo` on the wire as the next parameter of the open
frame, and closes the frame if it was the last one left. That the row runs ENC_PARAM_U16, with the only `last` mark it
accepts, is the model's choice (log 10). -/
def Obligations.WireNumericWritesItsRecord : Prop :=
  ∀ (s : State) (value : Half), recordReady s →
    (s.encRemaining ≠ 0x01#8 →
      exec (.paramU16 value) s = .next { s with
        trace := s.trace ++ [.tx 0x02#8, .tx (value.extractLsb' 8 8), .tx (value.extractLsb' 0 8)]
        txCount := s.txCount + 3#16
        encRemaining := s.encRemaining - 1#8, result := some .done }) ∧
    (s.encRemaining = 0x01#8 → encoderOk s →
      let body := s.txCount.toNat + 3
      let p := (4 - (body + 1) % 4) % 4
      exec (.paramU16 value) s = .next { s with
        trace := s.trace ++ ([0x02#8, value.extractLsb' 8 8, value.extractLsb' 0 8]
          ++ List.replicate p Config.padByte ++ [Config.endByte]).map .tx
        txCount := BitVec.ofNat 16 (body + p + 1)
        encRemaining := 0x00#8, encState := .idle, closing := false, result := some .done })

/-- 40_frame_encoder.md R86, for both positions of the filler: the closing sequence sends
`p = (4 - ((B + 1) mod 4)) mod 4` filler bytes and one END byte, END last or first, and leaves
`TX_COUNT = B + p + 1`, a multiple of 4, and the encoder idle. -/
def Obligations.ClosingSequenceEndsTheFrame : Prop :=
  ∀ (p : Params) (s : State), s.txCount.toNat + 4 < 65536 →
    let fill := (4 - (s.txCount.toNat + 1) % 4) % 4
    let t := closeFrame p s
    t = { s with
      trace := s.trace ++ (match p.padPosition with
        | .beforeEnd => List.replicate fill (.tx p.padByte) ++ [.tx p.endByte]
        | .afterEnd => .tx p.endByte :: List.replicate fill (.tx p.padByte))
      txCount := BitVec.ofNat 16 (s.txCount.toNat + fill + 1), encState := .idle, closing := false } ∧
    t.txCount.toNat = s.txCount.toNat + fill + 1 ∧ t.txCount.toNat % 4 = 0

/-- 40_frame_encoder.md R84: PAD_TO_WORD inside the closing sequence sends `(4 - (total mod 4)) mod 4` filler bytes
and counts them; outside it, or on a deselected link, it is refused. The model's `closing` says where it stands
(log 9). -/
def Obligations.PadToWordSendsFiller : Prop :=
  ∀ (s : State) (total : Half),
    (closingReady s →
      let p := (4 - total.toNat % 4) % 4
      exec (.padToWord total) s = .next { s with
        trace := s.trace ++ List.replicate p (.tx Config.padByte)
        txCount := s.txCount + BitVec.ofNat 16 p, result := some .done }) ∧
    (¬(s.closing = true ∧ s.sel = true) → ∃ r, exec (.padToWord total) s = .refused r)

/-- 40_frame_encoder.md R85: ENC_END inside the closing sequence sends END, counts it and leaves the encoder idle;
outside it, or on a deselected link, it is refused. -/
def Obligations.EncEndSendsEnd : Prop :=
  ∀ s : State,
    (closingReady s → exec .encEnd s = .next { s with
      trace := s.trace ++ [.tx Config.endByte]
      txCount := s.txCount + 1#16, encState := .idle, result := some .done }) ∧
    (¬(s.closing = true ∧ s.sel = true) → ∃ r, exec .encEnd s = .refused r)

/-- 40_frame_encoder.md R88: ENCODE_COMMAND sends exactly `EncodeFrame(opcode, params)`; and it leaves
`TX_COUNT` at the frame's length and the encoder idle (R87), and nothing else changed but the result port. -/
def Obligations.EncodeCommandSendsEncodeFrame : Prop :=
  ∀ (s : State) (opcode : Byte) (params : List Param), headerReady s → params.length ≤ 255 →
    sourcesHold s.sizes params = true →
    let frame := encodeFrame Config.hw opcode (params.map (paramBytes s.mem))
    exec (.encodeCommand opcode params (terminalFlags params.length)) s = .next { s with
      trace := s.trace ++ frame.map .tx
      txCount := BitVec.ofNat 16 frame.length
      encRemaining := 0x00#8, encState := .idle, closing := false, result := some .done }

/-- 30_encoding.md R51: the row CMD_FRAME puts the bytes of its layout on the wire in order, through the encoder.
That the row runs ENCODE_COMMAND is the model's choice (log 10). -/
def Obligations.CommandFrameIsSentAsLaidOut : Prop :=
  ∀ (s : State) (opcode : Byte) (payloads : List (List Byte)), headerReady s → payloadsFit payloads = true →
    let frame := encodeFrame Config.hw opcode payloads
    exec (.cmdFrame opcode payloads) s = .next { s with
      trace := s.trace ++ frame.map .tx
      txCount := BitVec.ofNat 16 frame.length
      encRemaining := 0x00#8, encState := .idle, closing := false, result := some .done }

/-! ### The frame decoder -/

/-- 41_frame_decoder.md R101, R102, R103: DECODE_REPLY_HEADER skips bytes that are not START, confirms the opcode in
all 8 bits, reads the count and takes the position it leads to. START in none of the first `START_POLL_MAX` bytes is a
Timeout after exactly those bytes; another byte than `expected | REPLY_MARKER` after START is a ProtocolMismatch, and
the count is not read. Without its precondition it is refused. -/
def Obligations.ReplyHeaderIsFoundConfirmedAndCounted : Prop :=
  ∀ (s : State) (expected n op : Byte) (pre rest : List Byte),
    (decoderReady .idle s → strayBytes pre → s.rxIn = replyHead pre expected n ++ rest →
      exec (.decodeReplyHeader expected) s = .next { s with
        trace := s.trace ++ (replyHead pre expected n).map .rx
        rxIn := rest
        startCnt := Config.hw.startPollMax - pre.length
        decRemaining := n
        decState := if n = 0x00#8 then .atEnd else .params
        result := some (.count n) }) ∧
    (decoderReady .idle s → Config.hw.startByte ∉ pre → pre.length = Config.hw.startPollMax → s.rxIn = pre ++ rest →
      exec (.decodeReplyHeader expected) s = .next { s with
        trace := s.trace ++ pre.map .rx
        rxIn := rest, startCnt := 0
        result := some (.error (.timeout .start)) }) ∧
    (decoderReady .idle s → strayBytes pre → s.rxIn = pre ++ [Config.hw.startByte, op] ++ rest →
      op ≠ expected ||| Config.hw.replyMarker →
      exec (.decodeReplyHeader expected) s = .next { s with
        trace := s.trace ++ (pre ++ [Config.hw.startByte, op]).map .rx
        rxIn := rest
        startCnt := Config.hw.startPollMax - pre.length
        result := some (.error (.protocolMismatch .opcode op (some (expected ||| Config.hw.replyMarker)))) }) ∧
    (¬(s.sel = true ∧ s.decState = .idle) → ∃ r, exec (.decodeReplyHeader expected) s = .refused r)

/-- 95_test_vectors.md S3 and 00_scope.md R8 (b): the opcode byte 0x20 without the marker never confirms
GET_CONN_STATUS; and the rows SET_NET.reply and GET_CONN_STATUS.reply decode the header of a reply confirmed as
`0x10 | REPLY_MARKER` and `0x20 | REPLY_MARKER` (30_encoding.md R63, R56). That the rows run DECODE_REPLY_HEADER is the
model's choice (log 10). -/
def Obligations.WireRepliesAreConfirmedByTheirMarker : Prop :=
  0x20#8 ≠ 0x20#8 ||| Config.hw.replyMarker ∧
  ∀ (s : State) (n op : Byte) (pre rest : List Byte), decoderReady .idle s → strayBytes pre →
    (∀ opcode i, (opcode = 0x10#8 ∧ i = Instr.setNetReply) ∨ (opcode = 0x20#8 ∧ i = Instr.getConnStatusReply) →
      (s.rxIn = replyHead pre opcode n ++ rest → exec i s = .next { s with
        trace := s.trace ++ (replyHead pre opcode n).map .rx
        rxIn := rest
        startCnt := Config.hw.startPollMax - pre.length
        decRemaining := n
        decState := if n = 0x00#8 then .atEnd else .params
        result := some (.count n) }) ∧
      (s.rxIn = pre ++ [Config.hw.startByte, op] ++ rest → op ≠ opcode ||| Config.hw.replyMarker →
        exec i s = .next { s with
        trace := s.trace ++ (pre ++ [Config.hw.startByte, op]).map .rx
        rxIn := rest
        startCnt := Config.hw.startPollMax - pre.length
        result := some (.error (.protocolMismatch .opcode op (some (opcode ||| Config.hw.replyMarker)))) }))

/-- 41_frame_decoder.md R104, R105: DECODE_PARAMETER reads LEN and LEN bytes into `dst[0 .. LEN-1]`, ascending, counts
`DEC_REMAINING` down and at zero goes to DEC_END; every other byte of memory reads as before. A LEN byte above the
capacity is a BufferOverflow raised on that byte alone: no byte of `dst` is written and no payload byte is consumed.
Without its precondition it is refused. -/
def Obligations.ParameterIsStoredOrOverflows : Prop :=
  ∀ (s : State) (dst : Handle) (cap : Nat) (len : Byte) (payload rest : List Byte),
    (decoderReady .params s → payload.length = len.toNat → len.toNat ≤ cap → s.rxIn = len :: payload ++ rest →
      ∃ m, exec (.decodeParameter dst cap) s = .next { s with
          mem := m
          trace := s.trace ++ (len :: payload).map .rx
          rxIn := rest
          decRemaining := s.decRemaining - 1#8
          decState := if s.decRemaining = 0x01#8 then .atEnd else .params
          result := some (.len len) } ∧
        (∀ i, i < len.toNat → memRead? m (cellAddr dst i) = payload[i]?) ∧
        (∀ a, (∀ i, i < len.toNat → a ≠ cellAddr dst i) → memRead? m a = memRead? s.mem a)) ∧
    (decoderReady .params s → cap < len.toNat → s.rxIn = len :: rest →
      exec (.decodeParameter dst cap) s = .next { s with
        trace := s.trace ++ [.rx len]
        rxIn := rest, decState := .idle
        result := some (.error (.bufferOverflow len cap none)) }) ∧
    (¬(s.sel = true ∧ s.decState = .params) → ∃ r, exec (.decodeParameter dst cap) s = .refused r)

/-- 41_frame_decoder.md R106: DECODE_END reads one byte, leaves the decoder idle, and raises ProtocolMismatch with
cause END where `CHECK_REPLY_END` holds and the byte is not END; without its precondition it is refused. The first
clause is the machine's, at the decided value true; the second any value's. -/
def Obligations.DecodeEndChecksTheTerminator : Prop :=
  ∀ (s : State) (b : Byte) (rest : List Byte),
    (decoderReady .atEnd s → s.rxIn = b :: rest →
      exec .decodeEnd s = .next { s with
        trace := s.trace ++ [.rx b]
        rxIn := rest, decState := .idle
        result := if b = Config.endByte then some .done
          else some (.error (.protocolMismatch .atEnd b (some Config.endByte))) }) ∧
    (∀ p : Params, decoderReady .atEnd s → s.rxIn = b :: rest →
      decodeEndWith p s = .next { s with
        trace := s.trace ++ [.rx b]
        rxIn := rest, decState := .idle
        result := if p.checkReplyEnd = true ∧ b ≠ p.endByte
          then some (.error (.protocolMismatch .atEnd b (some p.endByte))) else some .done }) ∧
    (¬(s.sel = true ∧ s.decState = .atEnd) → ∃ r, exec .decodeEnd s = .refused r)

/-- 41_frame_decoder.md R110: against every peer a decoder operation returns after a bounded number of received
bytes, and does nothing else on the link; decoding one reply takes at most `START_POLL_MAX + 2 + 255 * 256 + 1`. -/
def Obligations.DecoderOperationsTerminate : Prop :=
  (∀ (s : State) (expected : Byte), decoderReady .idle s → ∃ (t : State) (bs : List Byte),
    exec (.decodeReplyHeader expected) s = .next t ∧ t.trace = s.trace ++ bs.map .rx ∧
      bs.length ≤ Config.hw.startPollMax + 2 ∧ t.mem = s.mem ∧ t.sel = s.sel) ∧
  (∀ (s : State) (dst : Handle) (cap : Nat), decoderReady .params s → ∃ (t : State) (bs : List Byte),
    exec (.decodeParameter dst cap) s = .next t ∧ t.trace = s.trace ++ bs.map .rx ∧
      bs.length ≤ 256 ∧ t.sel = s.sel) ∧
  (∀ s : State, decoderReady .atEnd s → ∃ t b,
    exec .decodeEnd s = .next t ∧ t.trace = s.trace ++ [.rx b] ∧ t.mem = s.mem ∧ t.sel = s.sel) ∧
  (∀ (s : State) (expected : Byte) (dsts : List Dst), ∃ bs : List Byte,
    (decodeWhole expected dsts s).1.trace = s.trace ++ bs.map .rx ∧
      bs.length ≤ Config.hw.startPollMax + 2 + 255 * 256 + 1)

/-- 41_frame_decoder.md R107: the frame decoder's three operations in a row deliver what `ParseReply` says: the same
result, the same number of bytes consumed, and the delivered parameters in the destinations. -/
def Obligations.DecoderDeliversWhatParseReplySays : Prop :=
  ∀ (s : State) (expected : Byte) (dsts : List Dst) (bytes rest : List Byte) (r : ReplyOutcome),
    s.rxIn = bytes ++ rest → parseReply Config.hw expected (dsts.map Dst.cap) bytes = some r →
    (decodeWhole expected dsts s).2 = r.result ∧
    (decodeWhole expected dsts s).1.rxIn = bytes.drop r.consumed ++ rest ∧ r.consumed ≤ bytes.length ∧
    (decodeWhole expected dsts s).1.trace = s.trace ++ (bytes.take r.consumed).map .rx ∧
    (decodeWhole expected dsts s).1.mem = deliver dsts r.delivered s.mem

/-- 30_encoding.md R52: a reply frame is presented byte for byte in the order of its layout, after the bytes the peer
was already to present, and nothing else changes. That the row is the peer's act is the model's choice (log 11). -/
def Obligations.ReplyFrameIsPresentedAsLaidOut : Prop :=
  ∀ (s : State) (confirm : Byte) (payloads : List (List Byte)), payloadsFit payloads = true →
    exec (.replyFrame confirm payloads) s = .next { s with
      rxIn := s.rxIn ++ ([Config.startByte, confirm, BitVec.ofNat 8 payloads.length]
        ++ (payloads.map fun b => BitVec.ofNat 8 b.length :: b).flatten ++ [Config.endByte]) }

/-! ### The link arbiter -/

/-- 42_link_arbiter.md R121: ACQUIRE selects, samples ready with a yield between two samples, and leaves the link
selected at the first ready sample within the budget. A peer that is never ready exhausts the budget (95_test_vectors.md
S2): exactly `ACQ_RETRY_MAX` samples, one yield less, Timeout with cause READY, and the link ends deselected. While
selected it is refused. -/
def Obligations.AcquireWaitsForReadyWithinItsBudget : Prop :=
  ∀ (s : State) (a : Nat) (rest : List Bool),
    (s.level = .driver → s.sel = false → a < Config.hw.acqRetryMax →
      s.rdyIn = List.replicate a false ++ true :: rest →
      exec .acquire s = .next { s with
        sel := true, acqCnt := Config.hw.acqRetryMax - a
        rdyIn := rest, trace := s.trace ++ acquired a, result := some .done }) ∧
    (s.level = .driver → s.sel = false → s.rdyIn = List.replicate Config.hw.acqRetryMax false ++ rest →
      exec .acquire s = .next { s with
        sel := false, acqCnt := 0
        rdyIn := rest, trace := s.trace ++ timedOut Config.hw.acqRetryMax
        result := some (.error (.timeout .ready)) }) ∧
    (s.sel = true → ∃ r, exec .acquire s = .refused r)

/-- 42_link_arbiter.md R124: whatever the peer does, ACQUIRE returns after at most
`1 + ACQ_RETRY_MAX + (ACQ_RETRY_MAX - 1) + 1` events, selected with OK or deselected with Timeout; RELEASE performs
exactly one. -/
def Obligations.ArbiterTerminates : Prop :=
  (∀ s : State, s.level = .driver → s.sel = false → ∃ t events,
    exec .acquire s = .next t ∧ t.trace = s.trace ++ events ∧
      events.length ≤ 1 + Config.hw.acqRetryMax + (Config.hw.acqRetryMax - 1) + 1 ∧
      ((t.sel = true ∧ t.result = some .done) ∨
        (t.sel = false ∧ t.result = some (.error (.timeout .ready))))) ∧
  (∀ s : State, s.level = .driver → ∃ t e, exec .release s = .next t ∧ t.trace = s.trace ++ [e])

/-- 42_link_arbiter.md R122: RELEASE deselects from any state, leaves no frame open, and a second one changes
nothing but the trace. -/
def Obligations.ReleaseDeselectsFromAnyState : Prop :=
  ∀ s : State, s.level = .driver → ∃ t,
    t = { s with
      sel := false, encState := .idle, decState := .idle, closing := false
      trace := s.trace ++ [.sel false], result := some .done } ∧
    exec .release s = .next t ∧ exec .release t = .next { t with trace := t.trace ++ [.sel false] }

/-! ### The Command Driver -/

/-- 41_frame_decoder.md R109, 43_command_driver.md R136, R139: EXECUTE against a conforming peer, with capacities at
least the declared lengths and the expected count equal to the frame's, completes with OK and the decoded lengths,
has exactly the trace of a successful exchange, and leaves the parameters in the destinations. -/
def Obligations.ExecuteCompletesWithAConformingPeer : Prop :=
  ∀ (s : State) (opcode : Byte) (params : List Param) (e : Byte) (dsts : List Dst) (payloads : List (List Byte))
    (a b : Nat) (samples : List Bool) (pre rest : List Byte),
    atRest s → params.length ≤ 255 → sourcesHold s.sizes params = true → payloads.length = e.toNat →
    payloadsFitDsts dsts payloads → a < Config.hw.acqRetryMax → b < Config.hw.acqRetryMax →
    s.rdyIn = List.replicate a false ++ true :: (List.replicate b false ++ true :: samples) → strayBytes pre →
    s.rxIn = pre ++ replyFrameBytes Config.hw (opcode ||| Config.hw.replyMarker) payloads ++ rest →
    let frame := encodeFrame Config.hw opcode (params.map (paramBytes s.mem))
    exec (.execute opcode params e dsts) s = .next { s with
      trace := s.trace ++ commandSent a frame
        ++ replyReceived b (pre ++ replyFrameBytes Config.hw (opcode ||| Config.hw.replyMarker) payloads)
        ++ [.sel false]
      result := some (.lens (lengthsOf payloads))
      mem := deliver dsts payloads s.mem
      rdyIn := samples, rxIn := rest
      acqCnt := Config.hw.acqRetryMax - b
      txCount := BitVec.ofNat 16 frame.length, encRemaining := 0x00#8
      startCnt := Config.hw.startPollMax - pre.length, decRemaining := 0x00#8
      seqExpected := opcode, closing := false }

/-- 43_command_driver.md R137: EXECUTE_VARIABLE completes with the count and the lengths of a reply of at most
`max_items` parameters; the destinations beyond the count are untouched. -/
def Obligations.ExecuteVariableCompletesUpToItsBound : Prop :=
  ∀ (s : State) (opcode m : Byte) (dsts : List Dst) (payloads : List (List Byte))
    (a b : Nat) (samples : List Bool) (pre rest : List Byte),
    atRest s → dsts.length = m.toNat → payloads.length ≤ m.toNat →
    payloadsFitDsts (dsts.take payloads.length) payloads → a < Config.hw.acqRetryMax → b < Config.hw.acqRetryMax →
    s.rdyIn = List.replicate a false ++ true :: (List.replicate b false ++ true :: samples) → strayBytes pre →
    s.rxIn = pre ++ replyFrameBytes Config.hw (opcode ||| Config.hw.replyMarker) payloads ++ rest →
    exec (.executeVariable opcode m dsts) s = .next { s with
      trace := s.trace ++ commandSent a (encodeFrame Config.hw opcode [])
        ++ replyReceived b (pre ++ replyFrameBytes Config.hw (opcode ||| Config.hw.replyMarker) payloads)
        ++ [.sel false]
      result := some (.items (BitVec.ofNat 8 payloads.length) (lengthsOf payloads))
      mem := deliver (dsts.take payloads.length) payloads s.mem
      rdyIn := samples, rxIn := rest
      acqCnt := Config.hw.acqRetryMax - b
      txCount := 4#16, encRemaining := 0x00#8
      startCnt := Config.hw.startPollMax - pre.length, decRemaining := 0x00#8
      seqExpected := opcode, closing := false }

/-- 60_exceptions.md R170, first two rows, of EXECUTE and EXECUTE_VARIABLE (43_command_driver.md R137: its errors are as
EXECUTE's): a Timeout READY in the first ACQUIRE sends nothing; in the second, the whole command was sent. No destination
byte is written, the link ends deselected, and the abort's redundant `sel 0` follows (43_command_driver.md R139). -/
def Obligations.ExecuteTimesOutWithoutReady : Prop :=
  ∀ (i : Instr) (s : State) (opcode : Byte) (params : List Param) (e : Byte) (dsts : List Dst) (a : Nat)
    (samples : List Bool),
    exchangeRequest i opcode params e dsts →
    atRest s → params.length ≤ 255 → sourcesHold s.sizes params = true → dsts.length = e.toNat →
    let frame := encodeFrame Config.hw opcode (params.map (paramBytes s.mem))
    (s.rdyIn = List.replicate Config.hw.acqRetryMax false ++ samples →
      exec i s = .next { s with
        trace := s.trace ++ timedOut Config.hw.acqRetryMax ++ [.sel false]
        result := some (.error (.timeout .ready))
        rdyIn := samples, acqCnt := 0, seqExpected := opcode, closing := false }) ∧
    (a < Config.hw.acqRetryMax →
      s.rdyIn = List.replicate a false ++ true :: (List.replicate Config.hw.acqRetryMax false ++ samples) →
      exec i s = .next { s with
        trace := s.trace ++ commandSent a frame ++ timedOut Config.hw.acqRetryMax ++ [.sel false]
        result := some (.error (.timeout .ready))
        rdyIn := samples, acqCnt := 0
        txCount := BitVec.ofNat 16 frame.length, encRemaining := 0x00#8
        seqExpected := opcode, closing := false })

/-- 60_exceptions.md R170 (Timeout START, ProtocolMismatch OPCODE, ProtocolMismatch COUNT) and R167, of EXECUTE and
EXECUTE_VARIABLE: the errors met before any parameter is decoded. In each the whole command was sent, exactly the stated
bytes were received, no destination byte is written and the link ends deselected. -/
def Obligations.ExecuteErrorsBeforeAnyParameter : Prop :=
  ∀ (i : Instr) (s : State) (opcode : Byte) (params : List Param) (e : Byte) (dsts : List Dst)
    (a b : Nat) (samples : List Bool) (pre rest : List Byte),
    exchangeRequest i opcode params e dsts →
    atRest s → params.length ≤ 255 → sourcesHold s.sizes params = true → dsts.length = e.toNat →
    a < Config.hw.acqRetryMax → b < Config.hw.acqRetryMax →
    s.rdyIn = List.replicate a false ++ true :: (List.replicate b false ++ true :: samples) →
    Config.hw.startByte ∉ pre →
    let frame := encodeFrame Config.hw opcode (params.map (paramBytes s.mem))
    (∀ head : List Byte,
      let ended : State := { s with
        trace := s.trace ++ commandSent a frame ++ replyReceived b (pre ++ head) ++ [.sel false]
        rdyIn := samples, rxIn := rest, acqCnt := Config.hw.acqRetryMax - b
        txCount := BitVec.ofNat 16 frame.length, encRemaining := 0x00#8
        startCnt := Config.hw.startPollMax - pre.length, seqExpected := opcode, closing := false }
      s.rxIn = pre ++ head ++ rest →
      (pre.length = Config.hw.startPollMax → head = [] →
        exec i s = .next { ended with result := some (.error (.timeout .start)) }) ∧
      (∀ op : Byte, pre.length < Config.hw.startPollMax → op ≠ opcode ||| Config.hw.replyMarker →
        head = [Config.hw.startByte, op] →
        exec i s = .next { ended with
          result := some (.error (.protocolMismatch .opcode op (some (opcode ||| Config.hw.replyMarker)))) }) ∧
      (∀ n : Byte, pre.length < Config.hw.startPollMax → ¬countPasses i opcode e n dsts →
        head = [Config.hw.startByte, opcode ||| Config.hw.replyMarker, n] →
        exec i s = .next { ended with
          decRemaining := n
          result := some (.error (.protocolMismatch .count n none)) }))

/-- 43_command_driver.md R137: a reply whose declared count is above `max_items` is a ProtocolMismatch with cause
COUNT, and no destination byte is written at all. -/
def Obligations.ExecuteVariableRejectsExcessItems : Prop :=
  ∀ (s : State) (opcode m n : Byte) (dsts : List Dst) (a b : Nat) (samples : List Bool) (pre rest : List Byte),
    atRest s → dsts.length = m.toNat → m.toNat < n.toNat →
    a < Config.hw.acqRetryMax → b < Config.hw.acqRetryMax →
    s.rdyIn = List.replicate a false ++ true :: (List.replicate b false ++ true :: samples) → strayBytes pre →
    s.rxIn = replyHead pre opcode n ++ rest →
    ∃ t, exec (.executeVariable opcode m dsts) s = .next t ∧
      t.result = some (.error (.protocolMismatch .count n none)) ∧ t.mem = s.mem ∧ atRest t ∧ t.rxIn = rest ∧
      t.trace = s.trace ++ commandSent a (encodeFrame Config.hw opcode [])
        ++ replyReceived b (replyHead pre opcode n) ++ [.sel false]

/-- 60_exceptions.md R170 (BufferOverflow at parameter `k`) and 41_frame_decoder.md R105, of EXECUTE and
EXECUTE_VARIABLE: in a reply whose count passes, parameters `0 .. k-1` are complete in their buffers, parameter `k` has
written nothing, the LEN byte is the last byte consumed, and the error names it, the capacity and `k`. -/
def Obligations.ExecuteOverflowKeepsEarlierParameters : Prop :=
  ∀ (i : Instr) (s : State) (opcode : Byte) (params : List Param) (e n len : Byte) (before after : List Dst) (d : Dst)
    (payloads : List (List Byte)) (a b : Nat) (samples : List Bool) (pre rest : List Byte),
    exchangeRequest i opcode params e (before ++ d :: after) →
    atRest s → params.length ≤ 255 → sourcesHold s.sizes params = true →
    (before ++ d :: after).length = e.toNat → countPasses i opcode e n (before ++ d :: after) →
    before.length < n.toNat → payloadsFitDsts before payloads → d.cap < len.toNat →
    a < Config.hw.acqRetryMax → b < Config.hw.acqRetryMax →
    s.rdyIn = List.replicate a false ++ true :: (List.replicate b false ++ true :: samples) → strayBytes pre →
    s.rxIn = replyHead pre opcode n ++ payloads.flatMap recordBytes ++ len :: rest →
    ∃ t, exec i s = .next t ∧
      t.result = some (.error (.bufferOverflow len d.cap (some before.length))) ∧
      t.mem = deliver before payloads s.mem ∧ atRest t ∧ t.rxIn = rest ∧ t.rdyIn = samples ∧
      t.trace = s.trace ++ commandSent a (encodeFrame Config.hw opcode (params.map (paramBytes s.mem)))
        ++ replyReceived b (replyHead pre opcode n ++ payloads.flatMap recordBytes ++ [len]) ++ [.sel false]

/-- 60_exceptions.md R170 (ProtocolMismatch END), of EXECUTE and EXECUTE_VARIABLE: a wrong terminator is reported after
all parameters were delivered. -/
def Obligations.ExecuteWrongEndKeepsAllParameters : Prop :=
  ∀ (i : Instr) (s : State) (opcode : Byte) (params : List Param) (e n last : Byte) (dsts : List Dst)
    (payloads : List (List Byte)) (a b : Nat) (samples : List Bool) (pre rest : List Byte),
    exchangeRequest i opcode params e dsts →
    atRest s → params.length ≤ 255 → sourcesHold s.sizes params = true → dsts.length = e.toNat →
    countPasses i opcode e n dsts → payloads.length = n.toNat →
    payloadsFitDsts (dsts.take n.toNat) payloads → last ≠ Config.endByte →
    a < Config.hw.acqRetryMax → b < Config.hw.acqRetryMax →
    s.rdyIn = List.replicate a false ++ true :: (List.replicate b false ++ true :: samples) → strayBytes pre →
    s.rxIn = replyHead pre opcode n ++ payloads.flatMap recordBytes ++ last :: rest →
    ∃ t, exec i s = .next t ∧
      t.result = some (.error (.protocolMismatch .atEnd last (some Config.endByte))) ∧
      t.mem = deliver (dsts.take n.toNat) payloads s.mem ∧ atRest t ∧ t.rxIn = rest ∧ t.rdyIn = samples ∧
      t.trace = s.trace ++ commandSent a (encodeFrame Config.hw opcode (params.map (paramBytes s.mem)))
        ++ replyReceived b (replyHead pre opcode n ++ payloads.flatMap recordBytes ++ [last]) ++ [.sel false]

/-- 43_command_driver.md R138 and 95_test_vectors.md S4: against a peer whose attempts meet no error, POLL_DATA_SENT ends
with OK in the attempt of the first true status, one byte that is not zero, up to the 25th, with one `yield RETRY`
between two attempts and none after the last. The attempts before it reply with the byte zero or with a status of length
0, which is not true whatever the buffer holds (95_test_vectors.md X12). In each attempt the peer may be late and send
bytes before START. The fourth hypothesis says that the status buffer is no source buffer of the command. -/
def Obligations.PollSucceedsAtTheFirstTrueStatus : Prop :=
  ∀ (s : State) (opcode status : Byte) (params : List Param) (dst : Handle) (attempts : List PollAttempt)
    (last : PollAttempt) (samples : List Bool) (rest : List Byte),
    atRest s → params.length ≤ 255 → sourcesHold s.sizes params = true →
    (∀ b, params.map (paramBytes (memWrite s.mem (cellAddr dst 0) b)) = params.map (paramBytes s.mem)) →
    attempts.length < 25 → (∀ x ∈ attempts, x.conforms ∧ x.notTrue) →
    last.conforms → last.status = [status] → status ≠ 0x00#8 →
    s.rdyIn = attempts.flatMap PollAttempt.samples ++ last.samples ++ samples →
    s.rxIn = attempts.flatMap (PollAttempt.bytes opcode) ++ last.bytes opcode ++ rest →
    let frame := encodeFrame Config.hw opcode (params.map (paramBytes s.mem))
    exec (.pollDataSent opcode params dst) s = .next { s with
      trace := s.trace ++ attempts.flatMap (fun x => x.events opcode frame ++ [.yielded .retry])
        ++ last.events opcode frame
      result := some .done
      mem := memWrite s.mem (cellAddr dst 0) status
      rdyIn := samples, rxIn := rest
      acqCnt := Config.hw.acqRetryMax - last.second
      txCount := BitVec.ofNat 16 frame.length, encRemaining := 0x00#8
      startCnt := Config.hw.startPollMax - last.stray.length, decRemaining := 0x00#8
      seqAttempt := BitVec.ofNat 5 (attempts.length + 1), seqExpected := opcode, closing := false }

/-- 43_command_driver.md R138 and 60_exceptions.md R164: 25 attempts without an error and without a true status report
PeerReportedFailure after exactly 25 exchanges and 24 retry yields. A status that is not true is the byte zero, or no
byte at all, which writes nothing (95_test_vectors.md X12). -/
def Obligations.PollFailsAfterTwentyFiveZeros : Prop :=
  ∀ (s : State) (opcode : Byte) (params : List Param) (dst : Handle) (attempts : List PollAttempt) (last : PollAttempt)
    (samples : List Bool) (rest : List Byte),
    atRest s → params.length ≤ 255 → sourcesHold s.sizes params = true →
    (∀ b, params.map (paramBytes (memWrite s.mem (cellAddr dst 0) b)) = params.map (paramBytes s.mem)) →
    attempts.length = 24 → (∀ x ∈ attempts ++ [last], x.conforms ∧ x.notTrue) →
    s.rdyIn = (attempts ++ [last]).flatMap PollAttempt.samples ++ samples →
    s.rxIn = (attempts ++ [last]).flatMap (PollAttempt.bytes opcode) ++ rest →
    let frame := encodeFrame Config.hw opcode (params.map (paramBytes s.mem))
    exec (.pollDataSent opcode params dst) s = .next { s with
      trace := s.trace ++ attempts.flatMap (fun x => x.events opcode frame ++ [.yielded .retry])
        ++ last.events opcode frame
      result := some (.error (.peerReportedFailure 25))
      mem := if ∀ x ∈ attempts ++ [last], x.status = [] then s.mem else memWrite s.mem (cellAddr dst 0) 0x00#8
      rdyIn := samples, rxIn := rest
      acqCnt := Config.hw.acqRetryMax - last.second
      txCount := BitVec.ofNat 16 frame.length, encRemaining := 0x00#8
      startCnt := Config.hw.startPollMax - last.stray.length, decRemaining := 0x00#8
      seqAttempt := 25#5, seqExpected := opcode, closing := false }

/-- 43_command_driver.md R138 with `DATA_SENT_RETRY_ON_TRANSPORT_ERROR` false (log 14): a Timeout READY in the first
ACQUIRE of the first attempt ends the polling at once with that error. The other errors and attempts are
`PollEndsAtAnyTransportError`. -/
def Obligations.PollEndsAtATransportError : Prop :=
  ∀ (s : State) (opcode : Byte) (params : List Param) (dst : Handle) (samples : List Bool),
    atRest s → params.length ≤ 255 → sourcesHold s.sizes params = true →
    s.rdyIn = List.replicate Config.hw.acqRetryMax false ++ samples →
    exec (.pollDataSent opcode params dst) s = .next { s with
      trace := s.trace ++ timedOut Config.hw.acqRetryMax ++ [.sel false]
      result := some (.error (.timeout .ready)), seqAttempt := 1#5
      rdyIn := samples, acqCnt := 0, seqExpected := opcode, closing := false }

/-- 43_command_driver.md R138 with `DATA_SENT_RETRY_ON_TRANSPORT_ERROR` false (log 14): whatever error an attempt meets,
Timeout, ProtocolMismatch or BufferOverflow, ends the polling in that attempt with that error (95_test_vectors.md X11).
An attempt is an EXECUTE of the same command that expects the one status byte; what EXECUTE does with each error is
stated above. First the first attempt, against every peer; then the attempt after up to 24 without a true status
(`attempts` and then `last`), from the state those leave, which `between` spells out. -/
def Obligations.PollEndsAtAnyTransportError : Prop :=
  (∀ (s t : State) (opcode : Byte) (params : List Param) (dst : Handle) (err : OpError),
    atRest s → exec (.execute opcode params 0x01#8 [⟨dst, 1⟩]) s = .next t → t.result = some (.error err) →
    exec (.pollDataSent opcode params dst) s = .next { t with seqAttempt := 1#5 }) ∧
  (∀ (s t : State) (opcode : Byte) (params : List Param) (dst : Handle) (attempts : List PollAttempt)
    (last : PollAttempt) (samples : List Bool) (rest : List Byte) (err : OpError),
    atRest s → params.length ≤ 255 → sourcesHold s.sizes params = true →
    (∀ b, params.map (paramBytes (memWrite s.mem (cellAddr dst 0) b)) = params.map (paramBytes s.mem)) →
    attempts.length + 1 < 25 → (∀ x ∈ attempts ++ [last], x.conforms ∧ x.notTrue) →
    s.rdyIn = (attempts ++ [last]).flatMap PollAttempt.samples ++ samples →
    s.rxIn = (attempts ++ [last]).flatMap (PollAttempt.bytes opcode) ++ rest →
    let frame := encodeFrame Config.hw opcode (params.map (paramBytes s.mem))
    let between : State := { s with
      trace := s.trace ++ (attempts ++ [last]).flatMap (fun x => x.events opcode frame ++ [.yielded .retry])
      mem := if ∀ x ∈ attempts ++ [last], x.status = [] then s.mem else memWrite s.mem (cellAddr dst 0) 0x00#8
      rdyIn := samples, rxIn := rest
      acqCnt := Config.hw.acqRetryMax - last.second
      txCount := BitVec.ofNat 16 frame.length, encRemaining := 0x00#8
      startCnt := Config.hw.startPollMax - last.stray.length, decRemaining := 0x00#8
      seqExpected := opcode, closing := false }
    exec (.execute opcode params 0x01#8 [⟨dst, 1⟩]) between = .next t → t.result = some (.error err) →
    exec (.pollDataSent opcode params dst) s = .next { t with seqAttempt := BitVec.ofNat 5 (attempts.length + 2) })

/-- 60_exceptions.md R168 and 10_state.md R23 (d): against every peer, every driver operation taken at rest returns a
result and leaves the link deselected, both codec machines idle and FCLA not busy, with or without an error. -/
def Obligations.DriverNeverLeavesTheLinkHeld : Prop :=
  ∀ (i : Instr) (s : State), isDriverOperation i = true → i.wellFormed = true → atRest s →
    (∀ opcode params e dsts, i = .execute opcode params e dsts → sourcesHold s.sizes params = true) →
    (∀ opcode params dst, i = .pollDataSent opcode params dst → sourcesHold s.sizes params = true) →
    ∃ t, exec i s = .next t ∧ atRest t ∧ t.closing = false ∧ ∃ r, t.result = some r

/-- After 42_link_arbiter.md R123, 20_memory.md R46, R35 and 70_reset_and_hazards.md R196, of every driver operation and
every peer: in what it adds to the trace select and deselect alternate and the last is a deselect; it moves bytes and
samples ready only while it is selected, and never sends and receives in one phase. -/
def Obligations.DriverTracesArePairedAndHalfDuplex : Prop :=
  ∀ (i : Instr) (s t : State), isDriverOperation i = true → atRest s → exec i s = .next t →
    ∃ events, t.trace = s.trace ++ events ∧ selectsAlternate false events = true ∧ lineAfter false events = false ∧
      onlySelected false events = true ∧ halfDuplex false false events = true

/-- After 20_memory.md R46, of every driver operation and every peer: command phases only send, reply phases only receive,
and the two alternate, a command phase first (43_command_driver.md R139). -/
def Obligations.CommandPhasesSendReplyPhasesReceive : Prop :=
  ∀ (i : Instr) (s t : State), isDriverOperation i = true → atRest s → exec i s = .next t →
    ∃ events, t.trace = s.trace ++ events ∧ phasesDirected false events = true

/-! ### Whole-machine statements -/

/-- 10_state.md R24 and 70_reset_and_hazards.md R190, for the values they give: link idle and select deasserted, both
codec machines idle, the driver idle, no result pending; one interface event, `sel 0`, and no other; and FCLA executes
nothing until an operation is requested. The reset values of the counters are the model's choice (log 3) and stated
nowhere. -/
def Obligations.ResetLeavesTheLinkIdle : Prop :=
  State.reset.sel = false ∧ State.reset.encState = .idle ∧ State.reset.decState = .idle ∧
  State.reset.seqPhase = .idle ∧ State.reset.result = none ∧ State.reset.trace = [.sel false] ∧
  selectPin State.reset = !Config.selectActiveLevel ∧
  ∀ s : State, s.port = [] → step s = .next s

/-- The invariant holds after reset (10_state.md R24, R23). -/
def Obligations.InvariantHoldsAfterReset : Prop := invariant State.reset

/-- 10_state.md R23 (a) to (c), with the bound of 30_encoding.md R61 on `TX_COUNT` and the canonical form of the
buffers: every step keeps the invariant. -/
def Obligations.EveryStepKeepsTheInvariant : Prop :=
  ∀ s t : State, invariant s → step s = .next t → invariant t

/-- 10_state.md R11: the counters stay in their ranges in every step. -/
def Obligations.EveryStepKeepsTheCountersInRange : Prop :=
  countersInRange State.reset ∧ ∀ s t : State, countersInRange s → step s = .next t → countersInRange t

/-- 10_state.md R13: the level `SEL` holds is the level of the last select event, after reset and after every step;
the trace only grows; and bytes move and ready is sampled only while the link is selected. -/
def Obligations.SelectLineFollowsTheTrace : Prop :=
  lineAfter true State.reset.trace = State.reset.sel ∧
  (∀ s : State, selectPin s = if s.sel then Config.selectActiveLevel else !Config.selectActiveLevel) ∧
  ∀ s t : State, step s = .next t → ∃ events, t.trace = s.trace ++ events ∧
    t.sel = lineAfter s.sel events ∧ onlySelected s.sel events = true

/-- 20_memory.md R34, R42: no operation writes a byte outside the destinations it names, nor past a destination's
capacity: every other byte of memory reads as before. -/
def Obligations.OnlyDestinationsAreWritten : Prop :=
  ∀ (i : Instr) (s t : State), exec i s = .next t →
    ∀ a, (∀ d ∈ destinations i, ¬inDestination d a) → memRead? t.mem a = memRead? s.mem a

/-- 10_state.md R18: no operation reads the result port: an error leaves no trace in FCLA's state. NONE and
REPLY_FRAME are no operation that returns a result. -/
def Obligations.NoOperationReadsTheResultPort : Prop :=
  ∀ (i : Instr) (s t : State) (r : Option OpResult), i ≠ .noOperation →
    (∀ confirm payloads, i ≠ .replyFrame confirm payloads) → s.seqPhase = .idle → exec i s = .next t →
    exec i { s with result := r } = .next t

/-- 10_state.md R24: the registers that reset leaves unspecified are loaded before they are read: what a driver
operation does outside them does not depend on them. -/
def Obligations.UnspecifiedRegistersAreNotRead : Prop :=
  ∀ (i : Instr) (s t : State) (acqCnt : Nat) (encRemaining : Byte) (txCount : Half) (decRemaining : Byte)
    (startCnt : Nat) (seqAttempt : BitVec 5) (seqExpected : Byte),
    isDriverOperation i = true → atRest s → exec i s = .next t →
    ∃ u, exec i (withRegisters s acqCnt encRemaining txCount decRemaining startCnt seqAttempt seqExpected) = .next u ∧
      u = withRegisters t u.acqCnt u.encRemaining u.txCount u.decRemaining u.startCnt u.seqAttempt u.seqExpected

/-- No operation changes what waits on the operation port (10_state.md R19, R22) or the level of the requester
(60_exceptions.md R171). The queue of requests (log 7) and the field that holds the level (log 8) are the model's
choices. -/
def Obligations.OperationsLeaveThePortAlone : Prop :=
  ∀ (i : Instr) (s t : State), exec i s = .next t → t.port = s.port ∧ t.level = s.level

/-- 60_exceptions.md R160, R165: the numbers of the result codes, 0 for OK with or without values; no result FCLA
returns has code 5, 6 or 7; and the encoder's operations and RELEASE return only OK. -/
def Obligations.ResultCodesAreZeroToFour : Prop :=
  (∀ r : OpResult, (codeBits (resultCode r)).toNat ≤ 4) ∧
  codeBits (resultCode .done) = 0#3 ∧
  (∀ n, codeBits (resultCode (.count n)) = 0#3) ∧
  (∀ n, codeBits (resultCode (.len n)) = 0#3) ∧
  (∀ ls, codeBits (resultCode (.lens ls)) = 0#3) ∧
  (∀ n ls, codeBits (resultCode (.items n ls)) = 0#3) ∧
  (∀ cause, codeBits (resultCode (.error (.timeout cause))) = 1#3) ∧
  (∀ cause got want, codeBits (resultCode (.error (.protocolMismatch cause got want))) = 2#3) ∧
  (∀ declared capacity k, codeBits (resultCode (.error (.bufferOverflow declared capacity k))) = 3#3) ∧
  (∀ attempts, codeBits (resultCode (.error (.peerReportedFailure attempts))) = 4#3) ∧
  (∀ (i : Instr) (s t : State), returnsOnlyOk i = true → exec i s = .next t → t.result = some .done)
end

