-- ==== Sys2Proof/Laws/Memory.lean ====
section
/-! SUPPORT. The laws of the buffers: a read after a write, and the canonical form, which every write keeps. -/

namespace Sys2Proof.Laws

open Sys2Proof.Machine Sys2Proof.Safety

theorem memRead_memWrite_same (m : Memory) (a : Nat) (v : Byte) : memRead? (memWrite m a v) a = some v := by
  induction m with
  | nil => simp [memWrite, memRead?]
  | cons c rest ih =>
    simp only [memWrite]
    split
    · simp [memRead?]
    · split
      · simp [memRead?]
      · rename_i h
        simp [memRead?, ih, Ne.symm h]

theorem memRead_memWrite_other (m : Memory) (a b : Nat) (v : Byte) (h : b ≠ a) :
    memRead? (memWrite m a v) b = memRead? m b := by
  induction m with
  | nil => simp [memWrite, memRead?, Ne.symm h]
  | cons c rest ih =>
    simp only [memWrite]
    split
    · simp [memRead?, Ne.symm h]
    · split
      · rename_i h'
        subst h'
        simp [memRead?, Ne.symm h]
      · simp [memRead?, ih]

theorem memRead_memWrite (m : Memory) (a b : Nat) (v : Byte) :
    memRead? (memWrite m a v) b = if b = a then some v else memRead? m b := by
  split
  · rename_i h
    subst h
    exact memRead_memWrite_same m b v
  · rename_i h
    exact memRead_memWrite_other m a b v h

theorem wf_cons {c : Host.Cell} {m : Memory} :
    Memory.wf (c :: m) = true ↔ (∀ d ∈ m.head?, c.1 < d.1) ∧ Memory.wf m = true := by
  cases m <;> simp [Memory.wf]

theorem head_memWrite (m : Memory) (a : Nat) (v : Byte) :
    ∀ d ∈ (memWrite m a v).head?, d.1 = a ∨ ∃ e ∈ m.head?, e.1 = d.1 := by
  cases m with
  | nil => simp [memWrite]
  | cons c rest =>
    simp only [memWrite]
    split <;> [simp; split] <;> simp

/-- A write keeps the canonical form. -/
theorem memWrite_wf (m : Memory) (a : Nat) (v : Byte) (h : m.wf = true) : Memory.wf (memWrite m a v) = true := by
  induction m with
  | nil => rfl
  | cons c rest ih =>
    obtain ⟨hhead, hrest⟩ := wf_cons.mp h
    simp only [memWrite]
    split
    · rename_i hlt
      exact wf_cons.mpr ⟨by simpa using hlt, h⟩
    · rename_i hge
      split
      · rename_i heq
        exact wf_cons.mpr ⟨by simpa [heq] using hhead, hrest⟩
      · rename_i hne
        refine wf_cons.mpr ⟨fun d hd => ?_, ih hrest⟩
        rcases head_memWrite rest a v d hd with h1 | ⟨e, he, h1⟩
        · omega
        · have := hhead e he
          omega

/-- Two writes to one cell: the second one stands. -/
theorem memWrite_memWrite_same (m : Memory) (a : Nat) (v w : Byte) :
    memWrite (memWrite m a v) a w = memWrite m a w := by
  induction m with
  | nil => simp [memWrite]
  | cons c rest ih =>
    simp only [memWrite]
    split
    · simp [memWrite]
    · split
      · simp [memWrite]
      · rename_i h1 h2
        simp [memWrite, h1, h2, ih]

theorem reset_mem_wf : State.reset.mem.wf = true := rfl

/-- Different bytes of buffers stand in different cells, for the indices FCLA uses. -/
theorem cellAddr_inj {h k : Handle} {i j : Nat} (hi : i < 256) (hj : j < 256)
    (e : cellAddr h i = cellAddr k j) : h = k ∧ i = j := by
  simp only [cellAddr] at e
  have hk : @Eq Nat h k := by omega
  exact ⟨hk, by omega⟩

/-- What delivering a payload does to the canonical form. -/
theorem deliverFrom_wf (dst : Handle) (bs : List Byte) (i : Nat) (m : Memory) (h : m.wf = true) :
    (deliverFrom dst i bs m).wf = true := by
  induction bs generalizing i m with
  | nil => exact h
  | cons b bs ih => exact ih _ _ (memWrite_wf _ _ _ h)

/-- Delivering a payload writes its bytes and no others. -/
theorem memRead_deliverFrom_other (dst : Handle) (bs : List Byte) (i : Nat) (m : Memory) (a : Nat)
    (h : ∀ j, j < bs.length → a ≠ cellAddr dst (i + j)) :
    memRead? (deliverFrom dst i bs m) a = memRead? m a := by
  induction bs generalizing i m with
  | nil => rfl
  | cons b bs ih =>
    simp only [deliverFrom]
    rw [ih (i + 1) _ fun j hj => ?_, memRead_memWrite_other _ _ _ _ (by simpa using h 0 (by simp))]
    have := h (j + 1) (by simp; omega)
    rwa [show i + (j + 1) = i + 1 + j by omega] at this

/-- A delivered byte reads back. -/
theorem memRead_deliverFrom (dst : Handle) (bs : List Byte) (i j : Nat) (m : Memory) (hj : j < bs.length) :
    memRead? (deliverFrom dst i bs m) (cellAddr dst (i + j)) = bs[j]? := by
  induction bs generalizing i j m with
  | nil => simp at hj
  | cons b bs ih =>
    simp only [deliverFrom]
    cases j with
    | zero =>
      rw [memRead_deliverFrom_other]
      · simpa using memRead_memWrite_same m _ b
      · intro k _
        simp only [cellAddr]
        omega
    | succ j =>
      have := ih (i + 1) j (memWrite m (cellAddr dst i) b) (by simpa using hj)
      rw [show i + 1 + j = i + (j + 1) by omega] at this
      simpa using this

theorem deliver_wf (dsts : List Dst) (payloads : List (List Byte)) (m : Memory) (h : m.wf = true) :
    (deliver dsts payloads m).wf = true := by
  induction dsts generalizing payloads m with
  | nil => simpa [deliver] using h
  | cons d dsts ih =>
    cases payloads with
    | nil => simpa [deliver] using h
    | cons p payloads => exact ih _ _ (deliverFrom_wf _ _ _ _ h)

end Sys2Proof.Laws
end

