-- ==== Sys2Proof/Laws/State.lean ====
section
/-! SUPPORT. One lemma per field per update of State, each true by rfl: later proofs rewrite with them and unfold no
record update. -/

namespace Sys2Proof.Laws

open Sys2Proof.Machine

/-! ### `emit` -/

@[simp] theorem emit_sel (e : Event) (s : State) : (emit e s).sel = s.sel := rfl
@[simp] theorem emit_acqCnt (e : Event) (s : State) : (emit e s).acqCnt = s.acqCnt := rfl
@[simp] theorem emit_encState (e : Event) (s : State) : (emit e s).encState = s.encState := rfl
@[simp] theorem emit_encRemaining (e : Event) (s : State) : (emit e s).encRemaining = s.encRemaining := rfl
@[simp] theorem emit_txCount (e : Event) (s : State) : (emit e s).txCount = s.txCount := rfl
@[simp] theorem emit_decState (e : Event) (s : State) : (emit e s).decState = s.decState := rfl
@[simp] theorem emit_decRemaining (e : Event) (s : State) : (emit e s).decRemaining = s.decRemaining := rfl
@[simp] theorem emit_startCnt (e : Event) (s : State) : (emit e s).startCnt = s.startCnt := rfl
@[simp] theorem emit_seqPhase (e : Event) (s : State) : (emit e s).seqPhase = s.seqPhase := rfl
@[simp] theorem emit_seqAttempt (e : Event) (s : State) : (emit e s).seqAttempt = s.seqAttempt := rfl
@[simp] theorem emit_seqExpected (e : Event) (s : State) : (emit e s).seqExpected = s.seqExpected := rfl
@[simp] theorem emit_result (e : Event) (s : State) : (emit e s).result = s.result := rfl
@[simp] theorem emit_mem (e : Event) (s : State) : (emit e s).mem = s.mem := rfl
@[simp] theorem emit_trace (e : Event) (s : State) : (emit e s).trace = s.trace ++ [e] := rfl
@[simp] theorem emit_port (e : Event) (s : State) : (emit e s).port = s.port := rfl
@[simp] theorem emit_sizes (e : Event) (s : State) : (emit e s).sizes = s.sizes := rfl
@[simp] theorem emit_level (e : Event) (s : State) : (emit e s).level = s.level := rfl
@[simp] theorem emit_closing (e : Event) (s : State) : (emit e s).closing = s.closing := rfl
@[simp] theorem emit_rdyIn (e : Event) (s : State) : (emit e s).rdyIn = s.rdyIn := rfl
@[simp] theorem emit_rxIn (e : Event) (s : State) : (emit e s).rxIn = s.rxIn := rfl
@[simp] theorem emit_draws (e : Event) (s : State) : (emit e s).draws = s.draws := rfl

/-! ### `txByte` -/

@[simp] theorem txByte_sel (b : Byte) (s : State) : (txByte b s).sel = s.sel := rfl
@[simp] theorem txByte_acqCnt (b : Byte) (s : State) : (txByte b s).acqCnt = s.acqCnt := rfl
@[simp] theorem txByte_encState (b : Byte) (s : State) : (txByte b s).encState = s.encState := rfl
@[simp] theorem txByte_encRemaining (b : Byte) (s : State) : (txByte b s).encRemaining = s.encRemaining := rfl
@[simp] theorem txByte_txCount (b : Byte) (s : State) : (txByte b s).txCount = s.txCount := rfl
@[simp] theorem txByte_decState (b : Byte) (s : State) : (txByte b s).decState = s.decState := rfl
@[simp] theorem txByte_decRemaining (b : Byte) (s : State) : (txByte b s).decRemaining = s.decRemaining := rfl
@[simp] theorem txByte_startCnt (b : Byte) (s : State) : (txByte b s).startCnt = s.startCnt := rfl
@[simp] theorem txByte_seqPhase (b : Byte) (s : State) : (txByte b s).seqPhase = s.seqPhase := rfl
@[simp] theorem txByte_seqAttempt (b : Byte) (s : State) : (txByte b s).seqAttempt = s.seqAttempt := rfl
@[simp] theorem txByte_seqExpected (b : Byte) (s : State) : (txByte b s).seqExpected = s.seqExpected := rfl
@[simp] theorem txByte_result (b : Byte) (s : State) : (txByte b s).result = s.result := rfl
@[simp] theorem txByte_mem (b : Byte) (s : State) : (txByte b s).mem = s.mem := rfl
@[simp] theorem txByte_trace (b : Byte) (s : State) : (txByte b s).trace = s.trace ++ [.tx b] := rfl
@[simp] theorem txByte_port (b : Byte) (s : State) : (txByte b s).port = s.port := rfl
@[simp] theorem txByte_sizes (b : Byte) (s : State) : (txByte b s).sizes = s.sizes := rfl
@[simp] theorem txByte_level (b : Byte) (s : State) : (txByte b s).level = s.level := rfl
@[simp] theorem txByte_closing (b : Byte) (s : State) : (txByte b s).closing = s.closing := rfl
@[simp] theorem txByte_rdyIn (b : Byte) (s : State) : (txByte b s).rdyIn = s.rdyIn := rfl
@[simp] theorem txByte_rxIn (b : Byte) (s : State) : (txByte b s).rxIn = s.rxIn := rfl
@[simp] theorem txByte_draws (b : Byte) (s : State) : (txByte b s).draws = s.draws := rfl

/-! ### `setSelect` -/

@[simp] theorem setSelect_sel (v : Bool) (s : State) : (setSelect v s).sel = v := rfl
@[simp] theorem setSelect_acqCnt (v : Bool) (s : State) : (setSelect v s).acqCnt = s.acqCnt := rfl
@[simp] theorem setSelect_encState (v : Bool) (s : State) : (setSelect v s).encState = s.encState := rfl
@[simp] theorem setSelect_encRemaining (v : Bool) (s : State) : (setSelect v s).encRemaining = s.encRemaining := rfl
@[simp] theorem setSelect_txCount (v : Bool) (s : State) : (setSelect v s).txCount = s.txCount := rfl
@[simp] theorem setSelect_decState (v : Bool) (s : State) : (setSelect v s).decState = s.decState := rfl
@[simp] theorem setSelect_decRemaining (v : Bool) (s : State) : (setSelect v s).decRemaining = s.decRemaining := rfl
@[simp] theorem setSelect_startCnt (v : Bool) (s : State) : (setSelect v s).startCnt = s.startCnt := rfl
@[simp] theorem setSelect_seqPhase (v : Bool) (s : State) : (setSelect v s).seqPhase = s.seqPhase := rfl
@[simp] theorem setSelect_seqAttempt (v : Bool) (s : State) : (setSelect v s).seqAttempt = s.seqAttempt := rfl
@[simp] theorem setSelect_seqExpected (v : Bool) (s : State) : (setSelect v s).seqExpected = s.seqExpected := rfl
@[simp] theorem setSelect_result (v : Bool) (s : State) : (setSelect v s).result = s.result := rfl
@[simp] theorem setSelect_mem (v : Bool) (s : State) : (setSelect v s).mem = s.mem := rfl
@[simp] theorem setSelect_trace (v : Bool) (s : State) : (setSelect v s).trace = s.trace ++ [.sel v] := rfl
@[simp] theorem setSelect_port (v : Bool) (s : State) : (setSelect v s).port = s.port := rfl
@[simp] theorem setSelect_sizes (v : Bool) (s : State) : (setSelect v s).sizes = s.sizes := rfl
@[simp] theorem setSelect_level (v : Bool) (s : State) : (setSelect v s).level = s.level := rfl
@[simp] theorem setSelect_closing (v : Bool) (s : State) : (setSelect v s).closing = s.closing := rfl
@[simp] theorem setSelect_rdyIn (v : Bool) (s : State) : (setSelect v s).rdyIn = s.rdyIn := rfl
@[simp] theorem setSelect_rxIn (v : Bool) (s : State) : (setSelect v s).rxIn = s.rxIn := rfl
@[simp] theorem setSelect_draws (v : Bool) (s : State) : (setSelect v s).draws = s.draws := rfl

/-! ### `yieldFor` -/

@[simp] theorem yieldFor_sel (k : YieldKind) (s : State) : (yieldFor k s).sel = s.sel := rfl
@[simp] theorem yieldFor_acqCnt (k : YieldKind) (s : State) : (yieldFor k s).acqCnt = s.acqCnt := rfl
@[simp] theorem yieldFor_encState (k : YieldKind) (s : State) : (yieldFor k s).encState = s.encState := rfl
@[simp] theorem yieldFor_encRemaining (k : YieldKind) (s : State) : (yieldFor k s).encRemaining = s.encRemaining := rfl
@[simp] theorem yieldFor_txCount (k : YieldKind) (s : State) : (yieldFor k s).txCount = s.txCount := rfl
@[simp] theorem yieldFor_decState (k : YieldKind) (s : State) : (yieldFor k s).decState = s.decState := rfl
@[simp] theorem yieldFor_decRemaining (k : YieldKind) (s : State) : (yieldFor k s).decRemaining = s.decRemaining := rfl
@[simp] theorem yieldFor_startCnt (k : YieldKind) (s : State) : (yieldFor k s).startCnt = s.startCnt := rfl
@[simp] theorem yieldFor_seqPhase (k : YieldKind) (s : State) : (yieldFor k s).seqPhase = s.seqPhase := rfl
@[simp] theorem yieldFor_seqAttempt (k : YieldKind) (s : State) : (yieldFor k s).seqAttempt = s.seqAttempt := rfl
@[simp] theorem yieldFor_seqExpected (k : YieldKind) (s : State) : (yieldFor k s).seqExpected = s.seqExpected := rfl
@[simp] theorem yieldFor_result (k : YieldKind) (s : State) : (yieldFor k s).result = s.result := rfl
@[simp] theorem yieldFor_mem (k : YieldKind) (s : State) : (yieldFor k s).mem = s.mem := rfl
@[simp] theorem yieldFor_trace (k : YieldKind) (s : State) : (yieldFor k s).trace = s.trace ++ [.yielded k] := rfl
@[simp] theorem yieldFor_port (k : YieldKind) (s : State) : (yieldFor k s).port = s.port := rfl
@[simp] theorem yieldFor_sizes (k : YieldKind) (s : State) : (yieldFor k s).sizes = s.sizes := rfl
@[simp] theorem yieldFor_level (k : YieldKind) (s : State) : (yieldFor k s).level = s.level := rfl
@[simp] theorem yieldFor_closing (k : YieldKind) (s : State) : (yieldFor k s).closing = s.closing := rfl
@[simp] theorem yieldFor_rdyIn (k : YieldKind) (s : State) : (yieldFor k s).rdyIn = s.rdyIn := rfl
@[simp] theorem yieldFor_rxIn (k : YieldKind) (s : State) : (yieldFor k s).rxIn = s.rxIn := rfl
@[simp] theorem yieldFor_draws (k : YieldKind) (s : State) : (yieldFor k s).draws = s.draws := rfl

/-! ### `writeByte` -/

@[simp] theorem writeByte_sel (buf : Handle) (i : Nat) (v : Byte) (s : State) : (writeByte buf i v s).sel = s.sel := rfl
@[simp] theorem writeByte_acqCnt (buf : Handle) (i : Nat) (v : Byte) (s : State) : (writeByte buf i v s).acqCnt = s.acqCnt := rfl
@[simp] theorem writeByte_encState (buf : Handle) (i : Nat) (v : Byte) (s : State) : (writeByte buf i v s).encState = s.encState := rfl
@[simp] theorem writeByte_encRemaining (buf : Handle) (i : Nat) (v : Byte) (s : State) : (writeByte buf i v s).encRemaining = s.encRemaining := rfl
@[simp] theorem writeByte_txCount (buf : Handle) (i : Nat) (v : Byte) (s : State) : (writeByte buf i v s).txCount = s.txCount := rfl
@[simp] theorem writeByte_decState (buf : Handle) (i : Nat) (v : Byte) (s : State) : (writeByte buf i v s).decState = s.decState := rfl
@[simp] theorem writeByte_decRemaining (buf : Handle) (i : Nat) (v : Byte) (s : State) : (writeByte buf i v s).decRemaining = s.decRemaining := rfl
@[simp] theorem writeByte_startCnt (buf : Handle) (i : Nat) (v : Byte) (s : State) : (writeByte buf i v s).startCnt = s.startCnt := rfl
@[simp] theorem writeByte_seqPhase (buf : Handle) (i : Nat) (v : Byte) (s : State) : (writeByte buf i v s).seqPhase = s.seqPhase := rfl
@[simp] theorem writeByte_seqAttempt (buf : Handle) (i : Nat) (v : Byte) (s : State) : (writeByte buf i v s).seqAttempt = s.seqAttempt := rfl
@[simp] theorem writeByte_seqExpected (buf : Handle) (i : Nat) (v : Byte) (s : State) : (writeByte buf i v s).seqExpected = s.seqExpected := rfl
@[simp] theorem writeByte_result (buf : Handle) (i : Nat) (v : Byte) (s : State) : (writeByte buf i v s).result = s.result := rfl
@[simp] theorem writeByte_mem (buf : Handle) (i : Nat) (v : Byte) (s : State) : (writeByte buf i v s).mem = memWrite s.mem (cellAddr buf i) v := rfl
@[simp] theorem writeByte_trace (buf : Handle) (i : Nat) (v : Byte) (s : State) : (writeByte buf i v s).trace = s.trace := rfl
@[simp] theorem writeByte_port (buf : Handle) (i : Nat) (v : Byte) (s : State) : (writeByte buf i v s).port = s.port := rfl
@[simp] theorem writeByte_sizes (buf : Handle) (i : Nat) (v : Byte) (s : State) : (writeByte buf i v s).sizes = s.sizes := rfl
@[simp] theorem writeByte_level (buf : Handle) (i : Nat) (v : Byte) (s : State) : (writeByte buf i v s).level = s.level := rfl
@[simp] theorem writeByte_closing (buf : Handle) (i : Nat) (v : Byte) (s : State) : (writeByte buf i v s).closing = s.closing := rfl
@[simp] theorem writeByte_rdyIn (buf : Handle) (i : Nat) (v : Byte) (s : State) : (writeByte buf i v s).rdyIn = s.rdyIn := rfl
@[simp] theorem writeByte_rxIn (buf : Handle) (i : Nat) (v : Byte) (s : State) : (writeByte buf i v s).rxIn = s.rxIn := rfl
@[simp] theorem writeByte_draws (buf : Handle) (i : Nat) (v : Byte) (s : State) : (writeByte buf i v s).draws = s.draws := rfl

/-! ### `releaseLink` -/

@[simp] theorem releaseLink_sel (s : State) : (releaseLink s).sel = false := rfl
@[simp] theorem releaseLink_acqCnt (s : State) : (releaseLink s).acqCnt = s.acqCnt := rfl
@[simp] theorem releaseLink_encState (s : State) : (releaseLink s).encState = .idle := rfl
@[simp] theorem releaseLink_encRemaining (s : State) : (releaseLink s).encRemaining = s.encRemaining := rfl
@[simp] theorem releaseLink_txCount (s : State) : (releaseLink s).txCount = s.txCount := rfl
@[simp] theorem releaseLink_decState (s : State) : (releaseLink s).decState = .idle := rfl
@[simp] theorem releaseLink_decRemaining (s : State) : (releaseLink s).decRemaining = s.decRemaining := rfl
@[simp] theorem releaseLink_startCnt (s : State) : (releaseLink s).startCnt = s.startCnt := rfl
@[simp] theorem releaseLink_seqPhase (s : State) : (releaseLink s).seqPhase = s.seqPhase := rfl
@[simp] theorem releaseLink_seqAttempt (s : State) : (releaseLink s).seqAttempt = s.seqAttempt := rfl
@[simp] theorem releaseLink_seqExpected (s : State) : (releaseLink s).seqExpected = s.seqExpected := rfl
@[simp] theorem releaseLink_result (s : State) : (releaseLink s).result = s.result := rfl
@[simp] theorem releaseLink_mem (s : State) : (releaseLink s).mem = s.mem := rfl
@[simp] theorem releaseLink_trace (s : State) : (releaseLink s).trace = s.trace ++ [.sel false] := rfl
@[simp] theorem releaseLink_port (s : State) : (releaseLink s).port = s.port := rfl
@[simp] theorem releaseLink_sizes (s : State) : (releaseLink s).sizes = s.sizes := rfl
@[simp] theorem releaseLink_level (s : State) : (releaseLink s).level = s.level := rfl
@[simp] theorem releaseLink_closing (s : State) : (releaseLink s).closing = false := rfl
@[simp] theorem releaseLink_rdyIn (s : State) : (releaseLink s).rdyIn = s.rdyIn := rfl
@[simp] theorem releaseLink_rxIn (s : State) : (releaseLink s).rxIn = s.rxIn := rfl
@[simp] theorem releaseLink_draws (s : State) : (releaseLink s).draws = s.draws := rfl

/-! ### `abort` -/

@[simp] theorem abort_sel (s : State) : (abort s).sel = false := rfl
@[simp] theorem abort_acqCnt (s : State) : (abort s).acqCnt = s.acqCnt := rfl
@[simp] theorem abort_encState (s : State) : (abort s).encState = .idle := rfl
@[simp] theorem abort_encRemaining (s : State) : (abort s).encRemaining = s.encRemaining := rfl
@[simp] theorem abort_txCount (s : State) : (abort s).txCount = s.txCount := rfl
@[simp] theorem abort_decState (s : State) : (abort s).decState = .idle := rfl
@[simp] theorem abort_decRemaining (s : State) : (abort s).decRemaining = s.decRemaining := rfl
@[simp] theorem abort_startCnt (s : State) : (abort s).startCnt = s.startCnt := rfl
@[simp] theorem abort_seqPhase (s : State) : (abort s).seqPhase = s.seqPhase := rfl
@[simp] theorem abort_seqAttempt (s : State) : (abort s).seqAttempt = s.seqAttempt := rfl
@[simp] theorem abort_seqExpected (s : State) : (abort s).seqExpected = s.seqExpected := rfl
@[simp] theorem abort_result (s : State) : (abort s).result = s.result := rfl
@[simp] theorem abort_mem (s : State) : (abort s).mem = s.mem := rfl
@[simp] theorem abort_trace (s : State) : (abort s).trace = s.trace ++ [.sel false] := rfl
@[simp] theorem abort_port (s : State) : (abort s).port = s.port := rfl
@[simp] theorem abort_sizes (s : State) : (abort s).sizes = s.sizes := rfl
@[simp] theorem abort_level (s : State) : (abort s).level = s.level := rfl
@[simp] theorem abort_closing (s : State) : (abort s).closing = false := rfl
@[simp] theorem abort_rdyIn (s : State) : (abort s).rdyIn = s.rdyIn := rfl
@[simp] theorem abort_rxIn (s : State) : (abort s).rxIn = s.rxIn := rfl
@[simp] theorem abort_draws (s : State) : (abort s).draws = s.draws := rfl

/-! ### `finish` -/

@[simp] theorem finish_sel (r : OpResult) (s : State) : (finish r s).sel = s.sel := rfl
@[simp] theorem finish_acqCnt (r : OpResult) (s : State) : (finish r s).acqCnt = s.acqCnt := rfl
@[simp] theorem finish_encState (r : OpResult) (s : State) : (finish r s).encState = s.encState := rfl
@[simp] theorem finish_encRemaining (r : OpResult) (s : State) : (finish r s).encRemaining = s.encRemaining := rfl
@[simp] theorem finish_txCount (r : OpResult) (s : State) : (finish r s).txCount = s.txCount := rfl
@[simp] theorem finish_decState (r : OpResult) (s : State) : (finish r s).decState = s.decState := rfl
@[simp] theorem finish_decRemaining (r : OpResult) (s : State) : (finish r s).decRemaining = s.decRemaining := rfl
@[simp] theorem finish_startCnt (r : OpResult) (s : State) : (finish r s).startCnt = s.startCnt := rfl
@[simp] theorem finish_seqPhase (r : OpResult) (s : State) : (finish r s).seqPhase = s.seqPhase := rfl
@[simp] theorem finish_seqAttempt (r : OpResult) (s : State) : (finish r s).seqAttempt = s.seqAttempt := rfl
@[simp] theorem finish_seqExpected (r : OpResult) (s : State) : (finish r s).seqExpected = s.seqExpected := rfl
@[simp] theorem finish_result (r : OpResult) (s : State) : (finish r s).result = some r := rfl
@[simp] theorem finish_mem (r : OpResult) (s : State) : (finish r s).mem = s.mem := rfl
@[simp] theorem finish_trace (r : OpResult) (s : State) : (finish r s).trace = s.trace := rfl
@[simp] theorem finish_port (r : OpResult) (s : State) : (finish r s).port = s.port := rfl
@[simp] theorem finish_sizes (r : OpResult) (s : State) : (finish r s).sizes = s.sizes := rfl
@[simp] theorem finish_level (r : OpResult) (s : State) : (finish r s).level = s.level := rfl
@[simp] theorem finish_closing (r : OpResult) (s : State) : (finish r s).closing = s.closing := rfl
@[simp] theorem finish_rdyIn (r : OpResult) (s : State) : (finish r s).rdyIn = s.rdyIn := rfl
@[simp] theorem finish_rxIn (r : OpResult) (s : State) : (finish r s).rxIn = s.rxIn := rfl
@[simp] theorem finish_draws (r : OpResult) (s : State) : (finish r s).draws = s.draws := rfl

/-! ### `enterPhase` -/

@[simp] theorem enterPhase_sel (v : SeqPhase) (s : State) : (enterPhase v s).sel = s.sel := rfl
@[simp] theorem enterPhase_acqCnt (v : SeqPhase) (s : State) : (enterPhase v s).acqCnt = s.acqCnt := rfl
@[simp] theorem enterPhase_encState (v : SeqPhase) (s : State) : (enterPhase v s).encState = s.encState := rfl
@[simp] theorem enterPhase_encRemaining (v : SeqPhase) (s : State) : (enterPhase v s).encRemaining = s.encRemaining := rfl
@[simp] theorem enterPhase_txCount (v : SeqPhase) (s : State) : (enterPhase v s).txCount = s.txCount := rfl
@[simp] theorem enterPhase_decState (v : SeqPhase) (s : State) : (enterPhase v s).decState = s.decState := rfl
@[simp] theorem enterPhase_decRemaining (v : SeqPhase) (s : State) : (enterPhase v s).decRemaining = s.decRemaining := rfl
@[simp] theorem enterPhase_startCnt (v : SeqPhase) (s : State) : (enterPhase v s).startCnt = s.startCnt := rfl
@[simp] theorem enterPhase_seqPhase (v : SeqPhase) (s : State) : (enterPhase v s).seqPhase = v := rfl
@[simp] theorem enterPhase_seqAttempt (v : SeqPhase) (s : State) : (enterPhase v s).seqAttempt = s.seqAttempt := rfl
@[simp] theorem enterPhase_seqExpected (v : SeqPhase) (s : State) : (enterPhase v s).seqExpected = s.seqExpected := rfl
@[simp] theorem enterPhase_result (v : SeqPhase) (s : State) : (enterPhase v s).result = s.result := rfl
@[simp] theorem enterPhase_mem (v : SeqPhase) (s : State) : (enterPhase v s).mem = s.mem := rfl
@[simp] theorem enterPhase_trace (v : SeqPhase) (s : State) : (enterPhase v s).trace = s.trace := rfl
@[simp] theorem enterPhase_port (v : SeqPhase) (s : State) : (enterPhase v s).port = s.port := rfl
@[simp] theorem enterPhase_sizes (v : SeqPhase) (s : State) : (enterPhase v s).sizes = s.sizes := rfl
@[simp] theorem enterPhase_level (v : SeqPhase) (s : State) : (enterPhase v s).level = s.level := rfl
@[simp] theorem enterPhase_closing (v : SeqPhase) (s : State) : (enterPhase v s).closing = s.closing := rfl
@[simp] theorem enterPhase_rdyIn (v : SeqPhase) (s : State) : (enterPhase v s).rdyIn = s.rdyIn := rfl
@[simp] theorem enterPhase_rxIn (v : SeqPhase) (s : State) : (enterPhase v s).rxIn = s.rxIn := rfl
@[simp] theorem enterPhase_draws (v : SeqPhase) (s : State) : (enterPhase v s).draws = s.draws := rfl

/-! ### `endDriver` -/

@[simp] theorem endDriver_sel (r : OpResult) (s : State) : (endDriver r s).sel = s.sel := rfl
@[simp] theorem endDriver_acqCnt (r : OpResult) (s : State) : (endDriver r s).acqCnt = s.acqCnt := rfl
@[simp] theorem endDriver_encState (r : OpResult) (s : State) : (endDriver r s).encState = s.encState := rfl
@[simp] theorem endDriver_encRemaining (r : OpResult) (s : State) : (endDriver r s).encRemaining = s.encRemaining := rfl
@[simp] theorem endDriver_txCount (r : OpResult) (s : State) : (endDriver r s).txCount = s.txCount := rfl
@[simp] theorem endDriver_decState (r : OpResult) (s : State) : (endDriver r s).decState = s.decState := rfl
@[simp] theorem endDriver_decRemaining (r : OpResult) (s : State) : (endDriver r s).decRemaining = s.decRemaining := rfl
@[simp] theorem endDriver_startCnt (r : OpResult) (s : State) : (endDriver r s).startCnt = s.startCnt := rfl
@[simp] theorem endDriver_seqPhase (r : OpResult) (s : State) : (endDriver r s).seqPhase = .idle := rfl
@[simp] theorem endDriver_seqAttempt (r : OpResult) (s : State) : (endDriver r s).seqAttempt = s.seqAttempt := rfl
@[simp] theorem endDriver_seqExpected (r : OpResult) (s : State) : (endDriver r s).seqExpected = s.seqExpected := rfl
@[simp] theorem endDriver_result (r : OpResult) (s : State) : (endDriver r s).result = some r := rfl
@[simp] theorem endDriver_mem (r : OpResult) (s : State) : (endDriver r s).mem = s.mem := rfl
@[simp] theorem endDriver_trace (r : OpResult) (s : State) : (endDriver r s).trace = s.trace := rfl
@[simp] theorem endDriver_port (r : OpResult) (s : State) : (endDriver r s).port = s.port := rfl
@[simp] theorem endDriver_sizes (r : OpResult) (s : State) : (endDriver r s).sizes = s.sizes := rfl
@[simp] theorem endDriver_level (r : OpResult) (s : State) : (endDriver r s).level = s.level := rfl
@[simp] theorem endDriver_closing (r : OpResult) (s : State) : (endDriver r s).closing = s.closing := rfl
@[simp] theorem endDriver_rdyIn (r : OpResult) (s : State) : (endDriver r s).rdyIn = s.rdyIn := rfl
@[simp] theorem endDriver_rxIn (r : OpResult) (s : State) : (endDriver r s).rxIn = s.rxIn := rfl
@[simp] theorem endDriver_draws (r : OpResult) (s : State) : (endDriver r s).draws = s.draws := rfl

/-! ### `presentBytes` -/

@[simp] theorem presentBytes_sel (bs : List Byte) (s : State) : (presentBytes bs s).sel = s.sel := rfl
@[simp] theorem presentBytes_acqCnt (bs : List Byte) (s : State) : (presentBytes bs s).acqCnt = s.acqCnt := rfl
@[simp] theorem presentBytes_encState (bs : List Byte) (s : State) : (presentBytes bs s).encState = s.encState := rfl
@[simp] theorem presentBytes_encRemaining (bs : List Byte) (s : State) : (presentBytes bs s).encRemaining = s.encRemaining := rfl
@[simp] theorem presentBytes_txCount (bs : List Byte) (s : State) : (presentBytes bs s).txCount = s.txCount := rfl
@[simp] theorem presentBytes_decState (bs : List Byte) (s : State) : (presentBytes bs s).decState = s.decState := rfl
@[simp] theorem presentBytes_decRemaining (bs : List Byte) (s : State) : (presentBytes bs s).decRemaining = s.decRemaining := rfl
@[simp] theorem presentBytes_startCnt (bs : List Byte) (s : State) : (presentBytes bs s).startCnt = s.startCnt := rfl
@[simp] theorem presentBytes_seqPhase (bs : List Byte) (s : State) : (presentBytes bs s).seqPhase = s.seqPhase := rfl
@[simp] theorem presentBytes_seqAttempt (bs : List Byte) (s : State) : (presentBytes bs s).seqAttempt = s.seqAttempt := rfl
@[simp] theorem presentBytes_seqExpected (bs : List Byte) (s : State) : (presentBytes bs s).seqExpected = s.seqExpected := rfl
@[simp] theorem presentBytes_result (bs : List Byte) (s : State) : (presentBytes bs s).result = s.result := rfl
@[simp] theorem presentBytes_mem (bs : List Byte) (s : State) : (presentBytes bs s).mem = s.mem := rfl
@[simp] theorem presentBytes_trace (bs : List Byte) (s : State) : (presentBytes bs s).trace = s.trace := rfl
@[simp] theorem presentBytes_port (bs : List Byte) (s : State) : (presentBytes bs s).port = s.port := rfl
@[simp] theorem presentBytes_sizes (bs : List Byte) (s : State) : (presentBytes bs s).sizes = s.sizes := rfl
@[simp] theorem presentBytes_level (bs : List Byte) (s : State) : (presentBytes bs s).level = s.level := rfl
@[simp] theorem presentBytes_closing (bs : List Byte) (s : State) : (presentBytes bs s).closing = s.closing := rfl
@[simp] theorem presentBytes_rdyIn (bs : List Byte) (s : State) : (presentBytes bs s).rdyIn = s.rdyIn := rfl
@[simp] theorem presentBytes_rxIn (bs : List Byte) (s : State) : (presentBytes bs s).rxIn = s.rxIn ++ bs := rfl
@[simp] theorem presentBytes_draws (bs : List Byte) (s : State) : (presentBytes bs s).draws = s.draws := rfl

/-! ### `presentRequest` -/

@[simp] theorem presentRequest_sel (r : Request) (s : State) : (presentRequest r s).sel = s.sel := rfl
@[simp] theorem presentRequest_acqCnt (r : Request) (s : State) : (presentRequest r s).acqCnt = s.acqCnt := rfl
@[simp] theorem presentRequest_encState (r : Request) (s : State) : (presentRequest r s).encState = s.encState := rfl
@[simp] theorem presentRequest_encRemaining (r : Request) (s : State) : (presentRequest r s).encRemaining = s.encRemaining := rfl
@[simp] theorem presentRequest_txCount (r : Request) (s : State) : (presentRequest r s).txCount = s.txCount := rfl
@[simp] theorem presentRequest_decState (r : Request) (s : State) : (presentRequest r s).decState = s.decState := rfl
@[simp] theorem presentRequest_decRemaining (r : Request) (s : State) : (presentRequest r s).decRemaining = s.decRemaining := rfl
@[simp] theorem presentRequest_startCnt (r : Request) (s : State) : (presentRequest r s).startCnt = s.startCnt := rfl
@[simp] theorem presentRequest_seqPhase (r : Request) (s : State) : (presentRequest r s).seqPhase = s.seqPhase := rfl
@[simp] theorem presentRequest_seqAttempt (r : Request) (s : State) : (presentRequest r s).seqAttempt = s.seqAttempt := rfl
@[simp] theorem presentRequest_seqExpected (r : Request) (s : State) : (presentRequest r s).seqExpected = s.seqExpected := rfl
@[simp] theorem presentRequest_result (r : Request) (s : State) : (presentRequest r s).result = s.result := rfl
@[simp] theorem presentRequest_mem (r : Request) (s : State) : (presentRequest r s).mem = s.mem := rfl
@[simp] theorem presentRequest_trace (r : Request) (s : State) : (presentRequest r s).trace = s.trace := rfl
@[simp] theorem presentRequest_port (r : Request) (s : State) : (presentRequest r s).port = r :: s.port := rfl
@[simp] theorem presentRequest_sizes (r : Request) (s : State) : (presentRequest r s).sizes = s.sizes := rfl
@[simp] theorem presentRequest_level (r : Request) (s : State) : (presentRequest r s).level = s.level := rfl
@[simp] theorem presentRequest_closing (r : Request) (s : State) : (presentRequest r s).closing = s.closing := rfl
@[simp] theorem presentRequest_rdyIn (r : Request) (s : State) : (presentRequest r s).rdyIn = s.rdyIn := rfl
@[simp] theorem presentRequest_rxIn (r : Request) (s : State) : (presentRequest r s).rxIn = s.rxIn := rfl
@[simp] theorem presentRequest_draws (r : Request) (s : State) : (presentRequest r s).draws = s.draws := rfl

/-! ### `accept` -/

@[simp] theorem accept_sel (s : State) : (accept s).sel = s.sel := rfl
@[simp] theorem accept_acqCnt (s : State) : (accept s).acqCnt = s.acqCnt := rfl
@[simp] theorem accept_encState (s : State) : (accept s).encState = s.encState := rfl
@[simp] theorem accept_encRemaining (s : State) : (accept s).encRemaining = s.encRemaining := rfl
@[simp] theorem accept_txCount (s : State) : (accept s).txCount = s.txCount := rfl
@[simp] theorem accept_decState (s : State) : (accept s).decState = s.decState := rfl
@[simp] theorem accept_decRemaining (s : State) : (accept s).decRemaining = s.decRemaining := rfl
@[simp] theorem accept_startCnt (s : State) : (accept s).startCnt = s.startCnt := rfl
@[simp] theorem accept_seqPhase (s : State) : (accept s).seqPhase = s.seqPhase := rfl
@[simp] theorem accept_seqAttempt (s : State) : (accept s).seqAttempt = s.seqAttempt := rfl
@[simp] theorem accept_seqExpected (s : State) : (accept s).seqExpected = s.seqExpected := rfl
@[simp] theorem accept_result (s : State) : (accept s).result = s.result := rfl
@[simp] theorem accept_mem (s : State) : (accept s).mem = s.mem := rfl
@[simp] theorem accept_trace (s : State) : (accept s).trace = s.trace := rfl
@[simp] theorem accept_port (s : State) : (accept s).port = s.port.tail := rfl
@[simp] theorem accept_sizes (s : State) : (accept s).sizes = s.sizes := rfl
@[simp] theorem accept_level (s : State) : (accept s).level = (fetch s).level := rfl
@[simp] theorem accept_closing (s : State) : (accept s).closing = s.closing := rfl
@[simp] theorem accept_rdyIn (s : State) : (accept s).rdyIn = s.rdyIn := rfl
@[simp] theorem accept_rxIn (s : State) : (accept s).rxIn = s.rxIn := rfl
@[simp] theorem accept_draws (s : State) : (accept s).draws = s.draws := rfl

end Sys2Proof.Laws
end

