-- ==== Sys2Proof/Laws/Ops.lean ====
section
/-! SUPPORT. One lemma for each shared operation that says once everything it can do: refusals, the transport
primitives, raising and going on. -/

namespace Sys2Proof.Laws

open Sys2Proof.Machine Sys2Proof.Safety

/-! ### Refusals -/

@[simp] theorem require_true (r : Refusal) (k : Answer) : require true r k = k := rfl

@[simp] theorem require_false (r : Refusal) (k : Answer) : require false r k = .refused r := rfl

/-- A required condition holds where an operation answers a next state. -/
theorem require_next {c : Bool} {r : Refusal} {k : Answer} {t : State} :
    require c r k = .next t ↔ c = true ∧ k = .next t := by
  cases c <;> simp [require]

/-- A required condition that fails is the only way `require` itself refuses. -/
theorem require_refused {c : Bool} {r q : Refusal} {k : Answer} :
    require c r k = .refused q ↔ (c = false ∧ q = r) ∨ (c = true ∧ k = .refused q) := by
  cases c <;> simp [require, eq_comm]

theorem requireDriver_next {s t : State} {k : Answer} :
    requireDriver s k = .next t ↔ s.level = .driver ∧ k = .next t := by
  simp [requireDriver, require_next]

theorem requireSelected_next {s t : State} {k : Answer} :
    requireSelected s k = .next t ↔ s.sel = true ∧ k = .next t := by
  simp [requireSelected, require_next]

theorem requireHeader_next {s t : State} {k : Answer} :
    requireHeader s k = .next t ↔ headerReady s ∧ k = .next t := by
  simp [requireHeader, requireDriver_next, requireSelected_next, require_next, headerReady, and_assoc]

theorem requireHeader_ready {s : State} (h : headerReady s) (k : Answer) : requireHeader s k = k := by
  simp [requireHeader, requireDriver, requireSelected, h.1, h.2.1, h.2.2]

theorem requireRecord_next {last : Bool} {s t : State} {k : Answer} :
    requireRecord last s k = .next t ↔ recordReady s ∧ lastAgrees s.encRemaining last = true ∧ k = .next t := by
  simp [requireRecord, requireDriver_next, requireSelected_next, require_next, recordReady, and_assoc]

theorem requireRecord_ready {last : Bool} {s : State} (h : recordReady s)
    (hl : lastAgrees s.encRemaining last = true) (k : Answer) : requireRecord last s k = k := by
  simp [requireRecord, requireDriver, requireSelected, h.1, h.2.1, h.2.2, hl]

theorem requireClosing_next {s t : State} {k : Answer} :
    requireClosing s k = .next t ↔ closingReady s ∧ k = .next t := by
  simp [requireClosing, requireDriver_next, requireSelected_next, require_next, closingReady, and_assoc]

theorem requireClosing_ready {s : State} (h : closingReady s) (k : Answer) : requireClosing s k = k := by
  simp [requireClosing, requireDriver, requireSelected, h.1, h.2.1, h.2.2]

theorem requireDecoder_next {pos : DecState} {r : Refusal} {s t : State} {k : Answer} :
    requireDecoder pos r s k = .next t ↔ decoderReady pos s ∧ k = .next t := by
  simp [requireDecoder, requireDriver_next, requireSelected_next, require_next, decoderReady, and_assoc]

theorem requireDecoder_ready {pos : DecState} {r : Refusal} {s : State} (h : decoderReady pos s) (k : Answer) :
    requireDecoder pos r s k = k := by
  simp [requireDecoder, requireDriver, requireSelected, h.1, h.2.1, h.2.2]

/-- A driver operation that is taken was taken at rest; one that waits leaves the state alone. -/
theorem whenIdle_next {s t : State} {k : Answer} :
    whenIdle s k = .next t ↔ (s.seqPhase ≠ .idle ∧ t = s) ∨ (atRest s ∧ k = .next t) := by
  by_cases h : s.seqPhase = .idle
  · simp [whenIdle, busy, h, requireIdle, require_next, atRest, and_assoc]
  · have hb : busy s = true := by simp [busy, h]
    constructor
    · intro e
      simp only [whenIdle, hb] at e
      exact .inl ⟨h, by cases e; rfl⟩
    · rintro (⟨_, rfl⟩ | ⟨hr, _⟩)
      · simp only [whenIdle, hb]
      · exact absurd hr.2.2.2 h

theorem whenIdle_atRest {s : State} (h : atRest s) (k : Answer) : whenIdle s k = k := by
  obtain ⟨h1, h2, h3, h4⟩ := h
  simp [whenIdle, busy, requireIdle, h1, h2, h3, h4]

/-! ### Well-formed operands -/

theorem paramsFit_iff (params : List Param) : paramsFit params = true ↔ params.length ≤ 255 := by
  simp only [paramsFit, decide_eq_true_eq]
  rfl

theorem flagsFit_iff (params : List Param) (isLast : List Bool) :
    flagsFit params isLast = true ↔ isLast = terminalFlags params.length := by
  simp only [flagsFit, beq_iff_eq]

theorem dstsFit_iff (announced : Byte) (dsts : List Dst) :
    dstsFit announced dsts = true ↔ dsts.length = announced.toNat := by
  simp only [dstsFit, beq_iff_eq]

theorem payloadsFit_iff (payloads : List (List Byte)) :
    payloadsFit payloads = true ↔ payloads.length ≤ 255 ∧ ∀ b ∈ payloads, b.length ≤ 255 := by
  simp only [payloadsFit, Bool.and_eq_true, decide_eq_true_eq, List.all_eq_true]
  rfl

/-! ### Source buffers -/

/-- The only way a source buffer is too short: a length was stated for it, less than the one given with it. -/
theorem bufferHolds_eq_false (sizes : List (Handle × Nat)) (buf : Handle) (len : Byte) :
    bufferHolds sizes buf len = false ↔ ∃ n, bufferLength sizes buf = some n ∧ n < len.toNat := by
  unfold bufferHolds
  cases bufferLength sizes buf <;> simp

/-- A source byte that was written is read as written. -/
theorem readByte_written {m : Memory} {buf : Handle} {i : Nat} {v : Byte} (h : memRead? m (cellAddr buf i) = some v) :
    readByte m buf i = v := by
  simp [readByte, h]

/-! ### Transport primitives -/

/-- Sending bytes extends the trace and changes nothing else. -/
theorem txBytes_eq (bs : List Byte) (s : State) :
    txBytes bs s = { s with trace := s.trace ++ bs.map .tx } := by
  induction bs generalizing s with
  | nil => simp [txBytes]
  | cons b bs ih => simp [txBytes, ih, txByte, emit]

/-- Receiving a byte: it is recorded, and only the peer's answers move. -/
theorem rxByte_eq (s : State) : ∃ rest n,
    (rxByte s).2 = { s with trace := s.trace ++ [.rx (rxByte s).1], rxIn := rest, draws := n } := by
  unfold rxByte
  split
  · exact ⟨_, s.draws, rfl⟩
  · rename_i h
    exact ⟨[], s.draws + 1, by simp [emit, h]⟩

/-- Receiving a byte the peer's script names. -/
theorem rxByte_cons {s : State} {b : Byte} {rest : List Byte} (h : s.rxIn = b :: rest) :
    rxByte s = (b, { s with trace := s.trace ++ [.rx b], rxIn := rest }) := by
  simp [rxByte, h, emit]

/-- Sampling ready: the sample is recorded, and only the peer's answers move. -/
theorem readyQuery_eq (s : State) : ∃ rest n,
    (readyQuery s).2 = { s with trace := s.trace ++ [.rdy (readyQuery s).1], rdyIn := rest, draws := n } := by
  unfold readyQuery
  split
  · exact ⟨_, s.draws, rfl⟩
  · rename_i h
    exact ⟨[], s.draws + 1, by simp [emit, h]⟩

/-- Sampling ready where the peer's script names the sample. -/
theorem readyQuery_cons {s : State} {v : Bool} {rest : List Bool} (h : s.rdyIn = v :: rest) :
    readyQuery s = (v, { s with trace := s.trace ++ [.rdy v], rdyIn := rest }) := by
  simp [readyQuery, h, emit]

theorem releaseLink_eq (s : State) : releaseLink s =
    { s with sel := false, trace := s.trace ++ [.sel false], encState := .idle, decState := .idle,
             closing := false } := rfl

theorem abort_eq (s : State) : abort s = releaseLink s := rfl

/-! ### Raising and going on -/

@[simp] theorem andThen_ok {α β : Type} (s : State) (a : α) (f : α → State → Run β) :
    andThen (s, .ok a) f = f a s := rfl

@[simp] theorem andThen_error {α β : Type} (s : State) (e : OpError) (f : α → State → Run β) :
    andThen (s, (.error e : Except OpError α)) f = (s, .error e) := rfl

/-- Everything `andThen` can do. -/
theorem andThen_cases {α β : Type} (r : Run α) (f : α → State → Run β) :
    (∃ s a, r = (s, .ok a) ∧ andThen r f = f a s) ∨
    (∃ s e, r = (s, .error e) ∧ andThen r f = (s, .error e)) := by
  obtain ⟨s, a | e⟩ := r
  · exact .inr ⟨s, a, rfl, rfl⟩
  · exact .inl ⟨s, e, rfl, rfl⟩

@[simp] theorem abortOnRaise_ok {α : Type} (s : State) (a : α) : abortOnRaise (s, .ok a) = (s, .ok a) := rfl

@[simp] theorem abortOnRaise_error {α : Type} (s : State) (e : OpError) :
    abortOnRaise (s, (.error e : Except OpError α)) = (abort s, .error e) := rfl

end Sys2Proof.Laws
end

