-- ==== Sys2Proof/Laws/Arbiter.lean ====
section
/-! SUPPORT. Everything ACQUIRE can do, against any peer and against a peer whose samples are named. -/

namespace Sys2Proof.Laws

open Sys2Proof.Machine Sys2Proof.Safety

/-- One more sample that reads not-ready, with budget left. -/
theorem pollReady_wait (n : Nat) (s : State) (h : (readyQuery s).1 = false) :
    pollReady (n + 2) s = pollReady (n + 1) (yieldFor .poll { (readyQuery s).2 with acqCnt := n + 1 }) := by
  rw [pollReady]
  simp [h]

/-- The last sample reads not-ready: Timeout, deselected. -/
theorem pollReady_last (s : State) (h : (readyQuery s).1 = false) :
    pollReady 1 s = (setSelect false { (readyQuery s).2 with acqCnt := 0 }, .error (.timeout .ready)) := by
  rw [pollReady]
  simp [h, pollReady]

/-- A sample reads ready. -/
theorem pollReady_ready (n : Nat) (s : State) (h : (readyQuery s).1 = true) :
    pollReady (n + 1) s = ((readyQuery s).2, .ok ()) := by
  rw [pollReady]
  simp [h]

/-- The polling loop of ACQUIRE against any peer. -/
theorem pollReady_cases (n : Nat) (s : State) (hc : s.acqCnt = n + 1) :
    (∃ a rd d, a < n + 1 ∧ pollReady (n + 1) s =
      ({ s with acqCnt := n + 1 - a, rdyIn := rd, draws := d
                trace := s.trace ++ (List.replicate a [Event.rdy false, .yielded .poll]).flatten ++ [.rdy true] },
        .ok ())) ∨
    (∃ rd d, pollReady (n + 1) s =
      ({ s with acqCnt := 0, sel := false, rdyIn := rd, draws := d
                trace := s.trace ++ (List.replicate n [Event.rdy false, .yielded .poll]).flatten
                  ++ [.rdy false, .sel false] },
        .error (.timeout .ready))) := by
  induction n generalizing s with
  | zero =>
    obtain ⟨rd, d, e⟩ := readyQuery_eq s
    cases h : (readyQuery s).1 with
    | true => exact .inl ⟨0, rd, d, by omega, by rw [pollReady_ready _ _ h, e]; simp [h, hc]⟩
    | false => exact .inr ⟨rd, d, by rw [pollReady_last _ h, e]; simp [h, setSelect, emit]⟩
  | succ n ih =>
    obtain ⟨rd, d, e⟩ := readyQuery_eq s
    cases h : (readyQuery s).1 with
    | true => exact .inl ⟨0, rd, d, by omega, by rw [pollReady_ready _ _ h, e]; simp [h, hc]⟩
    | false =>
      rw [pollReady_wait _ _ h]
      rcases ih (yieldFor .poll { (readyQuery s).2 with acqCnt := n + 1 }) rfl with
        ⟨a, rd', d', ha, e'⟩ | ⟨rd', d', e'⟩
      · exact .inl ⟨a + 1, rd', d', by omega, by
          rw [e']
          simp [e, h, yieldFor, emit, List.replicate_succ]⟩
      · exact .inr ⟨rd', d', by
          rw [e']
          simp [e, h, yieldFor, emit, List.replicate_succ]⟩

/-- ACQUIRE against any peer (42_link_arbiter.md R121): selected after `a` samples that read not-ready, or timed out
and deselected. -/
theorem acquireLink_cases (p : Params) (s : State) (hp : 1 ≤ p.acqRetryMax) :
    (∃ a rd d, a < p.acqRetryMax ∧ acquireLink p s =
      ({ s with sel := true, acqCnt := p.acqRetryMax - a, rdyIn := rd, draws := d
                trace := s.trace ++ acquired a }, .ok ())) ∨
    (∃ rd d, acquireLink p s =
      ({ s with sel := false, acqCnt := 0, rdyIn := rd, draws := d
                trace := s.trace ++ timedOut p.acqRetryMax }, .error (.timeout .ready))) := by
  obtain ⟨n, hn⟩ : ∃ n, p.acqRetryMax = n + 1 := ⟨p.acqRetryMax - 1, by omega⟩
  rw [acquireLink, hn]
  rcases pollReady_cases n { setSelect true s with acqCnt := n + 1 } rfl with
    ⟨a, rd, d, ha, e⟩ | ⟨rd, d, e⟩
  · exact .inl ⟨a, rd, d, ha, by rw [e]; simp [setSelect, emit, acquired]⟩
  · exact .inr ⟨rd, d, by rw [e]; simp [setSelect, emit, timedOut]⟩

/-- The polling loop against a peer whose next samples are named. -/
theorem pollReady_named (a n : Nat) (s : State) (rest : List Bool) (ha : a < n) (hc : s.acqCnt = n)
    (h : s.rdyIn = List.replicate a false ++ true :: rest) : pollReady n s =
    ({ s with acqCnt := n - a, rdyIn := rest
              trace := s.trace ++ (List.replicate a [Event.rdy false, .yielded .poll]).flatten ++ [.rdy true] },
      .ok ()) := by
  induction a generalizing n s with
  | zero =>
    obtain ⟨m, rfl⟩ : ∃ m, n = m + 1 := ⟨n - 1, by omega⟩
    have e := readyQuery_cons (v := true) (rest := rest) (by simpa using h)
    simp [pollReady, e, ← hc]
  | succ a ih =>
    obtain ⟨m, rfl⟩ : ∃ m, n = m + 2 := ⟨n - 2, by omega⟩
    have e := readyQuery_cons (v := false) (rest := List.replicate a false ++ true :: rest)
      (by simpa [List.replicate_succ] using h)
    rw [pollReady_wait _ _ (by rw [e]), ih (m + 1) _ (by omega) rfl (by simp [e, yieldFor, emit]), e]
    simp [yieldFor, emit, List.replicate_succ]

/-- The polling loop against a peer that the samples name as never ready. -/
theorem pollReady_never (n : Nat) (s : State) (rest : List Bool)
    (h : s.rdyIn = List.replicate (n + 1) false ++ rest) : pollReady (n + 1) s =
    ({ s with acqCnt := 0, sel := false, rdyIn := rest
              trace := s.trace ++ (List.replicate n [Event.rdy false, .yielded .poll]).flatten
                ++ [.rdy false, .sel false] },
      .error (.timeout .ready)) := by
  induction n generalizing s with
  | zero =>
    have e := readyQuery_cons (v := false) (rest := rest) (by simpa using h)
    rw [pollReady_last _ (by rw [e]), e]
    simp [setSelect, emit]
  | succ n ih =>
    have e := readyQuery_cons (v := false) (rest := List.replicate (n + 1) false ++ rest)
      (by simpa [List.replicate_succ] using h)
    rw [pollReady_wait _ _ (by rw [e]), ih _ (by simp [e, yieldFor, emit]), e]
    simp [yieldFor, emit, List.replicate_succ]

/-- ACQUIRE against a peer that is ready within the budget. -/
theorem acquireLink_named (p : Params) (a : Nat) (s : State) (rest : List Bool) (ha : a < p.acqRetryMax)
    (h : s.rdyIn = List.replicate a false ++ true :: rest) : acquireLink p s =
    ({ s with sel := true, acqCnt := p.acqRetryMax - a, rdyIn := rest
              trace := s.trace ++ acquired a }, .ok ()) := by
  rw [acquireLink, pollReady_named a p.acqRetryMax _ rest ha rfl (by simpa using h)]
  simp [setSelect, emit, acquired]

/-- ACQUIRE against a peer that is never ready within the budget. -/
theorem acquireLink_never (p : Params) (s : State) (rest : List Bool) (hp : 1 ≤ p.acqRetryMax)
    (h : s.rdyIn = List.replicate p.acqRetryMax false ++ rest) : acquireLink p s =
    ({ s with sel := false, acqCnt := 0, rdyIn := rest
              trace := s.trace ++ timedOut p.acqRetryMax }, .error (.timeout .ready)) := by
  obtain ⟨n, hn⟩ : ∃ n, p.acqRetryMax = n + 1 := ⟨p.acqRetryMax - 1, by omega⟩
  rw [acquireLink, hn, pollReady_never n _ rest (by simpa [hn] using h)]
  simp [setSelect, emit, timedOut]

end Sys2Proof.Laws
end

