-- ==== Sys2Proof/Laws/Encoder.lean ====
section
/-! SUPPORT. What each procedure of the frame encoder does to the state, said once. -/

namespace Sys2Proof.Laws

open Sys2Proof.Machine Sys2Proof.Safety

theorem fillerCount_le (n : Nat) : fillerCount n ≤ 3 := by
  simp only [fillerCount, wordBytes]
  omega

theorem fillerCount_add_mod (n : Nat) : (n + fillerCount n) % 4 = 0 := by
  simp only [fillerCount, wordBytes]
  omega

/-- Counting modulo `2^16` does not change the filler. -/
theorem fillerCount_mod (n : Nat) : fillerCount (n % 65536) = fillerCount n := by
  simp only [fillerCount, wordBytes]
  omega

theorem padToWord_eq (p : Params) (total : Half) (s : State) : padToWord p total s =
    { s with trace := s.trace ++ (List.replicate (fillerCount total.toNat) p.padByte).map .tx
             txCount := s.txCount + BitVec.ofNat 16 (fillerCount total.toNat) } := by
  simp [padToWord, txBytes_eq]

theorem writeEnd_eq (p : Params) (s : State) : writeEnd p s =
    { s with trace := s.trace ++ [.tx p.endByte], txCount := s.txCount + 1#16, encState := .idle } := rfl

/-- `Close()` (40_frame_encoder.md R86), for both positions of the filler. -/
theorem closeFrame_eq (p : Params) (s : State) : closeFrame p s =
    { s with trace := s.trace ++ (frameTail p s.txCount.toNat).map .tx
             txCount := s.txCount + 1#16 + BitVec.ofNat 16 (fillerCount (s.txCount.toNat + 1))
             encState := .idle, closing := false } := by
  unfold closeFrame frameTail
  split <;> rename_i h <;> simp [padToWord_eq, writeEnd_eq, h, fillerCount_mod, BitVec.add_assoc,
    BitVec.add_comm 1#16]

/-- A record that is not the last (40_frame_encoder.md R82). -/
theorem writeRecord_false (p : Params) (payload : List Byte) (s : State) : writeRecord p payload false s =
    { s with trace := s.trace ++ (recordBytes payload).map .tx
             txCount := s.txCount + 1#16 + BitVec.ofNat 16 payload.length
             encRemaining := s.encRemaining - 1#8 } := by
  simp [writeRecord, txBytes_eq]

/-- The last record: the closing sequence follows (40_frame_encoder.md R82, R86). -/
theorem writeRecord_true (p : Params) (payload : List Byte) (s : State) :
    writeRecord p payload true s = closeFrame p (writeRecord p payload false s) := by
  simp [writeRecord]

theorem writeHeader_zero (p : Params) (opcode : Byte) (s : State) : writeHeader p opcode 0x00#8 s =
    closeFrame p { s with trace := s.trace ++ [.tx p.startByte, .tx opcode, .tx 0x00#8]
                          txCount := 3#16, encRemaining := 0x00#8 } := by
  simp [writeHeader, txBytes_eq]

theorem writeHeader_ne (p : Params) (opcode count : Byte) (s : State) (h : count ≠ 0x00#8) :
    writeHeader p opcode count s =
    { s with trace := s.trace ++ [.tx p.startByte, .tx opcode, .tx count]
             txCount := 3#16, encRemaining := count, encState := .open } := by
  simp [writeHeader, txBytes_eq, h]

/-- The bytes of a source buffer are as many as its length says. -/
@[simp] theorem readBuffer_length (m : Memory) (buf : Handle) (len : Byte) :
    (readBuffer m buf len).length = len.toNat := by
  simp [readBuffer]

theorem paramBytes_length_le (m : Memory) (param : Param) : (paramBytes m param).length ≤ 255 := by
  cases param with
  | raw buf len =>
    have := len.isLt
    simp only [paramBytes, readBuffer_length]
    omega
  | u16 v => simp [paramBytes, u16Payload]

/-- Whether or not a record is the last, no parameter source changes. -/
theorem writeRecord_mem (p : Params) (payload : List Byte) (last : Bool) (s : State) :
    (writeRecord p payload last s).mem = s.mem := by
  cases last <;> simp [writeRecord_true, writeRecord_false, closeFrame_eq]

/-- The parameters of ENCODE_COMMAND are written as literal records are. -/
theorem writeParams_eq (p : Params) (params : List Param) (s : State) :
    writeParams p params (terminalFlags params.length) s = writeRecords p (params.map (paramBytes s.mem)) s := by
  induction params generalizing s with
  | nil => rfl
  | cons q params ih =>
    cases params with
    | nil => rfl
    | cons q' params =>
      have h := ih (writeRecord p (paramBytes s.mem q) false s)
      rw [writeRecord_mem] at h
      simpa [writeParams, writeRecords, writeParam, terminalFlags, List.replicate_succ] using h

/-- A non-empty list of records: all of them in order, then the closing sequence. -/
theorem writeRecords_eq (p : Params) (payloads : List (List Byte)) (s : State) (h : payloads ≠ []) :
    writeRecords p payloads s = closeFrame p
      { s with trace := s.trace ++ (payloads.flatMap recordBytes).map .tx
               txCount := s.txCount + BitVec.ofNat 16 (payloads.flatMap recordBytes).length
               encRemaining := s.encRemaining - BitVec.ofNat 8 payloads.length } := by
  induction payloads generalizing s with
  | nil => exact absurd rfl h
  | cons b payloads ih =>
    cases payloads with
    | nil =>
      simp [writeRecords, writeRecord_true, writeRecord_false, recordBytes, BitVec.ofNat_add, BitVec.add_assoc,
        BitVec.add_comm 1#16]
    | cons b' payloads =>
      have hne : (b' :: payloads) ≠ [] := by simp
      rw [show writeRecords p (b :: b' :: payloads) s
            = writeRecords p (b' :: payloads) (writeRecord p b false s) from rfl, ih _ hne, writeRecord_false]
      congr 1
      simp only [List.flatMap_cons, List.map_append, List.length_append, List.append_assoc, List.length_cons]
      congr 1
      · rw [BitVec.sub_sub, BitVec.add_comm 1#8, ← BitVec.ofNat_add]
      · simp only [recordBytes, List.length_cons, BitVec.add_assoc, ← BitVec.ofNat_add]
        congr 2
        omega

theorem recordBytes_length (payload : List Byte) : (recordBytes payload).length = payload.length + 1 := rfl

theorem records_length (payloads : List (List Byte)) :
    (payloads.flatMap recordBytes).length = payloads.length + (payloads.map List.length).sum := by
  induction payloads with
  | nil => rfl
  | cons b payloads ih =>
    simp only [List.flatMap_cons, List.length_append, recordBytes_length, ih, List.length_cons, List.map_cons,
      List.sum_cons]
    omega

theorem frameBody_length (p : Params) (opcode : Byte) (payloads : List (List Byte)) :
    (frameBody p opcode payloads).length = 3 + payloads.length + (payloads.map List.length).sum := by
  simp only [frameBody, List.length_append, records_length, List.length_cons, List.length_nil]
  omega

theorem frameTail_length (p : Params) (n : Nat) : (frameTail p n).length = fillerCount (n + 1) + 1 := by
  unfold frameTail
  split <;> simp

theorem encodeFrame_length (p : Params) (opcode : Byte) (payloads : List (List Byte)) :
    (encodeFrame p opcode payloads).length
      = (frameBody p opcode payloads).length + 1 + fillerCount ((frameBody p opcode payloads).length + 1) := by
  simp only [encodeFrame, List.length_append, frameTail_length]
  omega

/-- A body of at most 255 records of at most 255 bytes (30_encoding.md R61). -/
theorem frameBody_length_le (p : Params) (opcode : Byte) (payloads : List (List Byte))
    (hb : ∀ b ∈ payloads, b.length ≤ 255) :
    (frameBody p opcode payloads).length ≤ 3 + 256 * payloads.length := by
  rw [frameBody_length]
  have : (payloads.map List.length).sum ≤ 255 * payloads.length := by
    induction payloads with
    | nil => simp
    | cons b payloads ih =>
      have h1 := hb b (by simp)
      have h2 := ih fun c hc => hb c (by simp [hc])
      simp only [List.map_cons, List.sum_cons, List.length_cons]
      omega
  omega

/-- A whole frame through the encoder: the bytes of `EncodeFrame` (40_frame_encoder.md R88). -/
theorem writeFrame_eq (p : Params) (opcode : Byte) (payloads : List (List Byte)) (s : State)
    (h : payloads.length ≤ 255) (hb : ∀ b ∈ payloads, b.length ≤ 255) : writeFrame p opcode payloads s =
    { s with trace := s.trace ++ (encodeFrame p opcode payloads).map .tx
             txCount := BitVec.ofNat 16 (encodeFrame p opcode payloads).length
             encRemaining := 0x00#8, encState := .idle, closing := false } := by
  have hle := frameBody_length_le p opcode payloads hb
  by_cases hnil : payloads = []
  · subst hnil
    have hlen : (encodeFrame p opcode []).length = 4 := by
      rw [encodeFrame_length, frameBody_length]
      rfl
    rw [writeFrame, writeRecords, List.length_nil, writeHeader_zero, closeFrame_eq, hlen]
    simp [encodeFrame, frameBody, fillerCount, wordBytes]
  · have hc : BitVec.ofNat 8 payloads.length ≠ 0x00#8 := by
      have : payloads.length ≠ 0 := by simpa using hnil
      intro e
      have e' := congrArg BitVec.toNat e
      simp only [BitVec.toNat_ofNat] at e'
      omega
    have hn : (3#16 + BitVec.ofNat 16 (payloads.flatMap recordBytes).length)
        = BitVec.ofNat 16 (frameBody p opcode payloads).length := by
      rw [frameBody, List.length_append, BitVec.ofNat_add]
      rfl
    have hm : (BitVec.ofNat 16 (frameBody p opcode payloads).length).toNat
        = (frameBody p opcode payloads).length := by
      simp only [BitVec.toNat_ofNat]
      omega
    rw [writeFrame, writeHeader_ne _ _ _ _ hc, writeRecords_eq _ _ _ hnil, closeFrame_eq]
    simp only [hn, hm, encodeFrame_length, BitVec.ofNat_add]
    simp [encodeFrame, frameBody]

/-- ENCODE_COMMAND with the marks R87 asks for (40_frame_encoder.md R88). -/
theorem writeCommand_eq (p : Params) (opcode : Byte) (params : List Param) (s : State) (h : params.length ≤ 255) :
    writeCommand p opcode params (terminalFlags params.length) s =
    { s with trace := s.trace ++ (encodeFrame p opcode (params.map (paramBytes s.mem))).map .tx
             txCount := BitVec.ofNat 16 (encodeFrame p opcode (params.map (paramBytes s.mem))).length
             encRemaining := 0x00#8, encState := .idle, closing := false } := by
  have hmem : (writeHeader p opcode (BitVec.ofNat 8 params.length) s).mem = s.mem := by
    by_cases hc : BitVec.ofNat 8 params.length = 0x00#8
    · rw [hc, writeHeader_zero, closeFrame_eq]
    · rw [writeHeader_ne _ _ _ _ hc]
  rw [writeCommand, writeParams_eq, hmem]
  have hb : ∀ b ∈ params.map (paramBytes s.mem), b.length ≤ 255 := by
    intro b hb
    obtain ⟨q, _, rfl⟩ := List.mem_map.mp hb
    exact paramBytes_length_le _ _
  have := writeFrame_eq p opcode (params.map (paramBytes s.mem)) s (by simpa using h) hb
  simpa [writeFrame] using this

end Sys2Proof.Laws
end

