-- ==== Sys2Proof/Laws/Codec.lean ====
section
/-! SUPPORT. Reading parameter records back from the bytes they were written as. -/

namespace Sys2Proof.Laws

open Sys2Proof.Machine Sys2Proof.Safety

/-- Records read back, with what follows them left over (30_encoding.md R62). -/
theorem parseRecords_records (payloads : List (List Byte)) (rest : List Byte) (hb : ∀ b ∈ payloads, b.length ≤ 255) :
    parseRecords payloads.length (payloads.flatMap recordBytes ++ rest) = some (payloads, rest) := by
  induction payloads with
  | nil => rfl
  | cons b payloads ih =>
    have h := hb b (by simp)
    have hlen : (BitVec.ofNat 8 b.length).toNat = b.length := by
      simp only [BitVec.toNat_ofNat]
      omega
    have hrest := ih fun c hc => hb c (by simp [hc])
    simp [parseRecords, recordBytes, hlen, hrest]

/-- The tail a command frame is written with is one `ParseCommand` accepts (30_encoding.md R71). -/
theorem tailFits_frameTail (p : Params) (n : Nat) : tailFits p n (frameTail p n) = true := by
  unfold tailFits frameTail
  split <;> simp

/-- The two bytes of a 16-bit numeric are its high and low byte, and put back together they are the numeric. -/
theorem halfOf_bytes (v : Half) : halfOf (hiByte v) (loByte v) = v := by
  simp only [halfOf, hiByte, loByte]
  ext i
  simp only [BitVec.getElem_append, BitVec.getElem_extractLsb']
  split <;> simp <;> grind

end Sys2Proof.Laws
end

