-- ==== Sys2Proof/Laws/Decoder.lean ====
section
/-! SUPPORT. Everything the procedures of the frame decoder can do: against any peer, and against a peer whose bytes
are named. -/

namespace Sys2Proof.Laws

open Sys2Proof.Machine Sys2Proof.Safety

/-! ### Against a peer whose bytes are named -/

/-- START stands within the budget (41_frame_decoder.md R102). -/
theorem scanStart_found (p : Params) (pre : List Byte) (n : Nat) (s : State) (rest : List Byte)
    (hpre : p.startByte ∉ pre) (hn : pre.length < n) (hc : s.startCnt = n)
    (h : s.rxIn = pre ++ p.startByte :: rest) : scanStart p n s =
    ({ s with startCnt := n - pre.length, rxIn := rest
              trace := s.trace ++ (pre ++ [p.startByte]).map .rx }, .ok ()) := by
  induction pre generalizing n s with
  | nil =>
    obtain ⟨m, rfl⟩ : ∃ m, n = m + 1 := ⟨n - 1, by simp at hn; omega⟩
    simp [scanStart, rxByte_cons (b := p.startByte) (rest := rest) (by simpa using h), ← hc]
  | cons b pre ih =>
    obtain ⟨m, rfl⟩ : ∃ m, n = m + 1 := ⟨n - 1, by simp at hn; omega⟩
    have e := rxByte_cons (b := b) (rest := pre ++ p.startByte :: rest) (by simpa using h)
    have hb : b ≠ p.startByte := fun hb => hpre (by simp [hb])
    rw [scanStart, if_neg (by simpa [e] using hb), ih m _ (fun hm => hpre (by simp [hm]))
      (by simpa using hn) rfl (by simp [e]), e]
    simp

/-- START does not stand within the budget (41_frame_decoder.md R102). -/
theorem scanStart_missing (p : Params) (pre : List Byte) (s : State) (rest : List Byte)
    (hpre : p.startByte ∉ pre) (hc : s.startCnt = pre.length) (h : s.rxIn = pre ++ rest) :
    scanStart p pre.length s =
    ({ s with startCnt := 0, rxIn := rest, trace := s.trace ++ pre.map .rx }, .error (.timeout .start)) := by
  induction pre generalizing s with
  | nil =>
    have h' : s.rxIn = rest := by simpa using h
    have hc' : s.startCnt = 0 := by simpa using hc
    rw [List.length_nil, scanStart]
    simp [← h', ← hc']
  | cons b pre ih =>
    have e := rxByte_cons (b := b) (rest := pre ++ rest) (by simpa using h)
    have hb : b ≠ p.startByte := fun hb => hpre (by simp [hb])
    rw [List.length_cons, scanStart, if_neg (by simpa [e] using hb),
      ih _ (fun hm => hpre (by simp [hm])) rfl (by simp [e]), e]
    simp

/-- The reply is confirmed (41_frame_decoder.md R103). -/
theorem readConfirm_ok (p : Params) (expected : Byte) (s : State) (rest : List Byte)
    (h : s.rxIn = confirmByte p expected :: rest) : readConfirm p expected s =
    ({ s with rxIn := rest, trace := s.trace ++ [.rx (confirmByte p expected)] }, .ok ()) := by
  simp [readConfirm, rxByte_cons h, confirms]

/-- The reply is not confirmed (41_frame_decoder.md R103). -/
theorem readConfirm_bad (p : Params) (expected op : Byte) (s : State) (rest : List Byte)
    (h : s.rxIn = op :: rest) (hop : op ≠ confirmByte p expected) : readConfirm p expected s =
    ({ s with rxIn := rest, trace := s.trace ++ [.rx op] },
      .error (.protocolMismatch .opcode op (some (confirmByte p expected)))) := by
  simp [readConfirm, rxByte_cons h, confirms, hop]

theorem readCount_named (s : State) (n : Byte) (rest : List Byte) (h : s.rxIn = n :: rest) : readCount s =
    ({ s with rxIn := rest, trace := s.trace ++ [.rx n], decRemaining := n
              decState := if n = 0x00#8 then .atEnd else .params }, .ok n) := by
  simp [readCount, rxByte_cons h]

/-- A confirmed header (41_frame_decoder.md R101). -/
theorem readHeader_named (p : Params) (expected n : Byte) (pre : List Byte) (s : State) (rest : List Byte)
    (hpre : p.startByte ∉ pre) (hn : pre.length < p.startPollMax)
    (h : s.rxIn = pre ++ p.startByte :: confirmByte p expected :: n :: rest) : readHeader p expected s =
    ({ s with startCnt := p.startPollMax - pre.length, rxIn := rest, decRemaining := n
              decState := if n = 0x00#8 then .atEnd else .params
              trace := s.trace ++ (pre ++ [p.startByte, confirmByte p expected, n]).map .rx }, .ok n) := by
  rw [readHeader, scanStart_found p pre p.startPollMax { s with startCnt := p.startPollMax } _ hpre hn rfl h]
  simp only [andThen_ok]
  rw [readConfirm_ok p expected _ (n :: rest) rfl]
  simp only [andThen_ok]
  rw [readCount_named _ n rest rfl]
  simp

/-- A header that is not confirmed (41_frame_decoder.md R103). -/
theorem readHeader_unconfirmed (p : Params) (expected op : Byte) (pre : List Byte) (s : State) (rest : List Byte)
    (hpre : p.startByte ∉ pre) (hn : pre.length < p.startPollMax) (hop : op ≠ confirmByte p expected)
    (h : s.rxIn = pre ++ p.startByte :: op :: rest) : readHeader p expected s =
    ({ s with startCnt := p.startPollMax - pre.length, rxIn := rest
              trace := s.trace ++ (pre ++ [p.startByte, op]).map .rx },
      .error (.protocolMismatch .opcode op (some (confirmByte p expected)))) := by
  rw [readHeader, scanStart_found p pre p.startPollMax { s with startCnt := p.startPollMax } _ hpre hn rfl h]
  simp only [andThen_ok]
  rw [readConfirm_bad p expected op _ rest rfl hop]
  simp

/-- A header without START (41_frame_decoder.md R102). -/
theorem readHeader_missing (p : Params) (expected : Byte) (pre : List Byte) (s : State) (rest : List Byte)
    (hpre : p.startByte ∉ pre) (hn : pre.length = p.startPollMax) (h : s.rxIn = pre ++ rest) :
    readHeader p expected s =
    ({ s with startCnt := 0, rxIn := rest, trace := s.trace ++ pre.map .rx }, .error (.timeout .start)) := by
  rw [readHeader, ← hn, scanStart_missing p pre { s with startCnt := pre.length } rest hpre rfl h]
  simp

/-- The payload bytes go into the buffer in order (41_frame_decoder.md R104, 20_memory.md R34). -/
theorem storePayload_named (dst : Handle) (payload : List Byte) (i : Nat) (s : State) (rest : List Byte)
    (h : s.rxIn = payload ++ rest) : storePayload dst payload.length i s =
    { s with mem := deliverFrom dst i payload s.mem, rxIn := rest, trace := s.trace ++ payload.map .rx } := by
  induction payload generalizing i s with
  | nil =>
    have h' : s.rxIn = rest := by simpa using h
    simp [storePayload, deliverFrom, ← h']
  | cons b payload ih =>
    have e := rxByte_cons (b := b) (rest := payload ++ rest) (by simpa using h)
    rw [List.length_cons, storePayload, ih (i + 1) _ (by simp [e]), e]
    simp [deliverFrom, writeByte]

/-- A parameter that fits (41_frame_decoder.md R104). -/
theorem readParameter_fits (dst : Dst) (k : Option Nat) (payload : List Byte) (s : State) (rest : List Byte)
    (h255 : payload.length ≤ 255) (hcap : payload.length ≤ dst.cap) (h : s.rxIn = recordBytes payload ++ rest) :
    readParameter dst k s =
    ({ s with mem := deliverFrom dst.dst 0 payload s.mem, rxIn := rest
              trace := s.trace ++ (recordBytes payload).map .rx
              decRemaining := s.decRemaining - 1#8
              decState := if s.decRemaining - 1#8 = 0x00#8 then .atEnd else s.decState },
      .ok (BitVec.ofNat 8 payload.length)) := by
  have e := rxByte_cons (b := BitVec.ofNat 8 payload.length) (rest := payload ++ rest) (by simpa [recordBytes] using h)
  have hlen : (BitVec.ofNat 8 payload.length).toNat = payload.length := by
    simp only [BitVec.toNat_ofNat]
    omega
  have ho : overflows (BitVec.ofNat 8 payload.length) dst.cap = false := by
    simp only [overflows, hlen]
    simpa using hcap
  rw [readParameter]
  simp only [e, ho, hlen]
  rw [storePayload_named dst.dst payload 0 _ rest rfl]
  simp [countDecoded, recordBytes]

/-- A parameter that does not fit: the LEN byte is the last one read (41_frame_decoder.md R105). -/
theorem readParameter_overflow (dst : Dst) (k : Option Nat) (len : Byte) (s : State) (rest : List Byte)
    (hcap : dst.cap < len.toNat) (h : s.rxIn = len :: rest) : readParameter dst k s =
    ({ s with rxIn := rest, trace := s.trace ++ [.rx len], decState := .idle },
      .error (.bufferOverflow len dst.cap k)) := by
  have ho : overflows len dst.cap = true := by simpa [overflows] using hcap
  simp [readParameter, rxByte_cons h, ho]

/-- The parameters of a reply, all of which fit and none of which exceeds the count (43_command_driver.md R135). -/
theorem readParameters_named (dsts : List Dst) (k : Nat) (payloads : List (List Byte)) (s : State)
    (rest : List Byte) (hfit : payloadsFitDsts dsts payloads) (hn : payloads.length ≤ s.decRemaining.toNat)
    (h : s.rxIn = payloads.flatMap recordBytes ++ rest) : readParameters dsts k s =
    ({ s with mem := deliver dsts payloads s.mem, rxIn := rest
              trace := s.trace ++ (payloads.flatMap recordBytes).map .rx
              decRemaining := s.decRemaining - BitVec.ofNat 8 payloads.length
              decState := if payloads ≠ [] ∧ payloads.length = s.decRemaining.toNat then .atEnd else s.decState },
      .ok (lengthsOf payloads)) := by
  obtain ⟨hl, h255, hcap⟩ := hfit
  induction dsts generalizing k payloads s with
  | nil =>
    obtain rfl : payloads = [] := List.length_eq_zero_iff.mp hl.symm
    have h' : s.rxIn = rest := by simpa using h
    simp [readParameters, deliver, lengthsOf, ← h']
  | cons d dsts ih =>
    cases payloads with
    | nil => simp at hl
    | cons b payloads =>
      have e := readParameter_fits d (some k) b s (payloads.flatMap recordBytes ++ rest) (h255 b (by simp))
        (hcap (d, b) (by simp)) (by simpa using h)
      have hpos : s.decRemaining.toNat = (s.decRemaining - 1#8).toNat + 1 := by
        simp only [List.length_cons] at hn
        simp only [BitVec.toNat_sub, BitVec.toNat_ofNat]
        omega
      have hz : s.decRemaining - 1#8 = 0x00#8 ↔ s.decRemaining.toNat = 1 := by
        rw [hpos, ← BitVec.toNat_inj]
        simp
      rw [readParameters, e]
      simp only [andThen_ok]
      rw [ih (k + 1) payloads _ (by simp only [List.length_cons] at hn; simp only; omega) rfl (by simpa using hl)
        (fun c hc => h255 c (by simp [hc])) (fun x hx => hcap x (by simp [hx]))]
      simp only [andThen_ok, hz, List.length_cons]
      congr 2
      · cases payloads with
        | nil => simp [eq_comm]
        | cons c cs =>
          simp only [List.length_cons] at hn
          simp only [List.length_cons]
          generalize (s.decRemaining - 1#8).toNat = m at hpos
          grind
      · rw [BitVec.sub_sub, BitVec.ofNat_add, BitVec.add_comm]
      · simp

/-- A parameter that does not fit, after those that do (41_frame_decoder.md R105, 60_exceptions.md R170). -/
theorem readParameters_overflow (before : List Dst) (d : Dst) (after : List Dst) (k : Nat)
    (payloads : List (List Byte)) (len : Byte) (s : State) (rest : List Byte)
    (hfit : payloadsFitDsts before payloads) (hcap : d.cap < len.toNat)
    (h : s.rxIn = payloads.flatMap recordBytes ++ len :: rest) :
    ∃ n, readParameters (before ++ d :: after) k s =
    ({ s with mem := deliver before payloads s.mem, rxIn := rest, decRemaining := n, decState := .idle
              trace := s.trace ++ (payloads.flatMap recordBytes ++ [len]).map .rx },
      .error (.bufferOverflow len d.cap (some (k + before.length)))) := by
  obtain ⟨hl, h255, hcaps⟩ := hfit
  induction before generalizing k payloads s with
  | nil =>
    obtain rfl : payloads = [] := List.length_eq_zero_iff.mp hl.symm
    have e := readParameter_overflow d (some k) len s rest hcap (by simpa using h)
    exact ⟨s.decRemaining, by simp [readParameters, e, deliver]⟩
  | cons d' before ih =>
    cases payloads with
    | nil => simp at hl
    | cons b payloads =>
      have e := readParameter_fits d' (some k) b s (payloads.flatMap recordBytes ++ len :: rest) (h255 b (by simp))
        (hcaps (d', b) (by simp)) (by simpa using h)
      rw [List.cons_append, readParameters, e]
      simp only [andThen_ok]
      obtain ⟨n, e'⟩ := ih (k + 1) payloads
        { s with mem := deliverFrom d'.dst 0 b s.mem, rxIn := payloads.flatMap recordBytes ++ len :: rest
                 trace := s.trace ++ (recordBytes b).map .rx
                 decRemaining := s.decRemaining - 1#8
                 decState := if s.decRemaining - 1#8 = 0x00#8 then .atEnd else s.decState }
        rfl (by simpa using hl) (fun c hc => h255 c (by simp [hc])) (fun x hx => hcaps x (by simp [hx]))
      exact ⟨n, by
        rw [e']
        simp [deliver, Nat.add_assoc, Nat.add_comm 1]⟩

/-- The terminator (41_frame_decoder.md R106). -/
theorem readEnd_named (p : Params) (b : Byte) (s : State) (rest : List Byte) (h : s.rxIn = b :: rest) :
    readEnd p s =
    ({ s with rxIn := rest, trace := s.trace ++ [.rx b], decState := .idle },
      if endAccepted p b then .ok () else .error (.protocolMismatch .atEnd b (some p.endByte))) := by
  cases he : endAccepted p b <;> simp [readEnd, rxByte_cons h, he]

/-! ### Against any peer -/

theorem scanStart_any (p : Params) (n : Nat) (s : State) (hc : s.startCnt = n) :
    ∃ (bs : List Byte) (c : Nat) (rd : List Byte) (d : Nat) (r : Except OpError Unit),
      bs.length ≤ n ∧ c ≤ n ∧ scanStart p n s =
      ({ s with startCnt := c, rxIn := rd, draws := d, trace := s.trace ++ bs.map .rx }, r) ∧
      (r = .ok () ∨ r = .error (.timeout .start)) := by
  induction n generalizing s with
  | zero => exact ⟨[], s.startCnt, s.rxIn, s.draws, _, by simp, by omega, by simp [scanStart], .inr rfl⟩
  | succ n ih =>
    obtain ⟨rd, d, e⟩ := rxByte_eq s
    by_cases hb : (rxByte s).1 = p.startByte
    · refine ⟨[p.startByte], s.startCnt, rd, d, _, by simp, by omega, ?_, .inl rfl⟩
      rw [scanStart, if_pos hb, e, hb]
      simp
    · obtain ⟨bs, c, rd', d', r, hbs, hcn, e', hr⟩ := ih { (rxByte s).2 with startCnt := n } rfl
      refine ⟨(rxByte s).1 :: bs, c, rd', d', r, by simpa using hbs, by omega, ?_, hr⟩
      rw [scanStart, if_neg hb, e', e]
      simp

theorem readConfirm_any (p : Params) (expected : Byte) (s : State) :
    ∃ b rd d, (readConfirm p expected s).1 =
      { s with rxIn := rd, draws := d, trace := s.trace ++ [.rx b] } := by
  obtain ⟨rd, d, e⟩ := rxByte_eq s
  refine ⟨(rxByte s).1, rd, d, ?_⟩
  unfold readConfirm
  split <;> rw [e]

theorem readCount_any (s : State) : ∃ n rd d, readCount s =
    ({ s with rxIn := rd, draws := d, trace := s.trace ++ [.rx n], decRemaining := n
              decState := if n = 0x00#8 then .atEnd else .params }, .ok n) := by
  obtain ⟨rd, d, e⟩ := rxByte_eq s
  exact ⟨(rxByte s).1, rd, d, by simp only [readCount]; rw [e]⟩

/-- A header against any peer: bounded bytes; the position follows the count, or an error leaves it alone. -/
theorem readHeader_any (p : Params) (expected : Byte) (s : State) :
    ∃ (bs : List Byte) (c : Nat) (rd : List Byte) (d : Nat), bs.length ≤ p.startPollMax + 2 ∧ c ≤ p.startPollMax ∧
      ((∃ n, readHeader p expected s =
        ({ s with startCnt := c, rxIn := rd, draws := d, trace := s.trace ++ bs.map .rx, decRemaining := n
                  decState := if n = 0x00#8 then .atEnd else .params }, .ok n)) ∨
       (∃ err, readHeader p expected s =
        ({ s with startCnt := c, rxIn := rd, draws := d, trace := s.trace ++ bs.map .rx }, .error err))) := by
  obtain ⟨bs, c, rd, d, r, hbs, hc, e, hr⟩ := scanStart_any p p.startPollMax { s with startCnt := p.startPollMax } rfl
  rcases hr with rfl | rfl
  · obtain ⟨b, rd', d', e'⟩ := readConfirm_any p expected
      { s with startCnt := c, rxIn := rd, draws := d, trace := s.trace ++ bs.map .rx }
    cases hq : readConfirm p expected
      { s with startCnt := c, rxIn := rd, draws := d, trace := s.trace ++ bs.map .rx } with
    | mk t q =>
      rw [hq] at e'
      obtain rfl := e'
      cases q with
      | error err =>
        refine ⟨bs ++ [b], c, rd', d', by simp; omega, hc, .inr ⟨err, ?_⟩⟩
        rw [readHeader, e]
        simp only [andThen_ok]
        rw [hq]
        simp
      | ok u =>
        obtain ⟨n, rd'', d'', e''⟩ := readCount_any
          { s with startCnt := c, rxIn := rd', draws := d', trace := s.trace ++ bs.map .rx ++ [.rx b] }
        refine ⟨bs ++ [b, n], c, rd'', d'', by simp; omega, hc, .inl ⟨n, ?_⟩⟩
        rw [readHeader, e]
        simp only [andThen_ok]
        rw [hq]
        simp only [andThen_ok]
        rw [e'']
        simp
  · refine ⟨bs, c, rd, d, by omega, hc, .inr ⟨.timeout .start, ?_⟩⟩
    rw [readHeader, e]
    simp

/-- A payload from any peer is delivered in order. -/
theorem storePayload_any (dst : Handle) (n i : Nat) (s : State) :
    ∃ (bs rd : List Byte) (d : Nat), bs.length = n ∧ storePayload dst n i s =
      { s with mem := deliverFrom dst i bs s.mem, rxIn := rd, draws := d
               trace := s.trace ++ bs.map .rx } := by
  induction n generalizing i s with
  | zero => exact ⟨[], s.rxIn, s.draws, rfl, by simp [storePayload, deliverFrom]⟩
  | succ n ih =>
    obtain ⟨rd, d, e⟩ := rxByte_eq s
    obtain ⟨bs, rd', d', hbs, e'⟩ := ih (i + 1) (writeByte dst i (rxByte s).1 (rxByte s).2)
    refine ⟨(rxByte s).1 :: bs, rd', d', by simp [hbs], ?_⟩
    rw [storePayload, e', e]
    simp [deliverFrom, writeByte]

/-- A parameter from any peer: it fits and is delivered, or its LEN byte is refused. -/
theorem readParameter_any (dst : Dst) (k : Option Nat) (s : State) :
    ∃ rd d,
      ((∃ payload : List Byte, payload.length ≤ 255 ∧ payload.length ≤ dst.cap ∧ readParameter dst k s =
        ({ s with mem := deliverFrom dst.dst 0 payload s.mem, rxIn := rd, draws := d
                  trace := s.trace ++ (recordBytes payload).map .rx
                  decRemaining := s.decRemaining - 1#8
                  decState := if s.decRemaining - 1#8 = 0x00#8 then .atEnd else s.decState },
          .ok (BitVec.ofNat 8 payload.length))) ∨
       (∃ len : Byte, dst.cap < len.toNat ∧ readParameter dst k s =
        ({ s with rxIn := rd, draws := d, trace := s.trace ++ [.rx len], decState := .idle },
          .error (.bufferOverflow len dst.cap k)))) := by
  obtain ⟨rd, d, e⟩ := rxByte_eq s
  cases ho : overflows (rxByte s).1 dst.cap with
  | true =>
    refine ⟨rd, d, .inr ⟨(rxByte s).1, by simpa [overflows] using ho, ?_⟩⟩
    simp only [readParameter, ho, if_true]
    rw [e]
  | false =>
    obtain ⟨bs, rd', d', hbs, e'⟩ := storePayload_any dst.dst (rxByte s).1.toNat 0 (rxByte s).2
    have hcap : (rxByte s).1.toNat ≤ dst.cap := by simpa [overflows] using ho
    have hlt := (rxByte s).1.isLt
    have hlen : BitVec.ofNat 8 bs.length = (rxByte s).1 := by
      rw [hbs]
      simp
    refine ⟨rd', d', .inl ⟨bs, by omega, by omega, ?_⟩⟩
    simp only [readParameter, ho]
    rw [e', e, hlen]
    simp [countDecoded, recordBytes, hlen]

/-- The parameters of a reply from any peer: all of them fit, or the first that does not ends the operation. -/
theorem readParameters_any (dsts : List Dst) (k : Nat) (s : State) :
    ∃ rd d n,
      ((∃ (ds : DecState) (payloads : List (List Byte)), payloadsFitDsts dsts payloads ∧ readParameters dsts k s =
        ({ s with mem := deliver dsts payloads s.mem, rxIn := rd, draws := d, decRemaining := n, decState := ds
                  trace := s.trace ++ (payloads.flatMap recordBytes).map .rx },
          .ok (lengthsOf payloads))) ∨
       (∃ (before : List Dst) (dst : Dst) (after : List Dst) (payloads : List (List Byte)) (len : Byte),
        dsts = before ++ dst :: after ∧ payloadsFitDsts before payloads ∧
        dst.cap < len.toNat ∧ readParameters dsts k s =
        ({ s with mem := deliver before payloads s.mem, rxIn := rd, draws := d, decRemaining := n, decState := .idle
                  trace := s.trace ++ (payloads.flatMap recordBytes ++ [len]).map .rx },
          .error (.bufferOverflow len dst.cap (some (k + before.length)))))) := by
  induction dsts generalizing k s with
  | nil =>
    exact ⟨s.rxIn, s.draws, s.decRemaining, .inl ⟨s.decState, [], ⟨rfl, nofun, nofun⟩, by
      simp [readParameters, deliver, lengthsOf]⟩⟩
  | cons dst dsts ih =>
    obtain ⟨rd, d, ⟨payload, h255, hcap, e⟩ | ⟨len, hcap, e⟩⟩ := readParameter_any dst (some k) s
    · obtain ⟨rd', d', n, h⟩ := ih (k + 1) _
      rw [readParameters, e]
      simp only [andThen_ok]
      rcases h with ⟨ds, payloads, ⟨hl, h1, h2⟩, e'⟩ | ⟨before, dst', after, payloads, len, rfl, ⟨hl, h1, h2⟩, hlt, e'⟩
      · refine ⟨rd', d', n, .inl ⟨ds, payload :: payloads, ⟨by simpa using hl, ?_, ?_⟩, ?_⟩⟩
        · simpa using ⟨h255, h1⟩
        · simpa using ⟨hcap, fun a b => h2 (a, b)⟩
        · rw [e']
          simp [deliver, lengthsOf]
      · refine ⟨rd', d', n, .inr ⟨dst :: before, dst', after, payload :: payloads, len, rfl,
          ⟨by simpa using hl, ?_, ?_⟩, hlt, ?_⟩⟩
        · simpa using ⟨h255, h1⟩
        · simpa using ⟨hcap, fun a b => h2 (a, b)⟩
        · rw [e']
          simp [deliver, Nat.add_assoc, Nat.add_comm 1]
    · refine ⟨rd, d, s.decRemaining, .inr ⟨[], dst, dsts, [], len, rfl, ⟨rfl, nofun, nofun⟩, hcap, ?_⟩⟩
      rw [readParameters, e]
      simp [deliver]

theorem readEnd_any (p : Params) (s : State) :
    ∃ b rd d r, readEnd p s =
      ({ s with rxIn := rd, draws := d, trace := s.trace ++ [.rx b], decState := .idle }, r) := by
  obtain ⟨rd, d, e⟩ := rxByte_eq s
  refine ⟨(rxByte s).1, rd, d, (readEnd p s).2, ?_⟩
  unfold readEnd
  split <;> simp [e]

end Sys2Proof.Laws
end

