-- ==== Sys2Proof/Laws/Driver.lean ====
section
/-! SUPPORT. Everything an exchange of the Command Driver can do: against any peer, and against a peer whose answers
are named. -/

namespace Sys2Proof.Laws

open Sys2Proof.Machine Sys2Proof.Safety

/-- The bytes of a command (40_frame_encoder.md R88). -/
abbrev commandFrame (p : Params) (opcode : Byte) (params : List Param) (m : Memory) : List Byte :=
  encodeFrame p opcode (params.map (paramBytes m))

/-- The state after a command phase that sent the command (43_command_driver.md R135). -/
abbrev afterCommand (p : Params) (opcode : Byte) (params : List Param) (a : Nat) (s : State) : State :=
  { s with
    sel := false, acqCnt := p.acqRetryMax - a, encState := .idle, decState := .idle, closing := false
    seqPhase := .turn, seqExpected := opcode, encRemaining := 0x00#8
    txCount := BitVec.ofNat 16 (commandFrame p opcode params s.mem).length
    trace := s.trace ++ commandSent a (commandFrame p opcode params s.mem) }

/-! ### Against any peer -/

/-- The command phase: the command is sent, or the first ACQUIRE times out. -/
theorem commandPhase_any (p : Params) (opcode : Byte) (params : List Param) (s : State) (hp : 1 ≤ p.acqRetryMax)
    (hn : params.length ≤ 255) :
    (∃ a rd d, a < p.acqRetryMax ∧ commandPhase p opcode params s =
      ({ afterCommand p opcode params a s with rdyIn := rd, draws := d }, .ok ())) ∨
    (∃ rd d, commandPhase p opcode params s =
      ({ s with sel := false, acqCnt := 0, rdyIn := rd, draws := d, seqPhase := .cmdAcq, seqExpected := opcode
                trace := s.trace ++ timedOut p.acqRetryMax }, .error (.timeout .ready))) := by
  rcases acquireLink_cases p (enterPhase .cmdAcq { s with seqExpected := opcode }) hp with
    ⟨a, rd, d, ha, e⟩ | ⟨rd, d, e⟩
  · refine .inl ⟨a, rd, d, ha, ?_⟩
    rw [commandPhase, e]
    simp only [andThen_ok]
    rw [writeCommand_eq _ _ _ _ hn]
    simp [releaseLink_eq, yieldFor, emit, enterPhase, commandSent]
  · refine .inr ⟨rd, d, ?_⟩
    rw [commandPhase, e]
    simp [enterPhase]

/-- A reply phase in which the link was acquired, before any of its bytes. -/
abbrev replyAcquired (p : Params) (b : Nat) (rd : List Bool) (d : Nat) (s : State) : State :=
  { s with
    sel := true, acqCnt := p.acqRetryMax - b, rdyIn := rd, draws := d, seqPhase := .rplHdr
    trace := s.trace ++ acquired b }

/-- The reply phase once the link is acquired, against any peer: it only receives, and what it stores is what a
prefix of the destinations was delivered. -/
theorem replyBody_any (p : Params) (passes : Byte → Bool) (dsts : List Dst) (expected : Byte) (s : State) :
    ∃ (bs : List Byte) (before after : List Dst) (payloads : List (List Byte)) (t : State)
      (r : Except OpError (Byte × List Byte)),
      dsts = before ++ after ∧ payloadsFitDsts before payloads ∧ t.startCnt ≤ p.startPollMax ∧
      (andThen (readHeader p expected s) fun n s => andThen (testCount passes n s) fun _ s =>
        andThen (replyItems p dsts n s) fun lens s => (s, .ok (n, lens))) = (t, r) ∧
      ((∃ a, r = .ok a ∧ t = { s with
          sel := false, encState := .idle, decState := .idle, closing := false, seqPhase := .rplEnd
          startCnt := t.startCnt, decRemaining := t.decRemaining, rxIn := t.rxIn, draws := t.draws
          mem := deliver before payloads s.mem, trace := s.trace ++ bs.map .rx ++ [.sel false] }) ∨
       (∃ err, r = .error err ∧ t = { s with
          decState := t.decState, seqPhase := t.seqPhase
          startCnt := t.startCnt, decRemaining := t.decRemaining, rxIn := t.rxIn, draws := t.draws
          mem := deliver before payloads s.mem, trace := s.trace ++ bs.map .rx })) := by
  obtain ⟨bs, c, rd, d, hbs, hc, ⟨n, e⟩ | ⟨err, e⟩⟩ := readHeader_any p expected s
  · rw [e]
    simp only [andThen_ok]
    cases had : passes n with
    | false =>
      refine ⟨bs, [], dsts, [], _, _, rfl, ⟨rfl, nofun, nofun⟩, ?_, by simp [testCount, had]; exact ⟨rfl, rfl⟩,
        .inr ⟨_, rfl, ?_⟩⟩
      · exact hc
      · simp [deliver]
    | true =>
      simp only [testCount, had, if_true, andThen_ok, replyItems]
      obtain ⟨rd', d', n', ⟨ds, payloads, hfit, e'⟩ | ⟨before, dst, after, payloads, len, hd, hfit, _, e'⟩⟩ :=
        readParameters_any (dstsFor n dsts) 0 (enterPhase .rplPar { s with
          startCnt := c, rxIn := rd, draws := d, trace := s.trace ++ bs.map .rx, decRemaining := n
          decState := if n = 0x00#8 then .atEnd else .params })
      · rw [e']
        simp only [andThen_ok]
        obtain ⟨b, rd'', d'', r, e''⟩ := readEnd_any p (enterPhase .rplEnd { s with
          startCnt := c, rxIn := rd', draws := d', decRemaining := n', decState := ds
          mem := deliver (dstsFor n dsts) payloads s.mem, seqPhase := .rplPar
          trace := s.trace ++ bs.map .rx ++ (payloads.flatMap recordBytes).map .rx })
        simp only [enterPhase] at e'' ⊢
        rw [e'']
        cases r with
        | ok u =>
          refine ⟨bs ++ payloads.flatMap recordBytes ++ [b], dsts.take n.toNat, dsts.drop n.toNat, payloads, _, _,
            by simp, hfit, ?_, rfl, .inl ⟨_, rfl, ?_⟩⟩
          · exact hc
          · simp [releaseLink_eq, dstsFor]
        | error err =>
          refine ⟨bs ++ payloads.flatMap recordBytes ++ [b], dsts.take n.toNat, dsts.drop n.toNat, payloads, _, _,
            by simp, hfit, ?_, rfl, .inr ⟨_, rfl, ?_⟩⟩
          · exact hc
          · simp [dstsFor]
      · rw [e']
        refine ⟨bs ++ payloads.flatMap recordBytes ++ [len], before, dst :: after ++ dsts.drop n.toNat, payloads, _, _,
          ?_, hfit, ?_, rfl, .inr ⟨_, rfl, ?_⟩⟩
        · rw [← List.append_assoc, ← hd]
          simp [dstsFor]
        · exact hc
        · simp
  · rw [e]
    refine ⟨bs, [], dsts, [], _, _, rfl, ⟨rfl, nofun, nofun⟩, ?_, rfl, .inr ⟨err, rfl, ?_⟩⟩
    · exact hc
    · simp [deliver]

/-- The traces of an exchange (43_command_driver.md R139): the first ACQUIRE timed out, the second did, or the reply
phase received `bs`. An exchange with no error has the last form. -/
abbrev exchangeEvents {α : Type} (p : Params) (frame : List Byte) (r : Except OpError α) (events : List Event) :
    Prop :=
  (r = .error (.timeout .ready) ∧ events = timedOut p.acqRetryMax ++ [.sel false]) ∨
  (∃ a, a < p.acqRetryMax ∧ r = .error (.timeout .ready) ∧
    events = commandSent a frame ++ timedOut p.acqRetryMax ++ [.sel false]) ∨
  (∃ a b bs, a < p.acqRetryMax ∧ b < p.acqRetryMax ∧
    events = commandSent a frame ++ replyReceived b bs ++ [.sel false])

/-- An exchange against any peer (43_command_driver.md R135, 60_exceptions.md R168, R170): with or without an error
the link ends deselected and both codec machines idle, and only destinations are written. -/
theorem exchange_any (p : Params) (opcode : Byte) (params : List Param) (passes : Byte → Bool) (dsts : List Dst)
    (s : State) (hp : 1 ≤ p.acqRetryMax) (hn : params.length ≤ 255) :
    ∃ (t : State) (r : Except OpError (Byte × List Byte)) (before after : List Dst) (payloads : List (List Byte))
      (events : List Event),
      exchange p opcode params passes dsts s = (t, r) ∧
      dsts = before ++ after ∧ payloadsFitDsts before payloads ∧
      exchangeEvents p (commandFrame p opcode params s.mem) r events ∧
      t.acqCnt ≤ p.acqRetryMax ∧ (t.startCnt ≤ p.startPollMax ∨ t.startCnt = s.startCnt) ∧
      (t.txCount = BitVec.ofNat 16 (commandFrame p opcode params s.mem).length ∨ t.txCount = s.txCount) ∧
      t = { s with
        sel := false, encState := .idle, decState := .idle, closing := false
        seqPhase := t.seqPhase, seqExpected := opcode
        acqCnt := t.acqCnt, encRemaining := t.encRemaining, txCount := t.txCount
        decRemaining := t.decRemaining, startCnt := t.startCnt
        rdyIn := t.rdyIn, rxIn := t.rxIn, draws := t.draws
        mem := deliver before payloads s.mem, trace := s.trace ++ events } := by
  rcases commandPhase_any p opcode params s hp hn with ⟨a, rd, d, ha, e⟩ | ⟨rd, d, e⟩
  · rcases acquireLink_cases p (enterPhase .rplAcq { afterCommand p opcode params a s with rdyIn := rd, draws := d })
      hp with ⟨b, rd', d', hb, e'⟩ | ⟨rd', d', e'⟩
    · obtain ⟨bs, before, after, payloads, t, r, hd, hfit, hc, e'', h⟩ := replyBody_any p passes dsts opcode
        (enterPhase .rplHdr (acquireLink p
          (enterPhase .rplAcq { afterCommand p opcode params a s with rdyIn := rd, draws := d })).1)
      rw [e'] at e'' h
      rw [exchange, e]
      simp only [andThen_ok, replyPhase]
      rw [e']
      simp only [andThen_ok]
      simp only [enterPhase] at e'' ⊢
      rw [e'']
      rcases h with ⟨x, rfl, ht⟩ | ⟨err, rfl, ht⟩
      · refine ⟨t, .ok x, before, after, payloads, _, rfl, hd, hfit, .inr (.inr ⟨a, b, bs, ha, hb, rfl⟩), ?_,
          .inl hc, .inl ?_, ?_⟩
        · rw [ht]
          simp [enterPhase]
        · rw [ht]
          rfl
        · rw [ht]
          simp [enterPhase, replyReceived]
      · refine ⟨abort t, .error err, before, after, payloads, _, rfl, hd, hfit,
          .inr (.inr ⟨a, b, bs, ha, hb, rfl⟩), ?_, .inl hc, .inl ?_, ?_⟩
        · rw [ht]
          simp [enterPhase, abort]
        · rw [ht]
          rfl
        · rw [ht]
          simp [enterPhase, replyReceived, abort, releaseLink_eq]
    · rw [exchange, e]
      simp only [andThen_ok, replyPhase]
      rw [e']
      refine ⟨_, .error (.timeout .ready), [], dsts, [], _, rfl, rfl, ⟨rfl, nofun, nofun⟩,
        .inr (.inl ⟨a, ha, rfl, rfl⟩), ?_, ?_, .inl rfl, ?_⟩
      · simp [abort]
      · exact .inr rfl
      · simp [abort, releaseLink_eq, enterPhase, deliver]
  · rw [exchange, e]
    refine ⟨_, .error (.timeout .ready), [], dsts, [], _, rfl, rfl, ⟨rfl, nofun, nofun⟩,
      .inl ⟨rfl, rfl⟩, ?_, ?_, .inr rfl, ?_⟩
    · simp [abort]
    · exact .inr rfl
    · simp [abort, releaseLink_eq, deliver]

/-! ### Against a peer whose answers are named -/

theorem commandPhase_named (p : Params) (opcode : Byte) (params : List Param) (a : Nat) (s : State)
    (rest : List Bool) (hn : params.length ≤ 255) (ha : a < p.acqRetryMax)
    (h : s.rdyIn = List.replicate a false ++ true :: rest) : commandPhase p opcode params s =
    ({ afterCommand p opcode params a s with rdyIn := rest }, .ok ()) := by
  rw [commandPhase, acquireLink_named p a _ rest ha (by simpa [enterPhase] using h)]
  simp only [andThen_ok]
  rw [writeCommand_eq _ _ _ _ hn]
  simp [releaseLink_eq, yieldFor, emit, enterPhase, commandSent]

/-- The state of an exchange when the second ACQUIRE has found the peer ready. -/
abbrev replyReady (p : Params) (opcode : Byte) (params : List Param) (a b : Nat) (samples : List Bool)
    (s : State) : State :=
  { s with
    sel := true, acqCnt := p.acqRetryMax - b, encState := .idle, decState := .idle, closing := false
    seqPhase := .rplHdr, seqExpected := opcode, encRemaining := 0x00#8, rdyIn := samples
    txCount := BitVec.ofNat 16 (commandFrame p opcode params s.mem).length
    trace := s.trace ++ commandSent a (commandFrame p opcode params s.mem) ++ acquired b }

/-- An exchange in which both ACQUIREs find the peer ready goes on to the bytes of the reply. -/
theorem exchange_reached (p : Params) (opcode : Byte) (params : List Param) (passes : Byte → Bool) (dsts : List Dst)
    (a b : Nat) (s : State) (samples : List Bool) (hn : params.length ≤ 255) (ha : a < p.acqRetryMax)
    (hb : b < p.acqRetryMax)
    (h : s.rdyIn = List.replicate a false ++ true :: (List.replicate b false ++ true :: samples)) :
    exchange p opcode params passes dsts s =
      abortOnRaise (andThen (readHeader p opcode (replyReady p opcode params a b samples s)) fun n s =>
        andThen (testCount passes n s) fun _ s =>
        andThen (replyItems p dsts n s) fun lens s => (s, .ok (n, lens))) := by
  rw [exchange, commandPhase_named p opcode params a s _ hn ha h]
  simp only [andThen_ok, replyPhase]
  rw [acquireLink_named p b _ samples hb (by simp [enterPhase])]
  rfl

/-- An exchange whose second ACQUIRE never finds the peer ready. -/
theorem exchange_second_never (p : Params) (opcode : Byte) (params : List Param) (passes : Byte → Bool)
    (dsts : List Dst) (a : Nat) (s : State) (samples : List Bool) (hn : params.length ≤ 255)
    (ha : a < p.acqRetryMax)
    (h : s.rdyIn = List.replicate a false ++ true :: (List.replicate p.acqRetryMax false ++ samples)) :
    exchange p opcode params passes dsts s =
      ({ afterCommand p opcode params a s with
          acqCnt := 0, rdyIn := samples, seqPhase := .rplAcq
          trace := s.trace ++ commandSent a (commandFrame p opcode params s.mem) ++ timedOut p.acqRetryMax
            ++ [.sel false] },
        .error (.timeout .ready)) := by
  rw [exchange, commandPhase_named p opcode params a s _ hn ha h]
  simp only [andThen_ok, replyPhase]
  rw [acquireLink_never p _ samples (by omega) (by simp [enterPhase])]
  simp [enterPhase, abort, releaseLink_eq]

/-- An exchange whose first ACQUIRE never finds the peer ready. -/
theorem exchange_first_never (p : Params) (opcode : Byte) (params : List Param) (passes : Byte → Bool)
    (dsts : List Dst) (s : State) (samples : List Bool) (hp : 1 ≤ p.acqRetryMax)
    (h : s.rdyIn = List.replicate p.acqRetryMax false ++ samples) :
    exchange p opcode params passes dsts s =
      ({ s with
          sel := false, acqCnt := 0, encState := .idle, decState := .idle, closing := false, rdyIn := samples
          seqPhase := .cmdAcq, seqExpected := opcode
          trace := s.trace ++ timedOut p.acqRetryMax ++ [.sel false] },
        .error (.timeout .ready)) := by
  rw [exchange, commandPhase, acquireLink_never p _ samples hp (by simpa [enterPhase] using h)]
  simp [enterPhase, abort, releaseLink_eq]

/-- The parameters and END of a reply that fits (43_command_driver.md R135). -/
theorem replyItems_named (p : Params) (dsts : List Dst) (n last : Byte) (payloads : List (List Byte)) (s : State)
    (rest : List Byte) (hn : payloads.length = n.toNat) (hs : s.decRemaining = n)
    (hfit : payloadsFitDsts (dstsFor n dsts) payloads)
    (h : s.rxIn = payloads.flatMap recordBytes ++ last :: rest) :
    replyItems p dsts n s =
      (let t : State := { s with
        decState := .idle, decRemaining := 0x00#8, seqPhase := .rplEnd, rxIn := rest
        mem := deliver (dstsFor n dsts) payloads s.mem
        trace := s.trace ++ (payloads.flatMap recordBytes).map .rx ++ [.rx last] }
      if endAccepted p last then (releaseLink t, .ok (lengthsOf payloads))
      else (t, .error (.protocolMismatch .atEnd last (some p.endByte)))) := by
  have hz : n - BitVec.ofNat 8 payloads.length = 0x00#8 := by
    rw [hn]
    simp
  rw [replyItems, readParameters_named _ 0 payloads _ (last :: rest) hfit
    (by simp [enterPhase, hs, hn]) (by simpa [enterPhase] using h)]
  simp only [andThen_ok]
  rw [readEnd_named p last _ rest rfl]
  cases he : endAccepted p last <;> simp [enterPhase, hs, hz]

/-- An exchange with a conforming peer whose reply the caller admits (41_frame_decoder.md R109). -/
theorem exchange_completes (p : Params) (opcode n : Byte) (params : List Param) (passes : Byte → Bool)
    (dsts : List Dst) (payloads : List (List Byte)) (a b : Nat) (s : State) (samples : List Bool)
    (pre rest : List Byte) (hn : params.length ≤ 255) (ha : a < p.acqRetryMax) (hb : b < p.acqRetryMax)
    (h : s.rdyIn = List.replicate a false ++ true :: (List.replicate b false ++ true :: samples))
    (hpre : p.startByte ∉ pre) (hlen : pre.length < p.startPollMax)
    (hcount : payloads.length = n.toNat) (hadmit : passes n = true)
    (hfit : payloadsFitDsts (dstsFor n dsts) payloads)
    (hrx : s.rxIn = pre ++ replyFrameBytes p (confirmByte p opcode) payloads ++ rest) :
    exchange p opcode params passes dsts s =
      ({ replyReady p opcode params a b samples s with
          sel := false, seqPhase := .rplEnd, startCnt := p.startPollMax - pre.length, decRemaining := 0x00#8
          rxIn := rest, mem := deliver (dstsFor n dsts) payloads s.mem
          trace := s.trace ++ commandSent a (commandFrame p opcode params s.mem)
            ++ replyReceived b (pre ++ replyFrameBytes p (confirmByte p opcode) payloads) ++ [.sel false] },
        .ok (n, lengthsOf payloads)) := by
  have hc : BitVec.ofNat 8 payloads.length = n := by
    rw [hcount]
    simp
  rw [exchange_reached p opcode params passes dsts a b s samples hn ha hb h,
    readHeader_named p opcode n pre _ (payloads.flatMap recordBytes ++ p.endByte :: rest) hpre hlen
      (by simp [hrx, replyFrameBytes, frameBody, hc])]
  simp only [andThen_ok, testCount, hadmit, if_true]
  rw [replyItems_named p dsts n p.endByte payloads _ rest hcount rfl hfit rfl]
  simp [endAccepted, releaseLink_eq, replyReceived, replyFrameBytes, frameBody, hc]

/-! ### The operations at rest -/

/-- EXECUTE at rest, with operands the formats can carry, is one exchange (43_command_driver.md R136). -/
theorem execExecute_atRest (opcode : Byte) (params : List Param) (e : Byte) (dsts : List Dst) (s : State)
    (hs : atRest s) (hn : params.length ≤ 255) (hsrc : sourcesHold s.sizes params = true)
    (hd : dsts.length = e.toNat) : execExecute opcode params e dsts s =
      .next (endExchange (exchange Config.hw opcode params (admitExactly e) dsts s) fun _ lens => .lens lens) := by
  simp only [execExecute, executeWith, whenIdle_atRest hs, (paramsFit_iff params).2 hn, (dstsFit_iff e dsts).2 hd, hsrc,
    require_true]

/-- EXECUTE_VARIABLE at rest is one exchange without parameters (43_command_driver.md R137). -/
theorem execExecuteVariable_atRest (opcode m : Byte) (dsts : List Dst) (s : State) (hs : atRest s)
    (hd : dsts.length = m.toNat) : execExecuteVariable opcode m dsts s =
      .next (endExchange (exchange Config.hw opcode [] (admitAtMost m) dsts s) .items) := by
  simp only [execExecuteVariable, executeVariableWith, whenIdle_atRest hs, (dstsFit_iff m dsts).2 hd, require_true]

/-- POLL_DATA_SENT at rest, with operands the formats can carry, is its attempts (43_command_driver.md R138). -/
theorem execPollDataSent_atRest (opcode : Byte) (params : List Param) (dst : Handle) (s : State)
    (hs : atRest s) (hn : params.length ≤ 255) (hsrc : sourcesHold s.sizes params = true) :
    execPollDataSent opcode params dst s =
      .next (pollAttempts Config.hw opcode params dst dataSentRetryMax { s with seqAttempt := 0#5 }) := by
  simp only [execPollDataSent, pollDataSentWith, whenIdle_atRest hs, (paramsFit_iff params).2 hn, hsrc, require_true]

end Sys2Proof.Laws
end

