-- ==== Sys2Proof/Laws/PerInstr.lean ====
section
/-! SUPPORT. A statement about each instruction as syntax: the form `encode` gives it is the one spec/opcode_table.json
lists for its row (30_encoding.md R66 for the operation codes; R51, R52, R59, R63, R56 for the rows of the wire). -/

namespace Sys2Proof.Laws.EncodeMatchesTable

/-- A request on the operation port with code `code` (30_encoding.md R66). -/
def onPort (code : BitVec 4) : Form → Prop
  | .opSel port => port.opSel = code
  | .commandFrame _ => False
  | .replyFrame _ => False
  | .parameterRecord _ => False
  | .commandOpcode _ => False
  | .replyOpcode _ _ => False

/-- The form of each row: its code on the operation port, or the first bytes the table fixes for it. -/
def Statement (i : Instr) : Prop :=
  match i with
  | .noOperation => onPort 0x0#4 (encode i)
  | .encHeader _ _ => onPort 0x1#4 (encode i)
  | .encParam _ _ _ => onPort 0x2#4 (encode i)
  | .encParamU16 _ _ => onPort 0x3#4 (encode i)
  | .padToWord _ => onPort 0x4#4 (encode i)
  | .encEnd => onPort 0x5#4 (encode i)
  | .encodeCommand _ _ _ => onPort 0x6#4 (encode i)
  | .decodeReplyHeader _ => onPort 0x7#4 (encode i)
  | .decodeParameter _ _ => onPort 0x8#4 (encode i)
  | .decodeEnd => onPort 0x9#4 (encode i)
  | .acquire => onPort 0xA#4 (encode i)
  | .release => onPort 0xB#4 (encode i)
  | .execute _ _ _ _ => onPort 0xC#4 (encode i)
  | .executeVariable _ _ _ => onPort 0xD#4 (encode i)
  | .pollDataSent _ _ _ => onPort 0xE#4 (encode i)
  | .reserved => onPort 0xF#4 (encode i)
  | .cmdFrame opcode _ => ∃ rest, encode i = .commandFrame (Config.startByte :: opcode :: rest)
  | .replyFrame confirm _ => ∃ rest, encode i = .replyFrame (Config.startByte :: confirm :: rest)
  | .paramU16 value => encode i = .parameterRecord [0x02#8, value.extractLsb' 8 8, value.extractLsb' 0 8]
  | .setNet count => encode i = .commandOpcode [0x10#8, count]
  | .setNetReply => encode i = .replyOpcode 0x10#8 (0x10#8 ||| Config.replyMarker)
  | .getConnStatus count => encode i = .commandOpcode [0x20#8, count]
  | .getConnStatusReply => encode i = .replyOpcode 0x20#8 (0x20#8 ||| Config.replyMarker)

theorem noOperation : Statement .noOperation := rfl

theorem encHeader (opcode count : Byte) : Statement (.encHeader opcode count) := rfl

theorem encParam (buf : Handle) (len : Byte) (last : Bool) : Statement (.encParam buf len last) := rfl

theorem encParamU16 (value : Half) (last : Bool) : Statement (.encParamU16 value last) := rfl

theorem padToWord (total : Half) : Statement (.padToWord total) := rfl

theorem encEnd : Statement .encEnd := rfl

theorem encodeCommand (opcode : Byte) (params : List Param) (isLast : List Bool) :
    Statement (.encodeCommand opcode params isLast) := rfl

theorem decodeReplyHeader (expected : Byte) : Statement (.decodeReplyHeader expected) := rfl

theorem decodeParameter (dst : Handle) (cap : Nat) : Statement (.decodeParameter dst cap) := rfl

theorem decodeEnd : Statement .decodeEnd := rfl

theorem acquire : Statement .acquire := rfl

theorem release : Statement .release := rfl

theorem execute (opcode : Byte) (params : List Param) (expectedReplyParams : Byte) (dsts : List Dst) :
    Statement (.execute opcode params expectedReplyParams dsts) := rfl

theorem executeVariable (opcode maxItems : Byte) (dsts : List Dst) :
    Statement (.executeVariable opcode maxItems dsts) := rfl

theorem pollDataSent (opcode : Byte) (params : List Param) (dst : Handle) :
    Statement (.pollDataSent opcode params dst) := rfl

theorem reserved : Statement .reserved := rfl

theorem cmdFrame (opcode : Byte) (payloads : List (List Byte)) : Statement (.cmdFrame opcode payloads) := ⟨_, rfl⟩

theorem replyFrame (confirm : Byte) (payloads : List (List Byte)) : Statement (.replyFrame confirm payloads) := ⟨_, rfl⟩

theorem paramU16 (value : Half) : Statement (.paramU16 value) := rfl

theorem setNet (count : Byte) : Statement (.setNet count) := rfl

theorem setNetReply : Statement .setNetReply := rfl

theorem getConnStatus (count : Byte) : Statement (.getConnStatus count) := rfl

theorem getConnStatusReply : Statement .getConnStatusReply := rfl

end Sys2Proof.Laws.EncodeMatchesTable
end

