-- ==== Sys2Proof/Laws/Step.lean ====
section
/-! SUPPORT. What a step can do. -/

namespace Sys2Proof.Laws

open Sys2Proof.Machine

/-- While FCLA is busy a step changes nothing (20_memory.md R48, 43_command_driver.md R140). -/
theorem step_busy {s : State} (h : busy s = true) : step s = .next s := by
  simp only [step, waits, h, if_true]

/-- While FCLA is not busy the oldest request is taken and executed (30_encoding.md R66). -/
theorem step_taken {s : State} {i : Instr} (h : busy s = false) (hd : decode (fetch s).form = .ok i) :
    step s = exec i (accept s) := by
  simp only [step, waits, h, hd, Bool.false_eq_true, if_false]

/-- While FCLA is not busy a request that does not decode is refused (log 12). -/
theorem step_undecoded {s : State} {e : DecodeError} (h : busy s = false) (hd : decode (fetch s).form = .error e) :
    step s = .refused (.undecodable e) := by
  simp only [step, waits, h, hd, Bool.false_eq_true, if_false]

/-- Everything a step that answers a next state can do: nothing, while FCLA is busy, or the request it decoded. -/
theorem step_next {s t : State} (h : step s = .next t) :
    (busy s = true ∧ t = s) ∨ (busy s = false ∧ ∃ i, decode (fetch s).form = .ok i ∧ exec i (accept s) = .next t) := by
  cases hb : busy s with
  | true =>
    rw [step_busy hb] at h
    cases h
    exact .inl ⟨rfl, rfl⟩
  | false =>
    cases hd : decode (fetch s).form with
    | ok i =>
      rw [step_taken hb hd] at h
      exact .inr ⟨rfl, i, rfl, h⟩
    | error e =>
      rw [step_undecoded hb hd] at h
      cases h

end Sys2Proof.Laws
end

