-- ==== Sys2Proof/Tests/Slice0.lean ====
section
/-! SUPPORT. Tests: the checks of WellFormed; the decoder on words written out from 30_encoding.md; one step at a time
on the vectors of 95_test_vectors.md, at the reference values of 00_scope.md R7; and, for the statements that have
hypotheses, a state and operands that meet them. Expected results are the vectors', never the model's own answers. -/

namespace Sys2Proof.Tests

open Sys2Proof.Machine Sys2Proof.Safety

/-! ### Helpers -/

/-- The reference constants of 95_test_vectors.md section 0. -/
def ref : Params where
  startByte := 0xE0#8
  endByte := 0xEE#8
  replyMarker := 0x80#8
  padByte := 0xFF#8
  padPosition := .beforeEnd
  acqRetryMax := 3
  startPollMax := 4
  checkReplyEnd := true
  retryOnTransportError := false

/-- The idle state, an empty trace, at driver level. -/
def quiet : State := { State.reset with trace := [], level := .driver }

/-- `quiet` with the link selected. -/
def held : State := { quiet with sel := true }

/-- `held` with a command frame open: `n` parameters left, `c` bytes sent. -/
def opened (n : Byte) (c : Half) : State := { held with encState := .open, encRemaining := n, txCount := c }

/-- `held` with the closing sequence running after `c` bytes. -/
def closingAt (c : Half) : State := { held with encState := .open, txCount := c, closing := true }

/-- `held` with the decoder at `pos` and `n` parameters left. -/
def decoding (pos : DecState) (n : Byte) : State := { held with decState := pos, decRemaining := n }

/-- Bytes from numerals. -/
def b (l : List Nat) : List Byte := l.map (BitVec.ofNat 8)

/-- A buffer's bytes as cells. -/
def fill (h : Handle) (l : List Nat) : Memory :=
  ((List.range l.length).zip l).map fun x => (256 * h + x.1, BitVec.ofNat 8 x.2)

/-- The state after an operation, if it has one. -/
def answered (o : Answer) : Option State :=
  match o with
  | .next s => some s
  | _ => none

/-- The refusal, if the operation was refused. -/
def refusal (o : Answer) : Option Refusal :=
  match o with
  | .refused r => some r
  | _ => none

/-- "home-wifi" (95_test_vectors.md S1). -/
def homeWifi : List Nat := [0x68, 0x6F, 0x6D, 0x65, 0x2D, 0x77, 0x69, 0x66, 0x69]

/-- `sel 1, rdy 1`, the ACQUIRE of a peer that is ready at once. -/
def up : List Event := [.sel true, .rdy true]
/-- `sel 0, yield TURNAROUND`, between the two phases of an exchange. -/
def turn : List Event := [.sel false, .yielded .turnaround]

/-! ### WellFormed refuses each ill-formed term -/

theorem test_wf_encodeCommand_count :
    (Instr.encodeCommand 0x30#8 (List.replicate 256 (.u16 0#16)) (terminalFlags 256)).wellFormed = false := by
  simp [-List.reduceReplicate, Instr.wellFormed, paramsFit, maxParams]
theorem test_wf_encodeCommand_flags :
    (Instr.encodeCommand 0x30#8 [.u16 1#16, .u16 2#16] [true, true]).wellFormed = false := by decide
theorem test_wf_execute_count :
    (Instr.execute 0x30#8 (List.replicate 256 (.u16 0#16)) 0#8 []).wellFormed = false := by
  simp [-List.reduceReplicate, Instr.wellFormed, paramsFit, maxParams]
theorem test_wf_execute_dsts : (Instr.execute 0x30#8 [] 2#8 [⟨7, 1⟩]).wellFormed = false := by decide
theorem test_wf_executeVariable_dsts : (Instr.executeVariable 0x27#8 1#8 [⟨7, 1⟩, ⟨8, 1⟩]).wellFormed = false := by
  decide
theorem test_wf_pollDataSent_count :
    (Instr.pollDataSent 0x31#8 (List.replicate 256 (.u16 0#16)) 7).wellFormed = false := by
  simp [-List.reduceReplicate, Instr.wellFormed, paramsFit, maxParams]
theorem test_wf_cmdFrame_count : (Instr.cmdFrame 0x30#8 (List.replicate 256 [])).wellFormed = false := by
  simp [-List.reduceReplicate, Instr.wellFormed, payloadsFit, maxParams]
theorem test_wf_cmdFrame_payload : (Instr.cmdFrame 0x30#8 [List.replicate 256 0#8]).wellFormed = false := by
  simp [-List.reduceReplicate, Instr.wellFormed, payloadsFit, maxParams, maxParamLen]
theorem test_wf_replyFrame_count : (Instr.replyFrame 0xB0#8 (List.replicate 256 [])).wellFormed = false := by
  simp [-List.reduceReplicate, Instr.wellFormed, payloadsFit, maxParams]
theorem test_wf_replyFrame_payload : (Instr.replyFrame 0xB0#8 [List.replicate 256 0#8]).wellFormed = false := by
  simp [-List.reduceReplicate, Instr.wellFormed, payloadsFit, maxParams, maxParamLen]

/-! ### Decoding words of the spec's encodings -/

/-- 30_encoding.md R66: every `op_sel` code. -/
theorem test_decode_opSel : (List.range 16).map (decodeTableWord 8) =
    [some .noOperation, some (.encHeader 0#8 0#8), some (.encParam 0 0#8 false), some (.encParamU16 0#16 false),
      some (.padToWord 0#16), some .encEnd, some (.encodeCommand 0#8 [] []), some (.decodeReplyHeader 0#8),
      some (.decodeParameter 0 0), some .decodeEnd, some .acquire, some .release, some (.execute 0#8 [] 0#8 []),
      some (.executeVariable 0#8 0#8 []), some (.pollDataSent 0#8 [] 0), some .reserved] := by decide
/-- 30_encoding.md R67: the operand fields, at values no two of which agree. -/
theorem test_decode_fields_encoder :
    decode (.opSel { opSel := 0x1#4, opcode := 0x11#8, count := 2#8 }) = .ok (.encHeader 0x11#8 2#8) ∧
    decode (.opSel { opSel := 0x2#4, buf := 9, len := 2#8, last := true }) = .ok (.encParam 9 2#8 true) ∧
    decode (.opSel { opSel := 0x3#4, value := 0x1F90#16, last := true }) = .ok (.encParamU16 0x1F90#16 true) ∧
    decode (.opSel { opSel := 0x4#4, total := 10#16 }) = .ok (.padToWord 10#16) ∧
    decode (.opSel {
      opSel := 0x6#4, opcode := 0x11#8, params := [.raw 9 2#8, .u16 0x1F90#16], isLast := [false, true] })
      = .ok (.encodeCommand 0x11#8 [.raw 9 2#8, .u16 0x1F90#16] [false, true]) :=
  ⟨rfl, rfl, rfl, rfl, rfl⟩
/-- 30_encoding.md R67. -/
theorem test_decode_fields_others :
    decode (.opSel { opSel := 0x7#4, expected := 0x20#8, opcode := 0x11#8 }) = .ok (.decodeReplyHeader 0x20#8) ∧
    decode (.opSel { opSel := 0x8#4, dst := 7, cap := 300, buf := 9 }) = .ok (.decodeParameter 7 300) ∧
    decode (.opSel { opSel := 0xC#4, opcode := 0x20#8, expectedReplyParams := 1#8, maxItems := 3#8, dsts := [⟨7, 1⟩] })
      = .ok (.execute 0x20#8 [] 1#8 [⟨7, 1⟩]) ∧
    decode (.opSel { opSel := 0xD#4, opcode := 0x27#8, expectedReplyParams := 1#8, maxItems := 1#8, dsts := [⟨7, 8⟩] })
      = .ok (.executeVariable 0x27#8 1#8 [⟨7, 8⟩]) ∧
    decode (.opSel { opSel := 0xE#4, opcode := 0x31#8, params := [.raw 5 1#8], dst := 7, buf := 9 })
      = .ok (.pollDataSent 0x31#8 [.raw 5 1#8] 7) :=
  ⟨rfl, rfl, rfl, rfl, rfl⟩
/-- 30_encoding.md R51: the frame of vector E8, and vector E7 with one filler byte short (E20). -/
theorem test_decode_cmdFrame :
    decodeWith ref (.commandFrame (b [0xE0, 0x11, 2, 2, 0x61, 0x62, 2, 0x1F, 0x90, 0xFF, 0xFF, 0xEE])) =
      .ok (.cmdFrame 0x11#8 [b [0x61, 0x62], b [0x1F, 0x90]]) ∧
    decodeWith ref (.commandFrame (b ([0xE0, 0x10, 1, 9] ++ homeWifi ++ [0xFF, 0xEE]))) = .error .badTail :=
  ⟨rfl, rfl⟩
/-- E20: a wrong first byte; a LEN that runs past the end; and 30_encoding.md R71: a wrong END. -/
theorem test_decode_cmdFrame_refused :
    decodeWith ref (.commandFrame (b [0xE1, 0x20, 0, 0xEE])) = .error .notStart ∧
    decodeWith ref (.commandFrame (b [0xE0, 0x30, 1, 5, 0xAA, 0xEE])) = .error .truncated ∧
    decodeWith ref (.commandFrame (b [0xE0, 0x20, 0, 0xE0])) = .error .badTail :=
  ⟨rfl, rfl, rfl⟩
/-- 30_encoding.md R52, the reply of program G2, whose filler would be wrong in a reply. -/
theorem test_decode_replyFrame :
    decodeWith ref (.replyFrame (b [0xE0, 0x90, 1, 1, 1, 0xEE])) = .ok (.replyFrame 0x90#8 [b [1]]) ∧
    decodeWith ref (.replyFrame (b [0xE0, 0x90, 1, 1, 1, 0xFF, 0xEE])) = .error .badTail :=
  ⟨rfl, rfl⟩
/-- 30_encoding.md R59 and vector E17; a record of another length is not this row. -/
theorem test_decode_paramU16 :
    decodeTableWord 24 0x021234 = some (.paramU16 0x1234#16) ∧ decodeTableWord 24 0x011234 = none := ⟨rfl, rfl⟩
/-- 30_encoding.md R63. -/
theorem test_decode_command_opcodes :
    decodeTableWord 8 0x10 = some (.setNet 0#8) ∧ decodeTableWord 8 0x20 = some (.getConnStatus 0#8) ∧
    decode (.commandOpcode [0x20#8, 5#8]) = .ok (.getConnStatus 5#8) ∧ decodeTableWord 8 0x11 = none := by decide
/-- 30_encoding.md R56, R63 at the reference marker: 0x90, 0xA0; 0x20 lacks the marker (S3). -/
theorem test_decode_reply_opcodes :
    decodeWith ref (.replyOpcode 0x10#8 0x90#8) = .ok .setNetReply ∧
    decodeWith ref (.replyOpcode 0x20#8 0xA0#8) = .ok .getConnStatusReply ∧
    decodeWith ref (.replyOpcode 0x20#8 0x20#8) = .error .notConfirmed := ⟨rfl, rfl, rfl⟩

/-! ### The words of the table as the first operation after reset -/

theorem test_first_noOperation : step (State.reset.withFetchWord 8 0x0)
    = .next { State.reset with level := .driver } := rfl
theorem test_first_reserved : step (State.reset.withFetchWord 8 0xF) = .refused .reservedOpSel := rfl
theorem test_first_release : (answered (step (State.reset.withFetchWord 8 0xB))).map (fun s => (s.trace, s.result))
    = some ([.sel false, .sel false], some .done) := by decide
theorem test_first_header : step (State.reset.withFetchWord 8 0x1) = .refused .linkNotSelected := rfl

/-! ### The frame encoder (95_test_vectors.md section 2.1) -/

/-- E14. -/
theorem test_encHeader_opens : (answered (encHeaderWith ref 0x11#8 2#8 held)).map
    (fun s => (txStream s.trace, s.txCount, s.encRemaining, s.encState))
    = some (b [0xE0, 0x11, 2], 3#16, 2#8, .open) := by decide
/-- E1: no parameters. -/
theorem test_encHeader_empty : (answered (encHeaderWith ref 0x20#8 0#8 held)).map
    (fun s => (txStream s.trace, s.txCount, s.encState)) = some (b [0xE0, 0x20, 0, 0xEE], 4#16, .idle) := by decide
/-- E15. -/
theorem test_encParam_middle : (answered (encParamWith ref 9 2#8 false
    { opened 2#8 3#16 with mem := fill 9 [0x61, 0x62] })).map
    (fun s => (txStream s.trace, s.txCount, s.encRemaining, s.encState))
    = some (b [2, 0x61, 0x62], 6#16, 1#8, .open) := by decide
/-- E19: `last` against `ENC_REMAINING`. -/
theorem test_encParam_last_disagrees :
    refusal (encParamWith ref 9 1#8 true (opened 2#8 3#16)) = some .lastDisagrees ∧
    refusal (encParamWith ref 9 1#8 false (opened 1#8 3#16)) = some .lastDisagrees ∧
    refusal (encParamWith ref 9 1#8 false held) = some .encoderNotOpen := by decide
/-- E16: the last parameter closes the frame. -/
theorem test_encParamU16_closes : (answered (encParamU16With ref 0x1F90#16 true (opened 1#8 6#16))).map
    (fun s => (txStream s.trace, s.txCount, s.encRemaining, s.encState))
    = some (b [2, 0x1F, 0x90, 0xFF, 0xFF, 0xEE], 12#16, 0#8, .idle) := by decide
/-- E17: big-endian, the high byte first. -/
theorem test_encParamU16_order : (answered (encParamU16With ref 0x0050#16 false (opened 2#8 3#16))).map
    (fun s => (txStream s.trace, s.txCount)) = some (b [2, 0, 0x50], 6#16) := by decide
/-- E18: the filler of totals 4 to 8, 14 and 65284. -/
theorem test_padToWord_counts : [4, 5, 6, 7, 8, 14, 65284].map fillerCount = [0, 3, 2, 1, 0, 2, 0] := by decide
/-- E18 inside the closing sequence. -/
theorem test_padToWord_step : (answered (padToWordWith ref 10#16 (closingAt 9#16))).map
    (fun s => (txStream s.trace, s.txCount)) = some (b [0xFF, 0xFF], 11#16) := by decide
/-- E16's END; and U2 outside the closing sequence. -/
theorem test_encEnd_step : (answered (encEndWith ref (closingAt 11#16))).map
    (fun s => (txStream s.trace, s.txCount, s.encState)) = some (b [0xEE], 12#16, .idle) ∧
    refusal (encEndWith ref (opened 1#8 11#16)) = some .outsideClosing := by decide
/-- 10_state.md R24: bytes the client has not written are sent, the values free; U7 refuses a buffer that is shorter
than the length given with it, and one exactly as long is not. -/
theorem test_encParam_source_length :
    (answered (encParamWith ref 9 2#8 false { opened 2#8 3#16 with mem := fill 9 [0x61], sizes := [(9, 2)] })).map
      (fun s => (txStream s.trace, s.txCount))
      = some ([2#8, 0x61#8, Config.unwrittenByte (cellAddr 9 1)], 6#16) ∧
    refusal (encParamWith ref 9 2#8 false { opened 2#8 3#16 with sizes := [(9, 1)] }) = some .sourceTooShort :=
  ⟨rfl, rfl⟩
/-- E8. -/
theorem test_encodeCommand_mixed : (answered (encodeCommandWith ref 0x11#8 [.raw 9 2#8, .u16 0x1F90#16] [false, true]
    { held with mem := fill 9 [0x61, 0x62] })).map (fun s => (txStream s.trace, s.txCount, s.encRemaining, s.encState))
    = some (b [0xE0, 0x11, 2, 2, 0x61, 0x62, 2, 0x1F, 0x90, 0xFF, 0xFF, 0xEE], 12#16, 0#8, .idle) := by decide
/-- E7 under `PAD_POSITION = AFTER_END`. -/
theorem test_encodeCommand_after_end : (answered (encodeCommandWith { ref with padPosition := .afterEnd } 0x10#8
    [.raw 9 9#8] [true] { held with mem := fill 9 homeWifi })).map (fun s => (txStream s.trace, s.txCount))
    = some (b ([0xE0, 0x10, 1, 9] ++ homeWifi ++ [0xEE, 0xFF, 0xFF]), 16#16) := by decide
/-- E10 as the row CMD_FRAME: payload bytes equal to START, END and PAD. -/
theorem test_cmdFrame_no_escape : (answered (cmdFrameWith ref 0x30#8 [b [0xE0, 0xEE, 0xFF]] held)).map
    (fun s => (txStream s.trace, s.txCount)) = some (b [0xE0, 0x30, 1, 3, 0xE0, 0xEE, 0xFF, 0xEE], 8#16) := by decide
/-- E9 as the row CMD_FRAME: two zero-length parameters. -/
theorem test_cmdFrame_empty_records : (answered (cmdFrameWith ref 0x30#8 [[], []] held)).map
    (fun s => (txStream s.trace, s.txCount)) = some (b [0xE0, 0x30, 2, 0, 0, 0xFF, 0xFF, 0xEE], 8#16) := by decide
/-- E16 as the row PARAM_U16, and E17's 0x1234 in the middle of a frame. -/
theorem test_paramU16_step :
    (answered (paramU16With ref 0x1F90#16 (opened 1#8 6#16))).map (fun s => (txStream s.trace, s.txCount))
      = some (b [2, 0x1F, 0x90, 0xFF, 0xFF, 0xEE], 12#16) ∧
    (answered (paramU16With ref 0x1234#16 (opened 2#8 3#16))).map (fun s => (txStream s.trace, s.encState))
      = some (b [2, 0x12, 0x34], .open) := by decide

/-! ### The frame decoder (95_test_vectors.md section 2.2) -/

/-- DV2: START at the last allowed position. -/
theorem test_decodeReplyHeader_stray : (answered (decodeReplyHeaderWith ref 0x20#8
    { held with rxIn := b [0xFF, 0, 0xEE, 0xE0, 0xA0, 0] })).map (fun s => (s.result, s.decState, s.startCnt, s.rxIn))
    = some (some (.count 0#8), .atEnd, 1, []) := by decide
/-- DV3: the fifth byte is not read; DV7: the first START ends the scan. -/
theorem test_decodeReplyHeader_errors :
    (answered (decodeReplyHeaderWith ref 0x20#8 { held with rxIn := b [0xFF, 0xFF, 0xFF, 0xFF, 0xE0] })).map
      (fun s => (s.result, s.decState, s.startCnt, s.rxIn))
      = some (some (.error (.timeout .start)), .idle, 0, b [0xE0]) ∧
    (answered (decodeReplyHeaderWith ref 0x20#8 { held with rxIn := b [0xE0, 0xE0, 0xA0, 1] })).map
      (fun s => (s.result, s.decState, s.rxIn))
      = some (some (.error (.protocolMismatch .opcode 0xE0#8 (some 0xA0#8))), .idle, b [0xA0, 1]) := by decide
/-- DV9 and DV16. -/
theorem test_decodeParameter_stores :
    (answered (decodeParameterWith 7 4 { decoding .params 1#8 with
      rxIn := b [2, 0xAA, 0xBB], mem := fill 7 [0x11, 0x22, 0x33, 0x44] })).map
      (fun s => (s.result, s.mem, s.decState, s.decRemaining))
      = some (some (.len 2#8), fill 7 [0xAA, 0xBB, 0x33, 0x44], .atEnd, 0#8) ∧
    (answered (decodeParameterWith 7 4 { decoding .params 2#8 with
      rxIn := b [1, 0xAA], mem := fill 7 [0x11, 0x22, 0x33, 0x44] })).map (fun s => (s.mem, s.decState, s.decRemaining))
      = some (fill 7 [0xAA, 0x22, 0x33, 0x44], .params, 1#8) := by decide
/-- DV11, DV12: a length equal to the capacity fits, one more overflows on the LEN byte alone. -/
theorem test_decodeParameter_bound :
    (answered (decodeParameterWith 7 4 { decoding .params 1#8 with rxIn := b [4, 1, 2, 3, 4] })).map
      (fun s => (s.result, s.mem)) = some (some (.len 4#8), fill 7 [1, 2, 3, 4]) ∧
    (answered (decodeParameterWith 7 4 { decoding .params 1#8 with
      rxIn := b [5, 1, 2, 3, 4, 5], mem := fill 7 [0x11] })).map (fun s => (s.result, s.mem, s.decState, s.rxIn))
      = some (some (.error (.bufferOverflow 5#8 4 none)), fill 7 [0x11], .idle, b [1, 2, 3, 4, 5]) := by decide
/-- DV18, DV19, DV20. -/
theorem test_decodeEnd_checks :
    (answered (decodeEndWith ref { decoding .atEnd 0#8 with rxIn := b [0xEE] })).map (fun s => (s.result, s.decState))
      = some (some .done, .idle) ∧
    (answered (decodeEndWith ref { decoding .atEnd 0#8 with rxIn := b [0] })).map (fun s => (s.result, s.decState))
      = some (some (.error (.protocolMismatch .atEnd 0#8 (some 0xEE#8))), .idle) ∧
    (answered (decodeEndWith { ref with checkReplyEnd := false } { decoding .atEnd 0#8 with rxIn := b [0] })).map
      (fun s => (s.result, s.decState)) = some (some .done, .idle) := by decide
/-- DV21. -/
theorem test_decodeEnd_refused :
    refusal (decodeEndWith ref (decoding .params 1#8)) = some .decoderNotAtEnd ∧
    refusal (decodeParameterWith 7 4 (decoding .atEnd 0#8)) = some .decoderNotInParams ∧
    refusal (decodeReplyHeaderWith ref 0x20#8 (decoding .params 1#8)) = some .decoderNotIdle ∧
    refusal (decodeEndWith ref { decoding .atEnd 0#8 with sel := false }) = some .linkNotSelected := by decide
/-- DV22: `ParseReply`. -/
theorem test_parseReply : (parseReply ref 0x10#8 [1] (b [0xFF, 0xE0, 0x90, 1, 1, 1, 0xEE])).map
    (fun r => (r.delivered, r.consumed)) = some ([b [1]], 7) := by decide

/-! ### The link arbiter (95_test_vectors.md section 2.3) -/

/-- A3, A4. -/
theorem test_acquire_budget :
    (answered (acquireWith ref { quiet with rdyIn := [false, false, true] })).map
      (fun s => (s.trace, s.sel, s.acqCnt, s.result)) = some ([.sel true, .rdy false, .yielded .poll, .rdy false,
        .yielded .poll, .rdy true], true, 1, some .done) ∧
    (answered (acquireWith ref { quiet with rdyIn := [false, false, false] })).map
      (fun s => (s.trace, s.sel, s.acqCnt, s.result)) = some ([.sel true, .rdy false, .yielded .poll, .rdy false,
        .yielded .poll, .rdy false, .sel false], false, 0, some (.error (.timeout .ready))) := by decide
/-- A5 (a budget of one) and A8. -/
theorem test_acquire_edges :
    (answered (acquireWith { ref with acqRetryMax := 1 } { quiet with rdyIn := [false] })).map (fun s => s.trace)
      = some [.sel true, .rdy false, .sel false] ∧ refusal (acquireWith ref held) = some .linkSelected := by decide
/-- A7, A9. -/
theorem test_release_gives_up :
    (answered (execRelease quiet)).map (fun s => (s.trace, s.sel)) = some ([.sel false], false) ∧
    (answered (execRelease (opened 2#8 3#16))).map (fun s => (s.sel, s.encState, s.decState))
      = some (false, .idle, .idle) := by decide

/-! ### The Command Driver (95_test_vectors.md sections 2.4 and 3) -/

/-- X1, G1. -/
theorem test_execute_trace : (answered (executeWith ref 0x20#8 [] 1#8 [⟨7, 1⟩] { quiet with
    rdyIn := [true, true], rxIn := b [0xE0, 0xA0, 1, 1, 3, 0xEE], mem := fill 7 [0x77] })).map
    (fun s => (s.trace, s.result, s.mem))
    = some (up ++ (b [0xE0, 0x20, 0, 0xEE]).map .tx ++ turn ++ up ++ (b [0xE0, 0xA0, 1, 1, 3, 0xEE]).map .rx
        ++ [.sel false], some (.lens [1#8]), fill 7 [3]) := by decide
/-- X7: the first parameter is kept, the second untouched. -/
theorem test_execute_overflow : (answered (executeWith ref 0x30#8 [] 2#8 [⟨7, 2⟩, ⟨8, 2⟩] { quiet with
    rdyIn := [true, true], rxIn := b [0xE0, 0xB0, 2, 2, 0xAA, 0xBB, 3, 1, 2, 3, 0xEE],
    mem := fill 7 [0x11, 0x22] ++ fill 8 [0x33, 0x44] })).map (fun s => (s.result, s.mem, s.rxIn, s.sel))
    = some (some (.error (.bufferOverflow 3#8 2 (some 1))), fill 7 [0xAA, 0xBB] ++ fill 8 [0x33, 0x44],
      b [1, 2, 3, 0xEE], false) := by decide
/-- X10a with two destinations of three untouched; X10c, a count above the bound. -/
theorem test_executeVariable_bound :
    (answered (executeVariableWith ref 0x27#8 3#8 [⟨7, 8⟩, ⟨8, 8⟩, ⟨9, 8⟩] { quiet with
      rdyIn := [true, true], rxIn := b [0xE0, 0xA7, 2, 2, 0x61, 0x62, 3, 0x78, 0x79, 0x7A, 0xEE],
      mem := fill 9 [0] })).map (fun s => (s.result, s.mem))
      = some (some (.items 2#8 [2#8, 3#8]), fill 7 [0x61, 0x62] ++ fill 8 [0x78, 0x79, 0x7A] ++ fill 9 [0]) ∧
    (answered (executeVariableWith ref 0x27#8 1#8 [⟨7, 8⟩] { quiet with
      rdyIn := [true, true], rxIn := b [0xE0, 0xA7, 2, 1, 0x41] })).map (fun s => (s.result, s.mem, s.rxIn))
      = some (some (.error (.protocolMismatch .count 2#8 none)), [], b [1, 0x41]) := by decide
/-- G5: three attempts. -/
theorem test_pollDataSent_third : (answered (pollDataSentWith ref 0x31#8 [.raw 5 1#8] 7 { quiet with
    rdyIn := List.replicate 6 true, mem := fill 5 [0],
    rxIn := b [0xE0, 0xB1, 1, 1, 0, 0xEE, 0xE0, 0xB1, 1, 1, 0, 0xEE, 0xE0, 0xB1, 1, 1, 1, 0xEE] })).map
    (fun s => (s.seqAttempt, s.result, s.mem, s.trace.count (.yielded .retry)))
    = some (3#5, some .done, fill 5 [0] ++ fill 7 [1], 2) := by decide
/-- X11: a transport error in the second attempt ends the polling. -/
theorem test_pollDataSent_error : (answered (pollDataSentWith ref 0x31#8 [] 7 { quiet with
    rdyIn := List.replicate 4 true, rxIn := b [0xE0, 0xB1, 1, 1, 0, 0xEE, 0, 0, 0, 0] })).map
    (fun s => (s.seqAttempt, s.result, s.seqPhase, s.trace.count (.yielded .retry)))
    = some (2#5, some (.error (.timeout .start)), .idle, 1) := by decide

/-- X12: a status of length 0 is not true, though a stale byte in the buffer is 1; of length 2 it overflows. -/
theorem test_pollDataSent_length : (answered (pollDataSentWith ref 0x31#8 [] 7 { quiet with
    mem := fill 7 [1], rdyIn := List.replicate 4 true,
    rxIn := b [0xE0, 0xB1, 1, 0, 0xEE, 0xE0, 0xB1, 1, 2, 5, 6, 0xEE] })).map (fun s => (s.seqAttempt, s.result, s.mem))
    = some (2#5, some (.error (.bufferOverflow 2#8 1 (some 0))), fill 7 [1]) := by decide

/-! ### The rows of the wire formats -/

/-- The reply of G1 presented, whatever the state. -/
theorem test_replyFrame_presents : (answered (replyFrameWith ref 0xA0#8 [b [3]] { quiet with rxIn := b [0xFF] })).map
    (fun s => (s.rxIn, s.trace)) = some (b [0xFF, 0xE0, 0xA0, 1, 1, 3, 0xEE], []) := by decide
/-- The OPCODE bytes of S1 and E1 (30_encoding.md R63), at the machine's own START and END. -/
theorem test_wire_opcodes :
    (answered (execSetNet 1#8 held)).map (fun s => txStream s.trace) = some [Config.startByte, 0x10#8, 1#8] ∧
    (answered (execGetConnStatus 0#8 held)).map (fun s => txStream s.trace)
      = some [Config.startByte, 0x20#8, 0#8, Config.endByte] := ⟨rfl, rfl⟩
/-- S3 at the machine's own marker: SET_NET.reply and GET_CONN_STATUS.reply need a selected link. -/
theorem test_wire_replies_refused :
    refusal (execSetNetReply quiet) = some .linkNotSelected ∧
    refusal (execGetConnStatusReply (decoding .params 1#8)) = some .decoderNotIdle := by decide

/-! ### Witnesses: for each statement with hypotheses, a state and operands that meet them, clause by clause -/

/-- A byte that is not START. -/
def other : Byte := Config.startByte + 1#8

/-- As many bytes before START as the budget allows. -/
def strayMost : List Byte := List.replicate (Config.hw.startPollMax - 1) other

/-- A peer that is ready at the last allowed sample of each of two ACQUIREs. -/
def lateTwice : List Bool :=
  List.replicate (Config.hw.acqRetryMax - 1) false ++ true ::
    (List.replicate (Config.hw.acqRetryMax - 1) false ++ [true])

/-- At rest, buffer 9 holding "ab", before such a peer, which presents `bytes`. -/
def meeting (bytes : List Byte) : State :=
  { State.reset with mem := fill 9 [0x61, 0x62], rdyIn := lateTwice, rxIn := bytes }

/-- Two parameters, one of each form. -/
def twoParams : List Param := [.raw 9 2#8, .u16 0x1F90#16]

/-- More parameters than a frame carries. -/
def tooMany : List Param := List.replicate 256 (.u16 0#16)

theorem other_ne_start : Config.hw.startByte ≠ other := by
  simp [other, Config.hw]

theorem start_not_in_stray (n : Nat) : Config.hw.startByte ∉ List.replicate n other := by
  simp [List.mem_replicate, other_ne_start]

theorem acqRetryMax_pos : 0 < Config.hw.acqRetryMax := by simp [Config.hw]

theorem last_sample : Config.hw.acqRetryMax - 1 < Config.hw.acqRetryMax := by
  have := acqRetryMax_pos; omega

theorem strayMost_stray : strayBytes strayMost := by
  refine ⟨start_not_in_stray _, ?_⟩
  simp [strayMost, Config.hw]

theorem strayNone_stray : strayBytes [] := ⟨by simp, by simp [Config.hw]⟩

theorem plus_one_ne (x : Byte) : x + 1#8 ≠ x := by simp

theorem witness_DecodeOfEncodeIsIdentity :
    (Instr.encodeCommand 0x11#8 twoParams [false, true]).wellFormed = true ∧
    (Instr.pollDataSent 0x31#8 (List.replicate 255 (.u16 0#16)) 7).wellFormed = true ∧
    (Instr.cmdFrame 0x30#8 [[], List.replicate 255 0#8]).wellFormed = true := by
  refine ⟨by decide, ?_, ?_⟩ <;>
    simp [-List.reduceReplicate, Instr.wellFormed, paramsFit, payloadsFit, maxParams, maxParamLen]

theorem witness_ParseCommandInvertsEncodeFrame : (List.replicate 255 (Param.u16 0#16)).length ≤ 255 := by
  rw [List.length_replicate]

/-- A frame with filler of another value than PAD, in both positions; a form that decodes; a request that does not. -/
theorem witness_OnlyTheFormatsDecode :
    parseCommand ref (b [0xE0, 0x30, 1, 1, 7, 0x55, 0x66, 0xEE]) = .ok (0x30#8, [b [7]]) ∧
    parseCommand { ref with padPosition := .afterEnd } (b [0xE0, 0x30, 1, 1, 7, 0xEE, 0x55, 0x66])
      = .ok (0x30#8, [b [7]]) ∧
    (decodeWith ref (.replyOpcode 0x10#8 0x90#8) = .ok .setNetReply ∧
      (∀ port, Form.replyOpcode 0x10#8 0x90#8 ≠ .opSel port) ∧
      ∀ bytes, Form.replyOpcode 0x10#8 0x90#8 ≠ .commandFrame bytes) ∧
    (decode (.commandOpcode [0x11#8, 0x00#8]) = .error .unknownOpcode ∧ quiet.seqPhase = .idle) :=
  ⟨rfl, rfl, ⟨rfl, nofun, nofun⟩, rfl, rfl⟩

theorem witness_FrameLengths : payloadsFit [] = true ∧
    payloadsFit (List.replicate 255 (List.replicate 255 0#8)) = true ∧
    (List.replicate 255 (List.replicate 255 0#8)).length = 255 ∧
    ∀ x ∈ List.replicate 255 (List.replicate 255 0#8), x.length = 255 := by
  refine ⟨rfl, ?_, List.length_replicate, fun x h => ?_⟩
  · simp [-List.reduceReplicate, payloadsFit, maxParams, maxParamLen]
  · rw [List.eq_of_mem_replicate h, List.length_replicate]

/-- A primitive and a driver operation, each waiting on the port. -/
theorem witness_StepRunsTheDecodedInstruction :
    let acquire : Form := .opSel { opSel := 0xA#4 }
    let query : Form := .opSel { opSel := 0xC#4, opcode := 0x20#8, expectedReplyParams := 1#8, dsts := [⟨7, 1⟩] }
    decode acquire = .ok .acquire ∧ Instr.acquire.wellFormed = true ∧
    ({ quiet with port := [⟨.driver, acquire⟩] } : State).seqPhase = .idle ∧
    decode query = .ok (.execute 0x20#8 [] 1#8 [⟨7, 1⟩]) ∧
    (Instr.execute 0x20#8 [] 1#8 [⟨7, 1⟩]).wellFormed = true ∧
    ({ quiet with port := [⟨.client, query⟩] } : State).seqPhase = .idle := by
  refine ⟨rfl, rfl, rfl, rfl, rfl, rfl⟩

/-- A driver operation, a primitive, and a request that does not decode, each with a busy and an idle state. -/
theorem witness_DriverRequestsWaitWhileBusy :
    (decode (.opSel { opSel := 0xD#4, opcode := 0x27#8 }) = .ok (.executeVariable 0x27#8 0#8 []) ∧
      isDriverOperation (.executeVariable 0x27#8 0#8 []) = true) ∧
    decode (.opSel { opSel := 0xB#4 }) = .ok .release ∧
    (∀ form ∈ [Form.opSel { opSel := 0xD#4, opcode := 0x27#8 }, .opSel { opSel := 0xB#4 }, .commandOpcode [0x11#8, 0#8]],
      let r : Request := ⟨.driver, form⟩
      ({ quiet with port := [r], seqPhase := .retryWait } : State).seqPhase ≠ .idle ∧
      ({ quiet with port := [r] } : State).seqPhase = .idle) := by
  refine ⟨⟨rfl, rfl⟩, rfl, by decide⟩

/-- 20_memory.md R48: a primitive presented while FCLA is busy is held, with the state and the port as they are. -/
theorem test_busy_holds_primitive :
    let s : State := { State.reset.withFetchWord 8 0xB with seqPhase := .retryWait }
    step s = .next s ∧ s.port.length = 1 := ⟨rfl, rfl⟩

theorem witness_OnlyDriverOperationsAtClientLevel :
    isPrimitive .release = true ∧ isDriverOperation (.pollDataSent 0x31#8 [] 7) = true ∧
    State.reset.level = .client := ⟨rfl, rfl, rfl⟩

theorem witness_CodecRefusedOnDeselectedLink :
    (isPrimitive .decodeEnd = true ∧ Instr.decodeEnd ≠ .acquire ∧ Instr.decodeEnd ≠ .release ∧ quiet.sel = false) ∧
    ∃ t, exec .acquire { quiet with rdyIn := [true] } = .next t ∧ t.sel = true := ⟨by decide, _, rfl, rfl⟩

/-- One state for each clause; the `last` marks at 1 and 2 parameters left. -/
theorem witness_OperationsOutOfFrameOrderRefused :
    ((opened 2#8 3#16).level = .driver ∧ (opened 2#8 3#16).sel = true ∧ (opened 2#8 3#16).encState = .open) ∧
    (¬(true = true ↔ (opened 2#8 3#16).encRemaining = 0x01#8) ∧
      ¬(false = true ↔ (opened 1#8 3#16).encRemaining = 0x01#8)) ∧
    (held.level = .driver ∧ held.sel = true ∧ held.encState = .idle ∧ held.decState ≠ .params ∧
      held.decState ≠ .atEnd ∧ held.closing = false) ∧
    ((decoding .params 1#8).sel = true ∧ (decoding .params 1#8).decState ≠ .idle) := by decide

theorem witness_WireRowsRefusedAsTheirPrimitives :
    State.reset.level = .client ∧ (quiet.level = .driver ∧ quiet.sel = false) ∧
    ((opened 2#8 3#16).level = .driver ∧ (opened 2#8 3#16).sel = true ∧ (opened 2#8 3#16).encState = .open) ∧
    ((decoding .atEnd 0#8).level = .driver ∧ (decoding .atEnd 0#8).sel = true ∧
      (decoding .atEnd 0#8).encState = .idle ∧ (decoding .atEnd 0#8).decState ≠ .idle) := by decide

theorem witness_DriverOperationsNeedTheLinkAtRest :
    isDriverOperation (.execute 0x20#8 [] 0#8 []) = true ∧ (held.seqPhase = .idle ∧ held.sel = true) ∧
    (let s : State := { opened 2#8 3#16 with sel := false }
     s.seqPhase = .idle ∧ s.sel = false ∧ s.encState = .open) ∧
    (let s : State := { decoding .params 1#8 with sel := false }
     s.seqPhase = .idle ∧ s.sel = false ∧ s.encState = .idle ∧ s.decState ≠ .idle) := by decide

theorem tooMany_length : 255 < tooMany.length := by rw [tooMany, List.length_replicate]; decide

theorem payload_too_long : payloadsFit [List.replicate 256 0#8] = false := by
  simp [-List.reduceReplicate, payloadsFit, maxParamLen]

theorem witness_UnrepresentableOperandsRefused :
    headerReady held ∧ atRest quiet ∧ 255 < tooMany.length ∧ payloadsFit [List.replicate 256 0#8] = false ∧
    (twoParams.length ≤ 255 ∧ [true, true] ≠ terminalFlags twoParams.length) ∧
    ([⟨7, 1⟩] : List Dst).length ≠ (2#8).toNat ∧
    (([⟨7, 1⟩] : List Dst).length = (1#8).toNat ∧
      atRest { quiet with sizes := [(9, 1)] } ∧ sourcesHold [(9, 1)] twoParams = false) ∧
    (headerReady { held with sizes := [(9, 1)] } ∧ twoParams.length ≤ 255) ∧
    (let s : State := { opened 1#8 3#16 with sizes := [(9, 1)] }
     recordReady s ∧ (true = true ↔ s.encRemaining = 0x01#8) ∧ bufferLength s.sizes 9 = some 1 ∧ 1 < (2#8).toNat) := by
  refine ⟨by decide, by decide, tooMany_length, payload_too_long, by decide, by decide, by decide, by decide, by decide⟩

/-- Counts 1 and 0, and a state of each refusal. -/
theorem witness_HeaderWritesThreeBytesOrTheEmptyFrame :
    (headerReady held ∧ 0x01#8 ≠ 0x00#8) ∧ (headerReady held ∧ 0x00#8 = 0x00#8) ∧
    ¬(quiet.sel = true ∧ quiet.encState = .idle) ∧
    ¬((opened 1#8 3#16).sel = true ∧ (opened 1#8 3#16).encState = .idle) := by decide

theorem witness_WireOpcodesOpenTheirFrames : headerReady held ∧ 0x01#8 ≠ 0x00#8 := by decide

/-- The first byte and the last of a buffer of 255. -/
theorem witness_SourceBytesAreReadInOrder :
    (0 < (255#8).toNat ∧ memRead? [(cellAddr 9 0, 0x61#8), (cellAddr 9 254, 0x62#8)] (cellAddr 9 0) = some 0x61#8) ∧
    (254 < (255#8).toNat ∧
      memRead? [(cellAddr 9 0, 0x61#8), (cellAddr 9 254, 0x62#8)] (cellAddr 9 254) = some 0x62#8) := by decide

/-- Two parameters left and one; the greatest length, the greatest `TX_COUNT`. -/
theorem witness_ParameterWritesItsRecord :
    (let s : State := { opened 2#8 3#16 with mem := fill 9 [0x61, 0x62] }
     recordReady s ∧ bufferHolds s.sizes 9 2#8 = true ∧ s.encRemaining ≠ 0x01#8) ∧
    (let s : State := opened 1#8 65027#16
     recordReady s ∧ bufferHolds s.sizes 9 0#8 = true ∧ s.encRemaining = 0x01#8 ∧ encoderOk s) ∧
    ¬(quiet.sel = true ∧ quiet.encState = .open ∧ (true = true ↔ quiet.encRemaining = 0x01#8)) := by decide

theorem witness_NumericParameterWritesItsRecord :
    (recordReady (opened 255#8 3#16) ∧ (opened 255#8 3#16).encRemaining ≠ 0x01#8) ∧
    (recordReady (opened 1#8 65027#16) ∧ (opened 1#8 65027#16).encRemaining = 0x01#8 ∧
      encoderOk (opened 1#8 65027#16)) ∧
    ¬(held.sel = true ∧ held.encState = .open ∧ (true = true ↔ held.encRemaining = 0x01#8)) := by decide

theorem witness_WireNumericWritesItsRecord :
    (recordReady (opened 2#8 3#16) ∧ (opened 2#8 3#16).encRemaining ≠ 0x01#8) ∧
    (recordReady (opened 1#8 3#16) ∧ (opened 1#8 3#16).encRemaining = 0x01#8 ∧ encoderOk (opened 1#8 3#16)) := by
  decide

/-- The least and the greatest body of a frame (30_encoding.md R61). -/
theorem witness_ClosingSequenceEndsTheFrame :
    (opened 0#8 3#16).txCount.toNat + 4 < 65536 ∧ (opened 0#8 65283#16).txCount.toNat + 4 < 65536 := by decide

theorem witness_PadToWordSendsFiller :
    closingReady (closingAt 9#16) ∧ ¬(held.closing = true ∧ held.sel = true) := by decide

theorem witness_EncEndSendsEnd :
    closingReady (closingAt 11#16) ∧ ¬(held.closing = true ∧ held.sel = true) := by decide

theorem witness_EncodeCommandSendsEncodeFrame :
    let s : State := { held with mem := fill 9 [0x61, 0x62] }
    headerReady s ∧ twoParams.length ≤ 255 ∧ sourcesHold s.sizes twoParams = true := by decide

theorem witness_CommandFrameIsSentAsLaidOut :
    headerReady held ∧ payloadsFit (List.replicate 255 (List.replicate 255 0#8)) = true :=
  ⟨by decide, witness_FrameLengths.2.1⟩

/-- START after the most stray bytes; no START within the budget; a byte that does not confirm; a deselected link. -/
theorem witness_ReplyHeaderIsFoundConfirmedAndCounted :
    (let s : State := { held with rxIn := replyHead strayMost 0x20#8 0#8 ++ [] }
     decoderReady .idle s ∧ strayBytes strayMost ∧ s.rxIn = replyHead strayMost 0x20#8 0#8 ++ []) ∧
    (let pre := List.replicate Config.hw.startPollMax other
     let s : State := { held with rxIn := pre ++ [Config.startByte] }
     decoderReady .idle s ∧ Config.hw.startByte ∉ pre ∧ pre.length = Config.hw.startPollMax ∧
       s.rxIn = pre ++ [Config.startByte]) ∧
    (let op := (0x20#8 ||| Config.hw.replyMarker) + 1#8
     let s : State := { held with rxIn := strayMost ++ [Config.hw.startByte, op] ++ [] }
     decoderReady .idle s ∧ strayBytes strayMost ∧ s.rxIn = strayMost ++ [Config.hw.startByte, op] ++ [] ∧
       op ≠ 0x20#8 ||| Config.hw.replyMarker) ∧
    ¬(quiet.sel = true ∧ quiet.decState = .idle) := by
  refine ⟨⟨⟨rfl, rfl, rfl⟩, strayMost_stray, rfl⟩, ⟨⟨rfl, rfl, rfl⟩, start_not_in_stray _, ?_, rfl⟩,
    ⟨⟨rfl, rfl, rfl⟩, strayMost_stray, rfl, plus_one_ne _⟩, by decide⟩
  exact List.length_replicate

theorem witness_WireRepliesAreConfirmedByTheirMarker :
    (let s : State := { held with rxIn := replyHead [] 0x10#8 255#8 ++ [] }
     decoderReady .idle s ∧ strayBytes [] ∧ s.rxIn = replyHead [] 0x10#8 255#8 ++ []) ∧
    (let op := (0x20#8 ||| Config.hw.replyMarker) + 1#8
     let s : State := { held with rxIn := strayMost ++ [Config.hw.startByte, op] ++ [] }
     decoderReady .idle s ∧ strayBytes strayMost ∧ s.rxIn = strayMost ++ [Config.hw.startByte, op] ++ [] ∧
       op ≠ 0x20#8 ||| Config.hw.replyMarker) :=
  ⟨⟨⟨rfl, rfl, rfl⟩, strayNone_stray, rfl⟩, ⟨rfl, rfl, rfl⟩, strayMost_stray, rfl, plus_one_ne _⟩

/-- A length equal to the capacity, and one above it (DV11, DV12). -/
theorem witness_ParameterIsStoredOrOverflows :
    (let s : State := { decoding .params 1#8 with rxIn := 4#8 :: b [1, 2, 3, 4] ++ [] }
     decoderReady .params s ∧ (b [1, 2, 3, 4]).length = (4#8).toNat ∧ (4#8).toNat ≤ 4 ∧
       s.rxIn = 4#8 :: b [1, 2, 3, 4] ++ []) ∧
    (let s : State := { decoding .params 1#8 with rxIn := 5#8 :: b [1, 2, 3, 4, 5] }
     decoderReady .params s ∧ 4 < (5#8).toNat ∧ s.rxIn = 5#8 :: b [1, 2, 3, 4, 5]) ∧
    ¬(held.sel = true ∧ held.decState = .params) := by decide

theorem witness_DecodeEndChecksTheTerminator :
    (let s : State := { decoding .atEnd 0#8 with rxIn := Config.endByte :: [] }
     decoderReady .atEnd s ∧ s.rxIn = Config.endByte :: []) ∧
    (let s : State := { decoding .atEnd 0#8 with rxIn := (Config.endByte + 1#8) :: [] }
     decoderReady .atEnd s ∧ s.rxIn = (Config.endByte + 1#8) :: [] ∧ Config.endByte + 1#8 ≠ Config.endByte) ∧
    ¬((decoding .params 1#8).sel = true ∧ (decoding .params 1#8).decState = .atEnd) :=
  ⟨⟨⟨rfl, rfl, rfl⟩, rfl⟩, ⟨⟨rfl, rfl, rfl⟩, rfl, plus_one_ne _⟩, by decide⟩

theorem witness_DecoderOperationsTerminate :
    decoderReady .idle held ∧ decoderReady .params (decoding .params 1#8) ∧
    decoderReady .atEnd (decoding .atEnd 0#8) := by decide

/-- A reply of one parameter that fits exactly, and one that overflows by one byte. -/
theorem witness_DecoderDeliversWhatParseReplySays :
    (parseReply Config.hw 0x20#8 (([⟨7, 1⟩] : List Dst).map Dst.cap)
      [Config.hw.startByte, confirmByte Config.hw 0x20#8, 1#8, 1#8, 3#8, Config.hw.endByte]).isSome = true ∧
    (parseReply Config.hw 0x20#8 (([⟨7, 0⟩] : List Dst).map Dst.cap)
      [Config.hw.startByte, confirmByte Config.hw 0x20#8, 1#8, 1#8]).isSome = true := by
  constructor <;>
    simp [parseReply, parseReplyFrom, parseReplyBody, parseReplyRecords, confirms, overflows, endAccepted, Config.hw]

theorem witness_ReplyFrameIsPresentedAsLaidOut : payloadsFit [b [3], []] = true := by decide

/-- Ready at the last allowed sample; never ready; a selected link. -/
theorem witness_AcquireWaitsForReadyWithinItsBudget :
    (let s : State := { quiet with rdyIn := List.replicate (Config.hw.acqRetryMax - 1) false ++ true :: [] }
     s.level = .driver ∧ s.sel = false ∧ Config.hw.acqRetryMax - 1 < Config.hw.acqRetryMax ∧
       s.rdyIn = List.replicate (Config.hw.acqRetryMax - 1) false ++ true :: []) ∧
    (let s : State := { quiet with rdyIn := List.replicate Config.hw.acqRetryMax false ++ [true] }
     s.level = .driver ∧ s.sel = false ∧ s.rdyIn = List.replicate Config.hw.acqRetryMax false ++ [true]) ∧
    held.sel = true := ⟨⟨rfl, rfl, last_sample, rfl⟩, ⟨rfl, rfl, rfl⟩, rfl⟩

theorem witness_ArbiterTerminates : quiet.level = .driver ∧ quiet.sel = false := ⟨rfl, rfl⟩

theorem witness_ReleaseDeselectsFromAnyState : (opened 2#8 3#16).level = .driver ∧ quiet.level = .driver :=
  ⟨rfl, rfl⟩

theorem witness_ExecuteCompletesWithAConformingPeer :
    let reply := replyFrameBytes Config.hw (0x11#8 ||| Config.hw.replyMarker) [b [1]]
    let s := meeting (strayMost ++ reply ++ [])
    atRest s ∧ twoParams.length ≤ 255 ∧ sourcesHold s.sizes twoParams = true ∧ [b [1]].length = (1#8).toNat ∧
    payloadsFitDsts [⟨7, 1⟩] [b [1]] ∧ Config.hw.acqRetryMax - 1 < Config.hw.acqRetryMax ∧
    s.rdyIn = List.replicate (Config.hw.acqRetryMax - 1) false ++ true ::
      (List.replicate (Config.hw.acqRetryMax - 1) false ++ true :: []) ∧
    strayBytes strayMost ∧ s.rxIn = strayMost ++ reply ++ [] :=
  ⟨⟨rfl, rfl, rfl, rfl⟩, by decide, by simp only [meeting]; decide, rfl, by decide, last_sample, rfl,
    strayMost_stray, rfl⟩

/-- As many items as the bound, and none. -/
theorem witness_ExecuteVariableCompletesUpToItsBound :
    let reply := replyFrameBytes Config.hw (0x27#8 ||| Config.hw.replyMarker) [b [0x61, 0x62], []]
    let s := meeting (strayMost ++ reply ++ [])
    atRest s ∧ ([⟨7, 2⟩, ⟨8, 0⟩] : List Dst).length = (2#8).toNat ∧ [b [0x61, 0x62], []].length ≤ (2#8).toNat ∧
    payloadsFitDsts (([⟨7, 2⟩, ⟨8, 0⟩] : List Dst).take 2) [b [0x61, 0x62], []] ∧
    payloadsFitDsts (([⟨7, 2⟩, ⟨8, 0⟩] : List Dst).take 0) [] ∧
    Config.hw.acqRetryMax - 1 < Config.hw.acqRetryMax ∧ s.rdyIn = lateTwice ∧ strayBytes strayMost ∧
    s.rxIn = strayMost ++ reply ++ [] :=
  ⟨⟨rfl, rfl, rfl, rfl⟩, rfl, by decide, by decide, by decide, last_sample, rfl, strayMost_stray, rfl⟩

/-- Both operations; EXECUTE_VARIABLE with a bound of 0. -/
theorem witness_ExecuteTimesOutWithoutReady :
    exchangeRequest (.execute 0x11#8 twoParams 1#8 [⟨7, 1⟩]) 0x11#8 twoParams 1#8 [⟨7, 1⟩] ∧
    (exchangeRequest (.executeVariable 0x27#8 0#8 []) 0x27#8 [] 0#8 [] ∧ ([] : List Dst).length = (0#8).toNat) ∧
    (let s : State := { State.reset with
       mem := fill 9 [0x61, 0x62], rdyIn := List.replicate Config.hw.acqRetryMax false ++ [] }
     atRest s ∧ twoParams.length ≤ 255 ∧ sourcesHold s.sizes twoParams = true ∧
       ([⟨7, 1⟩] : List Dst).length = (1#8).toNat ∧
       s.rdyIn = List.replicate Config.hw.acqRetryMax false ++ []) ∧
    (let s : State := { State.reset with
       rdyIn := List.replicate (Config.hw.acqRetryMax - 1) false ++ true ::
         (List.replicate Config.hw.acqRetryMax false ++ []) }
     atRest s ∧ sourcesHold s.sizes [] = true ∧ Config.hw.acqRetryMax - 1 < Config.hw.acqRetryMax ∧
       s.rdyIn = List.replicate (Config.hw.acqRetryMax - 1) false ++ true ::
         (List.replicate Config.hw.acqRetryMax false ++ [])) :=
  ⟨.inl rfl, ⟨.inr ⟨rfl, rfl⟩, rfl⟩, ⟨⟨rfl, rfl, rfl, rfl⟩, by decide, by simp only; decide, rfl, rfl⟩,
    ⟨rfl, rfl, rfl, rfl⟩, rfl, last_sample, rfl⟩

/-- Each of the three errors: no START, a byte that does not confirm, another count; for EXECUTE_VARIABLE one above its
bound, while the bound itself passes. -/
theorem witness_ExecuteErrorsBeforeAnyParameter :
    (let s := meeting (List.replicate Config.hw.startPollMax other ++ [] ++ [])
     atRest s ∧ twoParams.length ≤ 255 ∧ sourcesHold s.sizes twoParams = true ∧
       ([⟨7, 1⟩] : List Dst).length = (1#8).toNat ∧ Config.hw.acqRetryMax - 1 < Config.hw.acqRetryMax ∧
       s.rdyIn = lateTwice ∧ Config.hw.startByte ∉ List.replicate Config.hw.startPollMax other ∧
       (List.replicate Config.hw.startPollMax other).length = Config.hw.startPollMax) ∧
    (Config.hw.startByte ∉ strayMost ∧ strayMost.length < Config.hw.startPollMax ∧
      (0x20#8 ||| Config.hw.replyMarker) + 1#8 ≠ 0x20#8 ||| Config.hw.replyMarker ∧ 2#8 ≠ 1#8) ∧
    (let op := (0x20#8 ||| Config.hw.replyMarker) + 1#8
     let s := meeting (strayMost ++ [Config.hw.startByte, op] ++ [])
     s.rxIn = strayMost ++ [Config.hw.startByte, op] ++ [] ∧ s.rdyIn = lateTwice ∧ s.seqPhase = .idle) ∧
    (exchangeRequest (.execute 0x20#8 twoParams 1#8 [⟨7, 1⟩]) 0x20#8 twoParams 1#8 [⟨7, 1⟩] ∧
      ¬countPasses (.execute 0x20#8 twoParams 1#8 [⟨7, 1⟩]) 0x20#8 1#8 0#8 [⟨7, 1⟩]) ∧
    (exchangeRequest (.executeVariable 0x27#8 1#8 [⟨7, 1⟩]) 0x27#8 [] 1#8 [⟨7, 1⟩] ∧
      ¬countPasses (.executeVariable 0x27#8 1#8 [⟨7, 1⟩]) 0x27#8 1#8 2#8 [⟨7, 1⟩] ∧
      countPasses (.executeVariable 0x27#8 1#8 [⟨7, 1⟩]) 0x27#8 1#8 1#8 [⟨7, 1⟩]) :=
  ⟨⟨⟨rfl, rfl, rfl, rfl⟩, by decide, by simp only [meeting]; decide, rfl, last_sample, rfl,
    start_not_in_stray _, List.length_replicate⟩,
   ⟨strayMost_stray.1, strayMost_stray.2, plus_one_ne _, by decide⟩, ⟨rfl, rfl, rfl⟩, by decide, by decide⟩

/-- One item more than the bound, at the least and the greatest bound that has one. -/
theorem witness_ExecuteVariableRejectsExcessItems :
    let s := meeting (replyHead strayMost 0x27#8 1#8 ++ [])
    atRest s ∧ ([] : List Dst).length = (0#8).toNat ∧ (0#8).toNat < (1#8).toNat ∧ (254#8).toNat < (255#8).toNat ∧
    Config.hw.acqRetryMax - 1 < Config.hw.acqRetryMax ∧ s.rdyIn = lateTwice ∧ strayBytes strayMost ∧
    s.rxIn = replyHead strayMost 0x27#8 1#8 ++ [] :=
  ⟨⟨rfl, rfl, rfl, rfl⟩, rfl, by decide, by decide, last_sample, rfl, strayMost_stray, rfl⟩

/-- X7: the second of two parameters is one byte too long; for EXECUTE_VARIABLE (X10e) the first of one, with a bound of
two. -/
theorem witness_ExecuteOverflowKeepsEarlierParameters :
    (let head := replyHead strayMost 0x30#8 2#8 ++ [b [0xAA, 0xBB]].flatMap recordBytes
     let s := meeting (head ++ 3#8 :: [])
     let dsts : List Dst := [⟨7, 2⟩] ++ ⟨8, 2⟩ :: []
     let i := Instr.execute 0x30#8 twoParams 2#8 dsts
     exchangeRequest i 0x30#8 twoParams 2#8 dsts ∧ countPasses i 0x30#8 2#8 2#8 dsts ∧
     atRest s ∧ sourcesHold s.sizes twoParams = true ∧ dsts.length = (2#8).toNat ∧
     ([⟨7, 2⟩] : List Dst).length < (2#8).toNat ∧ payloadsFitDsts [⟨7, 2⟩] [b [0xAA, 0xBB]] ∧
     (⟨8, 2⟩ : Dst).cap < (3#8).toNat ∧ Config.hw.acqRetryMax - 1 < Config.hw.acqRetryMax ∧ s.rdyIn = lateTwice ∧
     strayBytes strayMost ∧ s.rxIn = head ++ 3#8 :: []) ∧
    (let head := replyHead strayMost 0x27#8 1#8 ++ [].flatMap recordBytes
     let s := meeting (head ++ 9#8 :: [])
     let dsts : List Dst := [] ++ ⟨7, 8⟩ :: [⟨8, 8⟩]
     let i := Instr.executeVariable 0x27#8 2#8 dsts
     exchangeRequest i 0x27#8 [] 2#8 dsts ∧ countPasses i 0x27#8 2#8 1#8 dsts ∧ atRest s ∧
     dsts.length = (2#8).toNat ∧ ([] : List Dst).length < (1#8).toNat ∧ payloadsFitDsts [] [] ∧
     (⟨7, 8⟩ : Dst).cap < (9#8).toNat ∧ s.rdyIn = lateTwice ∧ s.rxIn = head ++ 9#8 :: []) :=
  ⟨⟨.inl rfl, by decide, ⟨rfl, rfl, rfl, rfl⟩, by simp only [meeting]; decide, rfl, by decide, by decide, by decide,
    last_sample, rfl, strayMost_stray, rfl⟩,
   .inr ⟨rfl, rfl⟩, by decide, ⟨rfl, rfl, rfl, rfl⟩, rfl, by decide, by decide, by decide, rfl, rfl⟩

/-- One parameter; for EXECUTE_VARIABLE no item, with a bound of one. -/
theorem witness_ExecuteWrongEndKeepsAllParameters :
    (let head := replyHead strayMost 0x20#8 1#8 ++ [b [3]].flatMap recordBytes
     let s := meeting (head ++ (Config.endByte + 1#8) :: [])
     let i := Instr.execute 0x20#8 twoParams 1#8 [⟨7, 1⟩]
     exchangeRequest i 0x20#8 twoParams 1#8 [⟨7, 1⟩] ∧ countPasses i 0x20#8 1#8 1#8 [⟨7, 1⟩] ∧
     atRest s ∧ sourcesHold s.sizes twoParams = true ∧ ([⟨7, 1⟩] : List Dst).length = (1#8).toNat ∧
     [b [3]].length = (1#8).toNat ∧ payloadsFitDsts (([⟨7, 1⟩] : List Dst).take (1#8).toNat) [b [3]] ∧
     Config.endByte + 1#8 ≠ Config.endByte ∧ Config.hw.acqRetryMax - 1 < Config.hw.acqRetryMax ∧
     s.rdyIn = lateTwice ∧ strayBytes strayMost ∧ s.rxIn = head ++ (Config.endByte + 1#8) :: []) ∧
    (let head := replyHead strayMost 0x27#8 0#8 ++ [].flatMap recordBytes
     let s := meeting (head ++ (Config.endByte + 1#8) :: [])
     let i := Instr.executeVariable 0x27#8 1#8 [⟨7, 1⟩]
     exchangeRequest i 0x27#8 [] 1#8 [⟨7, 1⟩] ∧ countPasses i 0x27#8 1#8 0#8 [⟨7, 1⟩] ∧ atRest s ∧
     payloadsFitDsts (([⟨7, 1⟩] : List Dst).take (0#8).toNat) [] ∧ s.rdyIn = lateTwice ∧
     s.rxIn = head ++ (Config.endByte + 1#8) :: []) :=
  ⟨⟨.inl rfl, by decide, ⟨rfl, rfl, rfl, rfl⟩, by simp only [meeting]; decide, rfl, rfl, by decide, plus_one_ne _,
    last_sample, rfl, strayMost_stray, rfl⟩,
   .inr ⟨rfl, rfl⟩, by decide, ⟨rfl, rfl, rfl, rfl⟩, by decide, rfl, rfl⟩

/-- An attempt of the slowest and noisiest peer, with the given status. -/
def slowest (status : List Byte) : PollAttempt :=
  ⟨Config.hw.acqRetryMax - 1, Config.hw.acqRetryMax - 1, strayMost, status⟩

theorem slowest_conforms (status : List Byte) : (slowest status).conforms := ⟨last_sample, last_sample, strayMost_stray⟩

/-- `n` attempts with no status byte and one with the byte zero. -/
def falseAttempts (n : Nat) : List PollAttempt := List.replicate n (slowest []) ++ [slowest [0x00#8]]

theorem falseAttempts_false (n : Nat) : ∀ x ∈ falseAttempts n, x.conforms ∧ x.notTrue := by
  intro x hx
  rcases List.mem_append.1 hx with h | h
  · rw [List.eq_of_mem_replicate h]
    exact ⟨slowest_conforms _, .inr rfl⟩
  · rw [List.mem_singleton.1 h]
    exact ⟨slowest_conforms _, .inl rfl⟩

/-- At rest, the peer acting out the attempts, a stale true status in the buffer. -/
def polled (attempts : List PollAttempt) : State :=
  { State.reset with
    mem := fill 7 [1]
    rdyIn := attempts.flatMap PollAttempt.samples ++ []
    rxIn := attempts.flatMap (PollAttempt.bytes 0x31#8) ++ [] }

/-- A status that is true in the 25th attempt, and in the first; the command's source is not the status buffer. -/
theorem witness_PollSucceedsAtTheFirstTrueStatus :
    (let s := polled (falseAttempts 23 ++ [slowest [0x01#8]])
     atRest s ∧ [Param.raw 5 1#8].length ≤ 255 ∧ sourcesHold s.sizes [.raw 5 1#8] = true ∧
     (∀ x, [Param.raw 5 1#8].map (paramBytes (memWrite s.mem (cellAddr 7 0) x))
       = [Param.raw 5 1#8].map (paramBytes s.mem)) ∧
     (falseAttempts 23).length < 25 ∧ (∀ x ∈ falseAttempts 23, x.conforms ∧ x.notTrue) ∧
     (slowest [0x01#8]).conforms ∧ (slowest [0x01#8]).status = [0x01#8] ∧ 0x01#8 ≠ 0x00#8 ∧
     s.rdyIn = (falseAttempts 23).flatMap PollAttempt.samples ++ (slowest [0x01#8]).samples ++ [] ∧
     s.rxIn = (falseAttempts 23).flatMap (PollAttempt.bytes 0x31#8) ++ (slowest [0x01#8]).bytes 0x31#8 ++ []) ∧
    (let s := polled [slowest [0x01#8]]
     atRest s ∧ s.rdyIn = [].flatMap PollAttempt.samples ++ (slowest [0x01#8]).samples ++ [] ∧
     s.rxIn = [].flatMap (PollAttempt.bytes 0x31#8) ++ (slowest [0x01#8]).bytes 0x31#8 ++ []) := by
  refine ⟨⟨⟨rfl, rfl, rfl, rfl⟩, by decide, by simp only [polled]; decide, fun _ => rfl, ?_, falseAttempts_false 23,
    slowest_conforms _, rfl, by decide, ?_, ?_⟩, ⟨rfl, rfl, rfl, rfl⟩, ?_, ?_⟩
  · simp [falseAttempts]
  all_goals simp [polled, List.flatMap_append]

theorem witness_PollFailsAfterTwentyFiveZeros :
    let s := polled (falseAttempts 23 ++ [slowest []])
    atRest s ∧ [Param.raw 5 1#8].length ≤ 255 ∧ sourcesHold s.sizes [.raw 5 1#8] = true ∧
    (∀ x, [Param.raw 5 1#8].map (paramBytes (memWrite s.mem (cellAddr 7 0) x))
      = [Param.raw 5 1#8].map (paramBytes s.mem)) ∧
    (falseAttempts 23).length = 24 ∧ (∀ x ∈ falseAttempts 23 ++ [slowest []], x.conforms ∧ x.notTrue) ∧
    s.rdyIn = (falseAttempts 23 ++ [slowest []]).flatMap PollAttempt.samples ++ [] ∧
    s.rxIn = (falseAttempts 23 ++ [slowest []]).flatMap (PollAttempt.bytes 0x31#8) ++ [] := by
  refine ⟨⟨rfl, rfl, rfl, rfl⟩, by decide, by simp only [polled]; decide, fun _ => rfl, by simp [falseAttempts], ?_,
    rfl, rfl⟩
  intro x hx
  rcases List.mem_append.1 hx with h | h
  · exact falseAttempts_false 23 x h
  · rw [List.mem_singleton.1 h]
    exact ⟨slowest_conforms _, .inr rfl⟩

theorem witness_PollEndsAtATransportError :
    let s : State := { State.reset with
      mem := fill 9 [0x61, 0x62], rdyIn := List.replicate Config.hw.acqRetryMax false ++ [] }
    atRest s ∧ twoParams.length ≤ 255 ∧ sourcesHold s.sizes twoParams = true ∧
    s.rdyIn = List.replicate Config.hw.acqRetryMax false ++ [] :=
  ⟨⟨rfl, rfl, rfl, rfl⟩, by decide, by simp only; decide, rfl⟩

/-- A link that is never ready in the first attempt; and in the second (after one status of length 0) and the 25th (after
24 statuses that are not true). -/
theorem witness_PollEndsAtAnyTransportError :
    let exec31 (s : State) := exec (.execute 0x31#8 [] 0x01#8 [⟨7, 1⟩]) s
    let samples := List.replicate Config.hw.acqRetryMax false ++ []
    (let s : State := { State.reset with rdyIn := samples }
     atRest s ∧ ∃ t, exec31 s = .next t ∧ t.result = some (.error (.timeout .ready))) ∧
    (∀ attempts ∈ [[], falseAttempts 22],
      let last := slowest []
      let frame := encodeFrame Config.hw 0x31#8 []
      let s : State := { polled [] with
        rdyIn := (attempts ++ [last]).flatMap PollAttempt.samples ++ samples
        rxIn := (attempts ++ [last]).flatMap (PollAttempt.bytes 0x31#8) ++ [] }
      let between : State := { s with
        trace := s.trace ++ (attempts ++ [last]).flatMap (fun x => x.events 0x31#8 frame ++ [.yielded .retry])
        mem := if ∀ x ∈ attempts ++ [last], x.status = [] then s.mem else memWrite s.mem (cellAddr 7 0) 0x00#8
        rdyIn := samples, rxIn := []
        acqCnt := Config.hw.acqRetryMax - last.second
        txCount := BitVec.ofNat 16 frame.length, encRemaining := 0x00#8
        startCnt := Config.hw.startPollMax - last.stray.length, decRemaining := 0x00#8
        seqExpected := 0x31#8, closing := false }
      atRest s ∧ attempts.length + 1 < 25 ∧ (∀ x ∈ attempts ++ [last], x.conforms ∧ x.notTrue) ∧
      ∃ t, exec31 between = .next t ∧ t.result = some (.error (.timeout .ready))) := by
  have key (s : State) (h : atRest s) (hr : s.rdyIn = List.replicate Config.hw.acqRetryMax false ++ []) :
      ∃ t, exec (.execute 0x31#8 [] 0x01#8 [⟨7, 1⟩]) s = .next t ∧ t.result = some (.error (.timeout .ready)) :=
    ⟨_, Laws.execExecute_atRest 0x31#8 [] 0x01#8 [⟨7, 1⟩] s h (by decide) rfl rfl,
      by rw [Laws.exchange_first_never _ _ _ _ _ s [] (Nat.succ_le_succ (Nat.zero_le _)) hr]; rfl⟩
  refine ⟨⟨⟨rfl, rfl, rfl, rfl⟩, key _ ⟨rfl, rfl, rfl, rfl⟩ rfl⟩, fun attempts ha => ?_⟩
  have hf : ∀ x ∈ attempts, x.conforms ∧ x.notTrue := by
    rcases List.mem_pair.1 ha with rfl | rfl
    · nofun
    · exact falseAttempts_false 22
  refine ⟨⟨rfl, rfl, rfl, rfl⟩, ?_, ?_, key _ ⟨rfl, rfl, rfl, rfl⟩ rfl⟩
  · rcases List.mem_pair.1 ha with rfl | rfl <;> simp [falseAttempts]
  · intro x hx
    rcases List.mem_append.1 hx with h | h
    · exact hf x h
    · rw [List.mem_singleton.1 h]
      exact ⟨slowest_conforms _, .inr rfl⟩

/-- Each driver operation, one with a source buffer exactly as long as its parameter. -/
theorem witness_DriverNeverLeavesTheLinkHeld :
    atRest { quiet with sizes := [(9, 2)] } ∧ sourcesHold [(9, 2)] twoParams = true ∧
    (isDriverOperation (.execute 0x11#8 twoParams 1#8 [⟨7, 1⟩]) = true ∧
      (Instr.execute 0x11#8 twoParams 1#8 [⟨7, 1⟩]).wellFormed = true) ∧
    (isDriverOperation (.executeVariable 0x27#8 0#8 []) = true ∧
      (Instr.executeVariable 0x27#8 0#8 []).wellFormed = true) ∧
    (isDriverOperation (.pollDataSent 0x31#8 twoParams 7) = true ∧
      (Instr.pollDataSent 0x31#8 twoParams 7).wellFormed = true) := by decide

theorem witness_CommandPhasesSendReplyPhasesReceive : isDriverOperation (.pollDataSent 0x31#8 [] 7) = true ∧
    atRest quiet ∧ ∃ t, exec (.executeVariable 0x27#8 0#8 []) quiet = .next t := ⟨rfl, by decide, _, rfl⟩

theorem witness_DriverTracesArePairedAndHalfDuplex : isDriverOperation (.execute 0x20#8 [] 1#8 [⟨7, 1⟩]) = true ∧
    atRest quiet ∧ ∃ t, exec (.execute 0x20#8 [] 1#8 [⟨7, 1⟩]) quiet = .next t := ⟨rfl, by decide, _, rfl⟩

/-- An open frame with all of 255 parameters left, given up by a RELEASE. -/
theorem witness_EveryStepKeepsTheInvariant :
    let s := (opened 255#8 3#16).withFetchWord 8 0xB
    invariant s ∧ ∃ t, step s = .next t := ⟨by decide, _, rfl⟩

/-- Every counter at the top of its range. -/
theorem witness_EveryStepKeepsTheCountersInRange :
    let full : State := { quiet with
      acqCnt := Config.hw.acqRetryMax, startCnt := Config.hw.startPollMax, seqAttempt := 25#5 }
    let s := full.withFetchWord 8 0xA
    countersInRange s ∧ ∃ t, step s = .next t := ⟨⟨Nat.le_refl _, Nat.le_refl _, by decide⟩, _, rfl⟩

theorem witness_ResetLeavesTheLinkIdle : quiet.port = [] := rfl

theorem witness_SelectLineFollowsTheTrace : ∃ t, step (held.withFetchWord 8 0xB) = .next t := ⟨_, rfl⟩

/-- A cell of another buffer, and the first cell past the capacity. -/
theorem witness_OnlyDestinationsAreWritten :
    (∃ t, exec (.decodeParameter 7 4) (decoding .params 1#8) = .next t) ∧
    (∀ d ∈ destinations (.decodeParameter 7 4), ¬inDestination d (cellAddr 8 0)) ∧
    (∀ d ∈ destinations (.decodeParameter 7 4), ¬inDestination d (cellAddr 7 4)) := by
  refine ⟨⟨_, rfl⟩, ?_, ?_⟩ <;>
  · intro d hd
    simp only [destinations, List.mem_singleton] at hd
    subst hd
    rintro ⟨i, h, -, e⟩
    simp only [cellAddr] at e h
    omega

theorem witness_NoOperationReadsTheResultPort : Instr.acquire ≠ .noOperation ∧
    (∀ confirm payloads, Instr.acquire ≠ .replyFrame confirm payloads) ∧ quiet.seqPhase = .idle ∧
    ∃ t, exec .acquire quiet = .next t := ⟨by decide, fun _ _ => by simp, rfl, _, rfl⟩

theorem witness_UnspecifiedRegistersAreNotRead : isDriverOperation (.pollDataSent 0x31#8 [] 7) = true ∧
    atRest quiet ∧ ∃ t, exec (.execute 0x20#8 [] 0#8 []) quiet = .next t := ⟨rfl, by decide, _, rfl⟩

theorem witness_OperationsLeaveThePortAlone : ∃ t, exec .release quiet = .next t := ⟨_, rfl⟩

theorem witness_ResultCodesAreZeroToFour :
    returnsOnlyOk (.encHeader 0x20#8 0#8) = true ∧ ∃ t, exec (.encHeader 0x20#8 0#8) held = .next t := ⟨rfl, _, rfl⟩

end Sys2Proof.Tests
end

section
/-! SUPPORT. The lengths of frames (30_encoding.md R61), over the laws of the frame encoder. -/

namespace Sys2Proof.Laws

theorem replyFrameBytes_length (p : Params) (opcode : Byte) (payloads : List (List Byte)) :
    (replyFrameBytes p opcode payloads).length = (frameBody p opcode payloads).length + 1 := by
  simp only [replyFrameBytes, List.length_append, List.length_singleton]

/-- The filler makes a command frame whole words (30_encoding.md R57). -/
theorem encodeFrame_length_mod (p : Params) (opcode : Byte) (payloads : List (List Byte)) :
    (encodeFrame p opcode payloads).length % 4 = 0 := by
  rw [encodeFrame_length]
  exact fillerCount_add_mod _

/-- A total that is whole words already needs no filler. -/
theorem fillerCount_of_mod_eq_zero {n : Nat} (h : n % 4 = 0) : fillerCount n = 0 := by
  simp only [fillerCount, wordBytes, h]

/-- A command frame whose body and END are whole words is as long as the reply frame of the same parameters. -/
theorem encodeFrame_length_of_aligned (p : Params) (opcode : Byte) (payloads : List (List Byte))
    (h : ((frameBody p opcode payloads).length + 1) % 4 = 0) :
    (encodeFrame p opcode payloads).length = (frameBody p opcode payloads).length + 1 := by
  rw [encodeFrame_length, fillerCount_of_mod_eq_zero h, Nat.add_zero]

theorem frameBody_length_nil (p : Params) (opcode : Byte) : (frameBody p opcode []).length = 3 :=
  frameBody_length p opcode []

/-- Every record at its greatest length: 256 bytes each after the three of the header. -/
theorem frameBody_length_of_longest (p : Params) (opcode : Byte) (payloads : List (List Byte))
    (hb : ∀ b ∈ payloads, b.length = 255) :
    (frameBody p opcode payloads).length = 3 + 256 * payloads.length := by
  have hmap : payloads.map List.length = List.replicate payloads.length 255 :=
    List.map_eq_replicate_iff.2 hb
  rw [frameBody_length, hmap, List.sum_replicate_nat]
  omega

/-- The greatest body a frame can carry (30_encoding.md R61). -/
theorem frameBody_length_le_greatest (p : Params) (opcode : Byte) (payloads : List (List Byte))
    (h : payloadsFit payloads = true) : (frameBody p opcode payloads).length ≤ 65283 := by
  obtain ⟨hcount, hlen⟩ := (payloadsFit_iff payloads).1 h
  have hle := frameBody_length_le p opcode payloads hlen
  omega

/-- A command frame grows by at most three filler bytes, and since the greatest frame is whole words already, the
bound of the reply frame holds for it too. -/
theorem encodeFrame_length_le_greatest (p : Params) (opcode : Byte) (payloads : List (List Byte))
    (h : payloadsFit payloads = true) : (encodeFrame p opcode payloads).length ≤ 65284 := by
  have hbody := frameBody_length_le_greatest p opcode payloads h
  have hfill := fillerCount_le ((frameBody p opcode payloads).length + 1)
  have hmod := encodeFrame_length_mod p opcode payloads
  rw [encodeFrame_length] at hmod ⊢
  omega

/-! ### The two codes that are no operation (30_encoding.md R68) -/

theorem exec_noOperation (s : Machine.State) : Machine.exec .noOperation s = .next s := by
  rfl

theorem exec_reserved (s : Machine.State) : Machine.exec .reserved s = .refused .reservedOpSel := by
  rfl

end Sys2Proof.Laws
end

section
/-! The statements of 30_encoding.md about frame lengths and the codes that are no operation. -/

namespace Sys2Proof.Proofs

open Sys2Proof.Laws

/-- Settles O3: each length is the body's plus END plus, in a command, the filler; both extreme frames are whole words
without filler. -/
theorem frameLengths : Obligations.FrameLengths := by
  unfold Obligations.FrameLengths
  refine ⟨fun p opcode payloads hfit => ?_, fun p opcode => ?_, fun p opcode payloads hcount hlen => ?_⟩
  · have hbody := frameBody_length p opcode payloads
    have hgreatest := frameBody_length_le_greatest p opcode payloads hfit
    have hcommand := encodeFrame_length p opcode payloads
    have hreply := replyFrameBytes_length p opcode payloads
    rw [hbody] at hcommand
    exact ⟨hbody, by omega, encodeFrame_length_mod p opcode payloads, by omega, by omega,
      encodeFrame_length_le_greatest p opcode payloads hfit, by omega, by omega⟩
  · have hbody := frameBody_length_nil p opcode
    rw [encodeFrame_length_of_aligned p opcode [] (by rw [hbody]), replyFrameBytes_length, hbody]
    exact ⟨rfl, rfl⟩
  · have hbody : (frameBody p opcode payloads).length = 65283 := by
      rw [frameBody_length_of_longest p opcode payloads hlen, hcount]
    rw [encodeFrame_length_of_aligned p opcode payloads (by rw [hbody]), replyFrameBytes_length, hbody]
    exact ⟨rfl, rfl⟩

/-- Settles O8: both arms of `exec` are a constant answer. -/
theorem noneAndReservedCodes : Obligations.NoneAndReservedCodes :=
  fun s => ⟨exec_noOperation s, exec_reserved s⟩

end Sys2Proof.Proofs
end

section
/-! SUPPORT. The frame encoder's arms of `exec`, when they are refused, and `Close()` and the last record with
`TX_COUNT` written as the count of bytes sent (40_frame_encoder.md R81 to R90). -/

namespace Sys2Proof.Laws

open Sys2Proof.Machine Sys2Proof.Safety

/-! ### Refusals -/

/-- FCLA has no fault, so an operation that does not answer a next state is refused. -/
theorem refused_of_not_next {a : Answer} (h : ∀ t, a ≠ .next t) : ∃ r, a = .refused r := by
  cases a with
  | next t => exact absurd rfl (h t)
  | fault f => exact nomatch f
  | refused r => exact ⟨r, rfl⟩

theorem requireHeader_refused {s : State} (h : ¬(s.sel = true ∧ s.encState = .idle)) (k : Answer) :
    ∃ r, requireHeader s k = .refused r :=
  refused_of_not_next fun _ ht =>
    have ⟨_, hsel, hidle⟩ := (requireHeader_next.1 ht).1
    h ⟨hsel, hidle⟩

/-- The `last` mark agrees when it says whether one parameter is left (40_frame_encoder.md R82). -/
theorem lastAgrees_iff (remaining : Byte) (last : Bool) :
    lastAgrees remaining last = true ↔ (last = true ↔ remaining = 0x01#8) := by
  cases last <;> simp [lastAgrees]

theorem requireRecord_refused {s : State} {last : Bool}
    (h : ¬(s.sel = true ∧ s.encState = .open ∧ (last = true ↔ s.encRemaining = 0x01#8))) (k : Answer) :
    ∃ r, requireRecord last s k = .refused r :=
  refused_of_not_next fun _ ht =>
    have ⟨⟨_, hsel, hopen⟩, hlast, _⟩ := requireRecord_next.1 ht
    h ⟨hsel, hopen, (lastAgrees_iff _ _).1 hlast⟩

theorem requireRecord_middle {s : State} (h : recordReady s) (hne : s.encRemaining ≠ 0x01#8) (k : Answer) :
    requireRecord false s k = k :=
  requireRecord_ready h ((lastAgrees_iff _ _).2 (by simp [hne])) k

theorem requireRecord_last {s : State} (h : recordReady s) (hone : s.encRemaining = 0x01#8) (k : Answer) :
    requireRecord true s k = k :=
  requireRecord_ready h ((lastAgrees_iff _ _).2 (by simp [hone])) k

/-! ### The arms of `exec` -/

theorem exec_encHeader (opcode count : Byte) (s : State) : exec (.encHeader opcode count) s =
    requireHeader s (.next (finish .done (writeHeader Config.hw opcode count s))) := rfl

theorem exec_encParam (buf : Handle) (len : Byte) (last : Bool) (s : State) : exec (.encParam buf len last) s =
    requireRecord last s (require (bufferHolds s.sizes buf len) .sourceTooShort
      (.next (finish .done (writeRecord Config.hw (readBuffer s.mem buf len) last s)))) := rfl

theorem exec_encParamU16 (value : Half) (last : Bool) (s : State) : exec (.encParamU16 value last) s =
    requireRecord last s (.next (finish .done (writeRecord Config.hw (u16Payload value) last s))) := rfl

theorem exec_encodeCommand_ready {s : State} (opcode : Byte) {params : List Param} (hs : headerReady s)
    (hcount : params.length ≤ 255) (hsrc : sourcesHold s.sizes params = true) :
    exec (.encodeCommand opcode params (terminalFlags params.length)) s =
      .next (finish .done (writeCommand Config.hw opcode params (terminalFlags params.length) s)) := by
  have hexec : exec (.encodeCommand opcode params (terminalFlags params.length)) s =
      encodeCommandWith Config.hw opcode params (terminalFlags params.length) s := rfl
  rw [hexec, encodeCommandWith, requireHeader_ready hs, (paramsFit_iff params).2 hcount,
    (flagsFit_iff params _).2 rfl, hsrc]
  simp only [require_true]

/-! ### The closing sequence and the records, counted in bytes -/

theorem frameTail_beforeEnd {p : Params} (h : p.padPosition = .beforeEnd) (n : Nat) :
    frameTail p n = List.replicate (fillerCount (n + 1)) p.padByte ++ [p.endByte] := by
  simp only [frameTail, h]

theorem frameTail_afterEnd {p : Params} (h : p.padPosition = .afterEnd) (n : Nat) :
    frameTail p n = p.endByte :: List.replicate (fillerCount (n + 1)) p.padByte := by
  simp only [frameTail, h]

/-- The machine's filler stands before END (92_eei_decisions.md D7). -/
theorem frameTail_hw (n : Nat) :
    frameTail Config.hw n = List.replicate (fillerCount (n + 1)) Config.padByte ++ [Config.endByte] :=
  frameTail_beforeEnd rfl n

/-- `2 ^ 16` is a multiple of the word, so a 16-bit count decides the filler even where it has wrapped. -/
theorem fillerCount_succ_mod (n : Nat) : fillerCount (n % 2 ^ 16 + 1) = fillerCount (n + 1) := by
  simp only [fillerCount, wordBytes]
  omega

theorem frameTail_mod (p : Params) (n : Nat) : frameTail p (n % 2 ^ 16) = frameTail p n := by
  simp only [frameTail, fillerCount_succ_mod]

/-- `Close()` after a body of `body` bytes, of which `TX_COUNT` holds the low 16 bits (40_frame_encoder.md R86). -/
theorem closeFrame_of_body (p : Params) (s : State) (body : Nat) (h : s.txCount = BitVec.ofNat 16 body) :
    closeFrame p s =
    { s with trace := s.trace ++ (frameTail p body).map .tx
             txCount := BitVec.ofNat 16 (body + fillerCount (body + 1) + 1)
             encState := .idle, closing := false } := by
  have hcount : body + fillerCount (body + 1) + 1 = body + 1 + fillerCount (body + 1) := by omega
  rw [closeFrame_eq, h, BitVec.toNat_ofNat, frameTail_mod, fillerCount_succ_mod, hcount, BitVec.ofNat_add,
    BitVec.ofNat_add]

/-- The last record and the closing sequence after it (40_frame_encoder.md R82, R86). -/
theorem writeRecord_last (p : Params) (payload : List Byte) (s : State) (h : s.encRemaining = 0x01#8) :
    writeRecord p payload true s =
    { s with trace := s.trace ++ (recordBytes payload ++ frameTail p (s.txCount.toNat + 1 + payload.length)).map .tx
             txCount := BitVec.ofNat 16 (s.txCount.toNat + 1 + payload.length
               + fillerCount (s.txCount.toNat + 1 + payload.length + 1) + 1)
             encRemaining := 0x00#8, encState := .idle, closing := false } := by
  have hbody : (writeRecord p payload false s).txCount =
      BitVec.ofNat 16 (s.txCount.toNat + 1 + payload.length) := by
    rw [writeRecord_false, BitVec.ofNat_add, BitVec.ofNat_add, BitVec.ofNat_toNat, BitVec.setWidth_eq]
  rw [writeRecord_true, closeFrame_of_body p _ _ hbody, writeRecord_false, h]
  simp

theorem recordBytes_readBuffer (m : Memory) (buf : Handle) (len : Byte) :
    recordBytes (readBuffer m buf len) = len :: readBuffer m buf len := by
  simp [recordBytes]

theorem recordBytes_u16 (value : Half) :
    recordBytes (u16Payload value) = [0x02#8, value.extractLsb' 8 8, value.extractLsb' 0 8] := rfl

/-! ### The round trip -/

/-- `ParseCommand` reads back any frame the format can carry (40_frame_encoder.md R90). -/
theorem parseCommand_encodeFrame (p : Params) (opcode : Byte) (payloads : List (List Byte))
    (hcount : payloads.length ≤ 255) (hlen : ∀ b ∈ payloads, b.length ≤ 255) :
    parseCommand p (encodeFrame p opcode payloads) = .ok (opcode, payloads) := by
  have hframe : encodeFrame p opcode payloads = p.startByte :: opcode :: BitVec.ofNat 8 payloads.length ::
      (payloads.flatMap recordBytes ++ frameTail p (frameBody p opcode payloads).length) := by
    simp [encodeFrame, frameBody]
  have hannounced : (BitVec.ofNat 8 payloads.length).toNat = payloads.length := by
    rw [BitVec.toNat_ofNat]
    omega
  have hbody : (encodeFrame p opcode payloads).length
      - (frameTail p (frameBody p opcode payloads).length).length = (frameBody p opcode payloads).length := by
    simp [encodeFrame]
  rw [hframe] at hbody ⊢
  simp only [parseCommand, if_true, hannounced, parseRecords_records payloads _ hlen, hbody, tailFits_frameTail]

end Sys2Proof.Laws
end

section
/-! The statements of 40_frame_encoder.md about the encoder's primitives, the closing sequence and whole commands. -/

namespace Sys2Proof.Proofs

open Sys2Proof.Machine Sys2Proof.Safety Sys2Proof.Laws

/-- Settles O2: every parameter's payload fits a record, so `ParseCommand` reads the frame back. -/
theorem parseCommandInvertsEncodeFrame : Obligations.ParseCommandInvertsEncodeFrame := by
  unfold Obligations.ParseCommandInvertsEncodeFrame
  refine ⟨fun p opcode m params hcount => ?_, fun _ _ => rfl⟩
  refine parseCommand_encodeFrame p opcode _ (by rwa [List.length_map]) fun b hb => ?_
  obtain ⟨param, _, rfl⟩ := List.mem_map.1 hb
  exact paramBytes_length_le m param

/-- Settles O15: the header alone opens the frame; with nothing to follow, `Close()` runs after a body of three
bytes, which needs no filler. -/
theorem headerWritesThreeBytesOrTheEmptyFrame : Obligations.HeaderWritesThreeBytesOrTheEmptyFrame := by
  unfold Obligations.HeaderWritesThreeBytesOrTheEmptyFrame
  intro s opcode count
  rw [exec_encHeader]
  refine ⟨fun hs hne => ?_, fun hs hzero => ?_, fun h => requireHeader_refused h _⟩
  · rw [requireHeader_ready hs, writeHeader_ne _ _ _ _ hne]
    rfl
  · have hfill : fillerCount (3 + 1) = 0 := by decide
    subst hzero
    rw [requireHeader_ready hs, writeHeader_zero, closeFrame_of_body _ _ 3 rfl, frameTail_hw, hfill]
    simp [finish, Config.hw]

/-- Settles O17: ENC_PARAM writes the record of its buffer, in the middle of the frame or at its end. -/
theorem parameterWritesItsRecord : Obligations.ParameterWritesItsRecord := by
  unfold Obligations.ParameterWritesItsRecord
  intro s buf len last
  simp only [exec_encParam]
  refine ⟨fun hs hsrc hne => ?_, fun hs hsrc hone _ => ?_, fun h => requireRecord_refused h _⟩
  · rw [requireRecord_middle hs hne, hsrc, require_true, writeRecord_false, recordBytes_readBuffer,
      readBuffer_length, BitVec.ofNat_toNat]
    rfl
  · rw [requireRecord_last hs hone, hsrc, require_true, writeRecord_last _ _ _ hone, recordBytes_readBuffer,
      readBuffer_length, frameTail_hw]
    simp [finish, fillerCount, wordBytes]

/-- Settles O18: the same two cases as ENC_PARAM, for the record of the two big-endian bytes. -/
theorem numericParameterWritesItsRecord : Obligations.NumericParameterWritesItsRecord := by
  unfold Obligations.NumericParameterWritesItsRecord
  intro s value last
  simp only [exec_encParamU16]
  refine ⟨fun hs hne => ?_, fun hs hone _ => ?_, fun h => requireRecord_refused h _⟩
  · rw [requireRecord_middle hs hne, writeRecord_false, recordBytes_u16, BitVec.add_assoc]
    rfl
  · rw [requireRecord_last hs hone, writeRecord_last _ _ _ hone, recordBytes_u16, frameTail_hw]
    simp [finish, fillerCount, wordBytes, u16Payload]

/-- Settles O20: the tail is END and the filler, in the order the parameters say; the bound keeps the new count from
wrapping. -/
theorem closingSequenceEndsTheFrame : Obligations.ClosingSequenceEndsTheFrame := by
  unfold Obligations.ClosingSequenceEndsTheFrame
  intro p s hbound
  have hclose := closeFrame_of_body p s s.txCount.toNat (by simp)
  have hfill : fillerCount (s.txCount.toNat + 1) = (4 - (s.txCount.toNat + 1) % 4) % 4 := rfl
  refine ⟨?_, ?_, ?_⟩
  · cases hpos : p.padPosition with
    | beforeEnd =>
      rw [hclose, frameTail_beforeEnd hpos, hfill]
      simp
    | afterEnd =>
      rw [hclose, frameTail_afterEnd hpos, hfill]
      simp
  · rw [hclose, BitVec.toNat_ofNat, hfill]
    omega
  · rw [hclose, BitVec.toNat_ofNat, hfill]
    omega

/-- Settles O23: with the agreeing marks ENCODE_COMMAND runs its procedure, which sends the frame. -/
theorem encodeCommandSendsEncodeFrame : Obligations.EncodeCommandSendsEncodeFrame := by
  unfold Obligations.EncodeCommandSendsEncodeFrame
  intro s opcode params hs hcount hsrc
  rw [exec_encodeCommand_ready opcode hs hcount hsrc, writeCommand_eq _ _ _ _ hcount]
  rfl

end Sys2Proof.Proofs
end

section
/-! SUPPORT. The frame decoder's arms of `exec`, when they are refused, the length of a reply's records, and
`ParseReply` against the three decoder procedures in a row (41_frame_decoder.md R101 to R110). -/

namespace Sys2Proof.Laws

open Sys2Proof.Machine Sys2Proof.Safety

/-! ### The arms of `exec` -/

theorem exec_decodeReplyHeader (expected : Byte) (s : State) : exec (.decodeReplyHeader expected) s =
    requireDecoder .idle .decoderNotIdle s (.next (finishRun (readHeader Config.hw expected s) .count)) := rfl

theorem exec_decodeParameter (dst : Handle) (cap : Nat) (s : State) : exec (.decodeParameter dst cap) s =
    requireDecoder .params .decoderNotInParams s (.next (finishRun (readParameter ⟨dst, cap⟩ none s) .len)) := rfl

theorem exec_decodeEnd (s : State) : exec .decodeEnd s = decodeEndWith Config.hw s := rfl

theorem exec_execute (opcode : Byte) (params : List Param) (e : Byte) (dsts : List Dst) (s : State) :
    exec (.execute opcode params e dsts) s = execExecute opcode params e dsts s := rfl

theorem requireDecoder_refused {pos : DecState} {r : Refusal} {s : State} (h : ¬(s.sel = true ∧ s.decState = pos))
    (k : Answer) : ∃ q, requireDecoder pos r s k = .refused q :=
  refused_of_not_next fun _ ht =>
    have ⟨_, hsel, hpos⟩ := (requireDecoder_next.1 ht).1
    h ⟨hsel, hpos⟩

/-- What ends an operation is put on the result port, and nothing else. -/
theorem finishRun_eq {α : Type} (r : Run α) (f : α → OpResult) : ∃ q, finishRun r f = finish q r.1 := by
  obtain ⟨s, e | a⟩ := r
  · exact ⟨.error e, rfl⟩
  · exact ⟨f a, rfl⟩

/-- DECODE_END on a terminator the peer names, under any parameters (41_frame_decoder.md R106). -/
theorem decodeEndWith_named (p : Params) {s : State} {b : Byte} {rest : List Byte} (hs : decoderReady .atEnd s)
    (h : s.rxIn = b :: rest) : decodeEndWith p s = .next { s with
      trace := s.trace ++ [.rx b]
      rxIn := rest, decState := .idle
      result := if p.checkReplyEnd = true ∧ b ≠ p.endByte
        then some (.error (.protocolMismatch .atEnd b (some p.endByte))) else some .done } := by
  have hend : endAccepted p b = true ↔ ¬(p.checkReplyEnd = true ∧ b ≠ p.endByte) := by
    simp [endAccepted, ← Bool.not_eq_true, ← imp_iff_not_or]
  rw [decodeEndWith, requireDecoder_ready hs, readEnd_named p b s rest h]
  by_cases hbad : p.checkReplyEnd = true ∧ b ≠ p.endByte
  · rw [if_pos hbad, if_neg (by rw [hend]; exact not_not_intro hbad)]
    rfl
  · rw [if_neg hbad, if_pos (hend.2 hbad)]
    rfl

/-! ### One LEN byte -/

/-- A record is its LEN byte and its payload (30_encoding.md R53). -/
theorem recordBytes_of_length {len : Byte} {payload : List Byte} (h : payload.length = len.toNat) :
    recordBytes payload = len :: payload := by
  rw [recordBytes, h, BitVec.ofNat_toNat, BitVec.setWidth_eq]

/-- A parameter whose LEN byte is within the capacity (41_frame_decoder.md R104). -/
theorem readParameter_of_len (dst : Dst) (k : Option Nat) (len : Byte) (payload : List Byte) (s : State)
    (rest : List Byte) (hlen : payload.length = len.toNat) (hcap : len.toNat ≤ dst.cap)
    (h : s.rxIn = len :: payload ++ rest) : readParameter dst k s =
    ({ s with mem := deliverFrom dst.dst 0 payload s.mem, rxIn := rest
              trace := s.trace ++ (len :: payload).map .rx
              decRemaining := s.decRemaining - 1#8
              decState := if s.decRemaining = 1#8 then .atEnd else s.decState }, .ok len) := by
  have hlt := len.isLt
  have hrecord := recordBytes_of_length hlen
  have hlast : s.decRemaining - 1#8 = 0x00#8 ↔ s.decRemaining = 1#8 := sub_eq_zero
  rw [readParameter_fits dst k payload s rest (by omega) (by omega) (by rw [hrecord, h]), hrecord, hlen,
    BitVec.ofNat_toNat, BitVec.setWidth_eq]
  simp only [hlast]

/-- Records of LEN bytes take at most 256 bytes each (30_encoding.md R55). -/
theorem records_length_le (payloads : List (List Byte)) (h : ∀ b ∈ payloads, b.length ≤ 255) :
    (payloads.flatMap recordBytes).length ≤ 256 * payloads.length := by
  have hbody := frameBody_length_le Config.hw 0x00#8 payloads h
  rw [frameBody_length] at hbody
  rw [records_length]
  omega

/-- A count byte asks for at most 255 destinations. -/
theorem dstsFor_length_le (n : Byte) (dsts : List Dst) : (dstsFor n dsts).length ≤ 255 := by
  have hlt := n.isLt
  rw [dstsFor, List.length_take]
  omega

/-- EXECUTE's count test passes the expected count (43_command_driver.md R136). -/
theorem admitExactly_self (e : Byte) : admitExactly e e = true :=
  beq_self_eq_true e

/-! ### One whole reply -/

theorem andThen_assoc {α β γ : Type} (r : Run α) (f : α → State → Run β) (g : β → State → Run γ) :
    andThen (andThen r f) g = andThen r fun a s => andThen (f a s) g := by
  obtain ⟨s, e | a⟩ := r <;> rfl

/-- The parameters and terminator of a reply that announced `count`, from parameter `k` on. -/
def decodeItems (p : Params) (count : Byte) (dsts : List Dst) (k : Nat) (s : State) : Run Byte :=
  andThen (readParameters dsts k s) fun _ s => andThen (readEnd p s) fun _ s => (s, .ok count)

theorem decodeItems_nil (p : Params) (count : Byte) (k : Nat) (s : State) :
    decodeItems p count [] k s = andThen (readEnd p s) fun _ s => (s, .ok count) := rfl

theorem decodeItems_cons (p : Params) (count : Byte) (dst : Dst) (dsts : List Dst) (k : Nat) (s : State) :
    decodeItems p count (dst :: dsts) k s =
      andThen (readParameter dst (some k) s) fun _ s => decodeItems p count dsts (k + 1) s := by
  simp only [decodeItems, readParameters, andThen_assoc, andThen_ok]

/-- Confirmation, count, parameters and terminator of a reply: what follows its START. -/
def decodeBody (p : Params) (expected : Byte) (dsts : List Dst) (s : State) : Run Byte :=
  andThen (readConfirm p expected s) fun _ s =>
  andThen (readCount s) fun n s => decodeItems p n (dstsFor n dsts) 0 s

/-- The decoder's three procedures in a row are the START scan and what follows it. -/
theorem decodeWhole_eq (expected : Byte) (dsts : List Dst) (s : State) : decodeWhole expected dsts s =
    andThen (scanStart Config.hw Config.hw.startPollMax { s with startCnt := Config.hw.startPollMax })
      fun _ s => decodeBody Config.hw expected dsts s := by
  simp only [decodeWhole, decodeBody, decodeItems, readHeader, andThen_assoc]

/-- The decoder, run from `s` on `bytes` and ending in `q`, delivers what `ParseReply` says in `r`: the result, the
bytes consumed, and the parameters in the destinations (41_frame_decoder.md R107). -/
structure Delivers (dsts : List Dst) (bytes rest : List Byte) (r : ReplyOutcome) (s : State) (q : Run Byte) :
    Prop where
  result : q.2 = r.result
  rxIn : q.1.rxIn = bytes.drop r.consumed ++ rest
  consumed : r.consumed ≤ bytes.length
  trace : q.1.trace = s.trace ++ (bytes.take r.consumed).map .rx
  mem : q.1.mem = deliver dsts r.delivered s.mem

/-- Delivering no payload writes nothing. -/
@[simp] theorem deliver_nil (dsts : List Dst) (m : Memory) : deliver dsts [] m = m := by
  cases dsts <;> rfl

/-- A run that ends after the bytes `front`, nothing delivered. -/
theorem Delivers.ended {dsts : List Dst} {front tail rest : List Byte} {s : State} {q : Run Byte}
    {result : Except OpError Byte} (hresult : q.2 = result) (hrx : q.1.rxIn = tail ++ rest)
    (htrace : q.1.trace = s.trace ++ front.map .rx) (hmem : q.1.mem = s.mem) :
    Delivers dsts (front ++ tail) rest ⟨[], result, front.length⟩ s q where
  result := hresult
  rxIn := by rw [hrx, List.drop_left]
  consumed := by simp
  trace := by rw [htrace, List.take_left]
  mem := by rw [hmem, deliver_nil]

/-- Bytes received first, and what they delivered, stand before what the rest of the run delivers. -/
theorem Delivers.after {dsts dsts' : List Dst} {bytes rest : List Byte} {r : ReplyOutcome} {s s' : State}
    {q : Run Byte} (h : Delivers dsts bytes rest r s' q) {front : List Byte} {delivered : List (List Byte)}
    (htrace : s'.trace = s.trace ++ front.map .rx)
    (hmem : deliver dsts r.delivered s'.mem = deliver dsts' delivered s.mem) :
    Delivers dsts' (front ++ bytes) rest ⟨delivered, r.result, front.length + r.consumed⟩ s q where
  result := h.result
  rxIn := by rw [h.rxIn, List.drop_length_add_append]
  consumed := by
    rw [List.length_append]
    exact Nat.add_le_add_left h.consumed _
  trace := by rw [h.trace, htrace, List.take_length_add_append, List.map_append, List.append_assoc]
  mem := h.mem.trans hmem

/-- Everything the parameter part of `ParseReply` can answer with a parameter still to come: its LEN byte exceeds the
capacity, or a payload of that length is delivered and the part goes on after it (41_frame_decoder.md R107). -/
theorem parseReplyRecords_succ {p : Params} {count : Byte} {n k : Nat} {dsts : List Dst} {bytes : List Byte}
    {r : ReplyOutcome} (h : parseReplyRecords p count (n + 1) k (dsts.map Dst.cap) bytes = some r) :
    ∃ dst dsts' len left, dsts = dst :: dsts' ∧
      ((bytes = len :: left ∧ dst.cap < len.toNat ∧
          r = ⟨[], .error (.bufferOverflow len dst.cap (some k)), 1⟩) ∨
       (∃ payload r', bytes = len :: payload ++ left ∧ payload.length = len.toNat ∧ len.toNat ≤ dst.cap ∧
          parseReplyRecords p count n (k + 1) (dsts'.map Dst.cap) left = some r' ∧
          r = ⟨payload :: r'.delivered, r'.result, (len :: payload).length + r'.consumed⟩)) := by
  cases dsts with
  | nil => simp [parseReplyRecords] at h
  | cons dst dsts =>
    cases bytes with
    | nil => simp [parseReplyRecords] at h
    | cons len bytes =>
      simp only [List.map_cons, parseReplyRecords] at h
      split at h
      case isTrue hover =>
        obtain rfl : _ = r := by simpa using h
        exact ⟨dst, dsts, len, bytes, rfl, .inl ⟨rfl, by simpa [overflows] using hover, rfl⟩⟩
      case isFalse hfits =>
        split at h
        case isFalse => simp at h
        case isTrue hlong =>
          split at h
          case h_2 => simp at h
          case h_1 r' hrest =>
            obtain rfl : _ = r := by simpa using h
            have hpayload : (bytes.take len.toNat).length = len.toNat := by simpa using hlong
            refine ⟨dst, dsts, len, bytes.drop len.toNat, rfl, .inr ⟨bytes.take len.toNat, r', by simp, hpayload,
              by simpa [overflows] using hfits, hrest, ?_⟩⟩
            rw [List.length_cons, hpayload, Nat.add_comm 1]

/-- The parameters and the terminator deliver what the parameter part of `ParseReply` says. -/
theorem decodeItems_delivers (p : Params) (count : Byte) (n : Nat) (dsts : List Dst) (k : Nat)
    (bytes rest : List Byte) (r : ReplyOutcome) (s : State) (hrx : s.rxIn = bytes ++ rest)
    (hparse : parseReplyRecords p count n k (dsts.map Dst.cap) bytes = some r) :
    Delivers dsts bytes rest r s (decodeItems p count (dsts.take n) k s) := by
  induction n generalizing dsts k bytes r s with
  | zero =>
    cases bytes with
    | nil => simp [parseReplyRecords] at hparse
    | cons b bytes =>
      rw [List.take_zero, decodeItems_nil, readEnd_named p b s (bytes ++ rest) hrx]
      cases hend : endAccepted p b
      all_goals
        obtain rfl : _ = r := by simpa [parseReplyRecords, hend] using hparse
        exact Delivers.ended (front := [b]) rfl rfl rfl rfl
  | succ n ih =>
    obtain ⟨dst, dsts, len, left, rfl, ⟨rfl, hover, rfl⟩ | ⟨payload, r', rfl, hlen, hfits, hparse', rfl⟩⟩ :=
      parseReplyRecords_succ hparse
    all_goals rw [List.take_succ_cons, decodeItems_cons]
    · rw [readParameter_overflow dst (some k) len s (left ++ rest) hover hrx]
      exact Delivers.ended (front := [len]) rfl rfl rfl rfl
    · rw [readParameter_of_len dst (some k) len payload s (left ++ rest) hlen hfits
        (by rw [hrx, List.append_assoc]), andThen_ok]
      exact (ih dsts (k + 1) left r' _ rfl hparse').after rfl rfl

/-- From the confirmation on, the decoder delivers what `ParseReply` says. -/
theorem decodeBody_delivers (p : Params) (expected : Byte) (dsts : List Dst) (bytes rest : List Byte)
    (r : ReplyOutcome) (s : State) (hrx : s.rxIn = bytes ++ rest)
    (hparse : parseReplyBody p expected (dsts.map Dst.cap) bytes = some r) :
    Delivers dsts bytes rest r s (decodeBody p expected dsts s) := by
  cases bytes with
  | nil => simp [parseReplyBody] at hparse
  | cons confirm bytes =>
    simp only [parseReplyBody] at hparse
    split at hparse
    case isFalse hbad =>
      obtain rfl : _ = r := by simpa using hparse
      rw [decodeBody, readConfirm_bad p expected confirm s (bytes ++ rest) hrx (by simpa [confirms] using hbad)]
      exact Delivers.ended (front := [confirm]) rfl rfl rfl rfl
    case isTrue hok =>
      obtain rfl : confirm = confirmByte p expected := by simpa [confirms] using hok
      split at hparse
      case h_1 => simp at hparse
      case h_2 n bytes =>
        split at hparse
        case h_2 => simp at hparse
        case h_1 r' hparse' =>
          obtain rfl : _ = r := by simpa using hparse
          rw [decodeBody, readConfirm_ok p expected s (n :: bytes ++ rest) hrx, andThen_ok,
            readCount_named _ n (bytes ++ rest) rfl, andThen_ok]
          exact (decodeItems_delivers p n n.toNat dsts 0 bytes rest r' _ rfl hparse').after
            (front := [confirmByte p expected, n]) (by simp) rfl

/-- From the START scan on, with `polls` bytes of its budget left, the decoder delivers what `ParseReply` says. -/
theorem scanStart_delivers (p : Params) (expected : Byte) (dsts : List Dst) (polls : Nat) (bytes rest : List Byte)
    (r : ReplyOutcome) (s : State) (hrx : s.rxIn = bytes ++ rest)
    (hparse : parseReplyFrom p expected (dsts.map Dst.cap) polls bytes = some r) :
    Delivers dsts bytes rest r s (andThen (scanStart p polls s) fun _ s => decodeBody p expected dsts s) := by
  induction polls generalizing bytes r s with
  | zero =>
    obtain rfl : _ = r := by simpa [parseReplyFrom] using hparse
    exact Delivers.ended (front := []) rfl hrx (by simp [scanStart]) rfl
  | succ polls ih =>
    cases bytes with
    | nil => simp [parseReplyFrom] at hparse
    | cons b bytes =>
      have hbyte := rxByte_cons (b := b) (rest := bytes ++ rest) hrx
      simp only [parseReplyFrom] at hparse
      split at hparse
      case h_2 => simp at hparse
      case h_1 r' hparse' =>
        obtain rfl : _ = r := by simpa using hparse
        simp only [scanStart, hbyte]
        split
        case isTrue hstart =>
          rw [if_pos hstart] at hparse'
          exact (decodeBody_delivers p expected dsts bytes rest r' _ rfl hparse').after (front := [b]) rfl rfl
        case isFalse hstray =>
          rw [if_neg hstray] at hparse'
          exact (ih bytes r' _ rfl hparse').after (front := [b]) rfl rfl

/-- One whole reply from any peer takes a bounded number of bytes (41_frame_decoder.md R110). -/
theorem decodeWhole_any (expected : Byte) (dsts : List Dst) (s : State) : ∃ bs : List Byte,
    (decodeWhole expected dsts s).1.trace = s.trace ++ bs.map .rx ∧
      bs.length ≤ Config.hw.startPollMax + 2 + 255 * 256 + 1 := by
  obtain ⟨head, c, rd, d, hhead, _, ⟨n, eheader⟩ | ⟨err, eheader⟩⟩ := readHeader_any Config.hw expected s
  · rw [decodeWhole, eheader, andThen_ok]
    have hdsts := dstsFor_length_le n dsts
    obtain ⟨rd', d', n', ⟨ds, payloads, ⟨hl, h255, _⟩, eparams⟩ |
      ⟨before, dst, after, payloads, len, hsplit, ⟨hl, h255, _⟩, _, eparams⟩⟩ := readParameters_any (dstsFor n dsts) 0 _
    · have hrecords := records_length_le payloads h255
      rw [eparams, andThen_ok]
      obtain ⟨b, _, _, _ | _, eend⟩ := readEnd_any Config.hw _
      all_goals
        rw [eend]
        refine ⟨head ++ payloads.flatMap recordBytes ++ [b], by simp, ?_⟩
        simp only [List.length_append, List.length_singleton]
        omega
    · have hrecords := records_length_le payloads h255
      rw [hsplit, List.length_append, List.length_cons] at hdsts
      rw [eparams, andThen_error]
      refine ⟨head ++ (payloads.flatMap recordBytes ++ [len]), by simp, ?_⟩
      simp only [List.length_append, List.length_singleton]
      omega
  · rw [decodeWhole, eheader, andThen_error]
    exact ⟨head, rfl, hhead.trans (Nat.le_add_right_of_le (Nat.le_add_right _ _))⟩

end Sys2Proof.Laws
end

section
/-! The statements of 41_frame_decoder.md about the decoder's operations, one whole reply, and an exchange against a
conforming peer. -/

namespace Sys2Proof.Proofs

open Sys2Proof.Machine Sys2Proof.Safety Sys2Proof.Laws

/-- Settles O25: the header is confirmed, missing or unconfirmed, by the law of each case. -/
theorem replyHeaderIsFoundConfirmedAndCounted : Obligations.ReplyHeaderIsFoundConfirmedAndCounted := by
  unfold Obligations.ReplyHeaderIsFoundConfirmedAndCounted
  intro s expected n op pre rest
  rw [exec_decodeReplyHeader]
  refine ⟨fun hs ⟨hpre, hlen⟩ hrx => ?_, fun hs hpre hlen hrx => ?_, fun hs ⟨hpre, hlen⟩ hrx hop => ?_,
    fun h => requireDecoder_refused h _⟩
  · rw [requireDecoder_ready hs,
      readHeader_named _ expected n pre s rest hpre hlen (by simpa [replyHead] using hrx)]
    rfl
  · rw [requireDecoder_ready hs, readHeader_missing _ expected pre s rest hpre hlen hrx]
    rfl
  · rw [requireDecoder_ready hs,
      readHeader_unconfirmed _ expected op pre s rest hpre hlen hop (by simpa using hrx)]
    rfl

/-- Settles O27: a payload within the capacity is delivered, and the laws of `deliverFrom` say where its bytes read
back and that no other cell changes. -/
theorem parameterIsStoredOrOverflows : Obligations.ParameterIsStoredOrOverflows := by
  unfold Obligations.ParameterIsStoredOrOverflows
  intro s dst cap len payload rest
  rw [exec_decodeParameter]
  refine ⟨fun hs hlen hcap hrx => ⟨deliverFrom dst 0 payload s.mem, ?_, fun i hi => ?_, fun a ha => ?_⟩,
    fun hs hcap hrx => ?_, fun h => requireDecoder_refused h _⟩
  · have ⟨_, _, hparams⟩ := hs
    rw [requireDecoder_ready hs, readParameter_of_len ⟨dst, cap⟩ none len payload s rest hlen hcap hrx, hparams]
    rfl
  · simpa using memRead_deliverFrom dst payload 0 i s.mem (by omega)
  · exact memRead_deliverFrom_other dst payload 0 s.mem a fun j hj => by simpa using ha j (by omega)
  · rw [requireDecoder_ready hs, readParameter_overflow ⟨dst, cap⟩ none len s rest hcap hrx]
    rfl

/-- Settles O28: the clause for any parameters, by whether END is accepted; the machine's clause is that one at
`CHECK_REPLY_END` true. -/
theorem decodeEndChecksTheTerminator : Obligations.DecodeEndChecksTheTerminator := by
  unfold Obligations.DecodeEndChecksTheTerminator
  intro s b rest
  have hany (p : Params) (hs : decoderReady .atEnd s) (hrx : s.rxIn = b :: rest) := decodeEndWith_named p hs hrx
  refine ⟨fun hs hrx => ?_, hany, fun h => requireDecoder_refused h _⟩
  rw [exec_decodeEnd, hany Config.hw hs hrx]
  by_cases hend : b = Config.endByte <;> simp [Config.hw, hend]

/-- Settles O29: each procedure's law against any peer names the bytes it received. -/
theorem decoderOperationsTerminate : Obligations.DecoderOperationsTerminate := by
  unfold Obligations.DecoderOperationsTerminate
  refine ⟨fun s expected hs => ?_, fun s dst cap hs => ?_, fun s hs => ?_, fun s expected dsts =>
    decodeWhole_any expected dsts s⟩
  · obtain ⟨bs, c, rd, d, hbs, _, ⟨n, e⟩ | ⟨err, e⟩⟩ := readHeader_any Config.hw expected s
    all_goals
      rw [exec_decodeReplyHeader, requireDecoder_ready hs, e]
      exact ⟨_, bs, rfl, rfl, hbs, rfl, rfl⟩
  · obtain ⟨rd, d, ⟨payload, h255, _, e⟩ | ⟨len, _, e⟩⟩ := readParameter_any ⟨dst, cap⟩ none s
    · rw [exec_decodeParameter, requireDecoder_ready hs, e]
      exact ⟨_, recordBytes payload, rfl, rfl, by rw [recordBytes_length]; omega, rfl⟩
    · rw [exec_decodeParameter, requireDecoder_ready hs, e]
      exact ⟨_, [len], rfl, rfl, by simp, rfl⟩
  · obtain ⟨b, rd, d, r, e⟩ := readEnd_any Config.hw s
    obtain ⟨q, eq⟩ := finishRun_eq (readEnd Config.hw s) fun _ => .done
    rw [exec_decodeEnd, decodeEndWith, requireDecoder_ready hs, eq, e]
    exact ⟨_, b, rfl, rfl, rfl, rfl⟩

/-- Settles O30: `ParseReply` begins as the decoder does, at the START scan with its whole budget. -/
theorem decoderDeliversWhatParseReplySays : Obligations.DecoderDeliversWhatParseReplySays := by
  unfold Obligations.DecoderDeliversWhatParseReplySays
  intro s expected dsts bytes rest r hrx hparse
  have h := scanStart_delivers Config.hw expected dsts Config.hw.startPollMax bytes rest r
    { s with startCnt := Config.hw.startPollMax } hrx hparse
  rw [← decodeWhole_eq] at h
  exact ⟨h.result, h.rxIn, h.consumed, h.trace, h.mem⟩

/-- Settles O35: at rest EXECUTE is one exchange, and the exchange with a conforming peer completes; the expected
count is the frame's, so every destination is used. -/
theorem executeCompletesWithAConformingPeer : Obligations.ExecuteCompletesWithAConformingPeer := by
  unfold Obligations.ExecuteCompletesWithAConformingPeer
  intro s opcode params e dsts payloads a b samples pre rest hs hparams hsrc hcount hfit ha hb hrdy ⟨hpre, hlen⟩ hrx
  have ⟨hdsts, _, _⟩ := hfit
  have ⟨hsel, henc, hdec, hphase⟩ := hs
  have hall : dstsFor e dsts = dsts := List.take_of_length_le (by omega)
  rw [exec_execute, execExecute_atRest opcode params e dsts s hs hparams hsrc (by omega),
    exchange_completes Config.hw opcode e params (admitExactly e) dsts payloads a b s samples pre rest hparams ha hb
      hrdy hpre hlen hcount (admitExactly_self e) (by rwa [hall]) hrx, hall]
  simp [endExchange, endDriver, enterPhase, finish, confirmByte, hsel, henc, hdec, hphase]

end Sys2Proof.Proofs
end

section
/-! SUPPORT. The link arbiter's arms of `exec` where the operation is taken and where it is refused, and how many
events ACQUIRE performs (42_link_arbiter.md R121 to R124). -/

namespace Sys2Proof.Laws

open Sys2Proof.Machine Sys2Proof.Safety

theorem requireDriver_ready {s : State} (h : s.level = .driver) (k : Answer) : requireDriver s k = k := by
  simp [requireDriver, h]

/-! ### The arms of `exec` -/

theorem exec_acquire (s : State) : exec .acquire s = requireDriver s (require (!s.sel) .linkSelected
    (.next (finishRun (acquireLink Config.hw s) fun _ => .done))) := rfl

theorem exec_acquire_ready {s : State} (hlevel : s.level = .driver) (hsel : s.sel = false) :
    exec .acquire s = .next (finishRun (acquireLink Config.hw s) fun _ => .done) := by
  rw [exec_acquire, requireDriver_ready hlevel, hsel, Bool.not_false, require_true]

/-- ACQUIRE on a selected link is refused at either level (93_implementation_defined.md U4). -/
theorem exec_acquire_selected {s : State} (hsel : s.sel = true) : ∃ r, exec .acquire s = .refused r :=
  refused_of_not_next fun t ht => by
    rw [exec_acquire, hsel] at ht
    obtain ⟨_, hrequire⟩ := requireDriver_next.1 ht
    obtain ⟨hfree, _⟩ := require_next.1 hrequire
    cases hfree

theorem exec_release_ready {s : State} (hlevel : s.level = .driver) :
    exec .release s = .next (finish .done (releaseLink s)) :=
  requireDriver_ready hlevel _

/-! ### How many events ACQUIRE performs -/

theorem one_le_acqRetryMax_hw : 1 ≤ Config.hw.acqRetryMax := by decide

/-- The select, two events for each not-ready sample, and the ready one. -/
theorem acquired_length (a : Nat) : (acquired a).length = 2 * a + 2 := by
  simp [acquired]
  omega

/-- The select, each sample, the yields between two samples, and the deselect. -/
theorem timedOut_length (n : Nat) : (timedOut n).length = 2 * (n - 1) + 3 := by
  simp [timedOut]
  omega

end Sys2Proof.Laws
end

section
/-! The statements of 42_link_arbiter.md about ACQUIRE and RELEASE. -/

namespace Sys2Proof.Proofs

open Sys2Proof.Machine Sys2Proof.Safety Sys2Proof.Laws

/-- Settles O32: the law of ACQUIRE against a peer whose samples are named, ready within the budget or never. -/
theorem acquireWaitsForReadyWithinItsBudget : Obligations.AcquireWaitsForReadyWithinItsBudget := by
  unfold Obligations.AcquireWaitsForReadyWithinItsBudget
  intro s a rest
  refine ⟨fun hlevel hsel ha hrdy => ?_, fun hlevel hsel hrdy => ?_, exec_acquire_selected⟩
  · rw [exec_acquire_ready hlevel hsel, acquireLink_named _ a s rest ha hrdy]
    rfl
  · rw [exec_acquire_ready hlevel hsel, acquireLink_never _ s rest one_le_acqRetryMax_hw hrdy]
    rfl

/-- Settles O33: the law of ACQUIRE against any peer names its events, and those of the Timeout are the longest. -/
theorem arbiterTerminates : Obligations.ArbiterTerminates := by
  unfold Obligations.ArbiterTerminates
  refine ⟨fun s hlevel hsel => ?_, fun s hlevel => ⟨_, .sel false, exec_release_ready hlevel, rfl⟩⟩
  have hpos := one_le_acqRetryMax_hw
  rw [exec_acquire_ready hlevel hsel]
  obtain ⟨a, rd, d, ha, e⟩ | ⟨rd, d, e⟩ := acquireLink_cases Config.hw s hpos
  · have hlen := acquired_length a
    rw [e]
    exact ⟨_, acquired a, rfl, rfl, by omega, .inl ⟨rfl, rfl⟩⟩
  · have hlen := timedOut_length Config.hw.acqRetryMax
    rw [e]
    exact ⟨_, timedOut Config.hw.acqRetryMax, rfl, rfl, by omega, .inr ⟨rfl, rfl⟩⟩

/-- Settles O34: RELEASE leaves the level, so a second one is taken too, and finds everything it writes but the
trace as it would leave it. -/
theorem releaseDeselectsFromAnyState : Obligations.ReleaseDeselectsFromAnyState := by
  unfold Obligations.ReleaseDeselectsFromAnyState
  intro s hlevel
  have hafter : (finish .done (releaseLink s)).level = .driver := hlevel
  exact ⟨finish .done (releaseLink s), rfl, exec_release_ready hlevel, exec_release_ready hafter⟩

end Sys2Proof.Proofs
end

section
/-! SUPPORT. What a step on an empty port does, and what a deselected link admits (70_reset_and_hazards.md R190, R196). -/

namespace Sys2Proof.Laws

open Sys2Proof.Machine Sys2Proof.Safety

/-! ### The empty port -/

/-- An empty port presents `op_sel` 0x0 (30_encoding.md R68). -/
theorem decode_fetch_of_port_nil {s : State} (h : s.port = []) : decode (fetch s).form = .ok .noOperation := by
  rw [fetch, h]
  rfl

/-- Taking nothing off an empty port leaves the level as well. -/
theorem accept_of_port_nil {s : State} (h : s.port = []) : accept s = s := by
  cases s
  cases h
  rfl

/-- With nothing requested nothing happens, busy or not (10_state.md R24). -/
theorem step_of_port_nil {s : State} (h : s.port = []) : step s = .next s := by
  cases hb : busy s with
  | true => exact step_busy hb
  | false => rw [step_taken hb (decode_fetch_of_port_nil h), exec_noOperation, accept_of_port_nil h]

/-! ### The codec's gates on a deselected link -/

theorem requireHeader_deselected {s t : State} {k : Answer} (hsel : s.sel = false) : requireHeader s k ≠ .next t := by
  simp [requireHeader_next, headerReady, hsel]

theorem requireRecord_deselected {last : Bool} {s t : State} {k : Answer} (hsel : s.sel = false) :
    requireRecord last s k ≠ .next t := by
  simp [requireRecord_next, recordReady, hsel]

theorem requireClosing_deselected {s t : State} {k : Answer} (hsel : s.sel = false) :
    requireClosing s k ≠ .next t := by
  simp [requireClosing_next, closingReady, hsel]

theorem requireDecoder_deselected {pos : DecState} {r : Refusal} {s t : State} {k : Answer} (hsel : s.sel = false) :
    requireDecoder pos r s k ≠ .next t := by
  simp [requireDecoder_next, decoderReady, hsel]

/-! ### The driver operations end deselected -/

/-- An exchange ends with RELEASE or with the abort, which deselects too (43_command_driver.md R135). -/
theorem exchange_sel (opcode : Byte) (params : List Param) (passes : Byte → Bool) (dsts : List Dst) (s : State)
    (hn : params.length ≤ 255) : (exchange Config.hw opcode params passes dsts s).1.sel = false := by
  obtain ⟨t, r, _, _, _, _, e, _, _, _, _, _, _, ht⟩ :=
    exchange_any Config.hw opcode params passes dsts s one_le_acqRetryMax_hw hn
  rw [e, ht]

theorem endExchange_sel (r : Run (Byte × List Byte)) (f : Byte → List Byte → OpResult) :
    (endExchange r f).sel = r.1.sel := by
  obtain ⟨s, _ | _⟩ := r <;> rfl

/-- Each attempt is an exchange, so the polling ends deselected after any number of them. -/
theorem pollAttempts_sel (opcode : Byte) (params : List Param) (dst : Handle) (fuel : Nat) (s : State)
    (hn : params.length ≤ 255) (hsel : s.sel = false) :
    (pollAttempts Config.hw opcode params dst fuel s).sel = false := by
  induction fuel generalizing s with
  | zero => exact hsel
  | succ fuel ih =>
    have hattempt := exchange_sel opcode params (admitExactly 0x01#8) (statusDst dst)
      { s with seqAttempt := s.seqAttempt + 1#5 } hn
    rw [pollAttempts]
    split
    · exact hattempt
    · split
      · exact hattempt
      · exact ih _ hattempt

/-- EXECUTE answers with the state it was asked in, while busy, or with that at the end of an exchange. -/
theorem execExecute_deselected {opcode e : Byte} {params : List Param} {dsts : List Dst} {s t : State}
    (hsel : s.sel = false) (h : execExecute opcode params e dsts s = .next t) : t.sel = false := by
  rw [execExecute, executeWith, whenIdle_next] at h
  obtain ⟨_, rfl⟩ | ⟨_, h⟩ := h
  · exact hsel
  · simp only [require_next] at h
    obtain ⟨hfit, _, _, h⟩ := h
    cases h
    rw [endExchange_sel, exchange_sel _ _ _ _ _ ((paramsFit_iff params).1 hfit)]

theorem execExecuteVariable_deselected {opcode m : Byte} {dsts : List Dst} {s t : State}
    (hsel : s.sel = false) (h : execExecuteVariable opcode m dsts s = .next t) : t.sel = false := by
  rw [execExecuteVariable, executeVariableWith, whenIdle_next] at h
  obtain ⟨_, rfl⟩ | ⟨_, h⟩ := h
  · exact hsel
  · obtain ⟨_, h⟩ := require_next.1 h
    cases h
    rw [endExchange_sel, exchange_sel _ _ _ _ _ (Nat.zero_le _)]

theorem execPollDataSent_deselected {opcode : Byte} {params : List Param} {dst : Handle} {s t : State}
    (hsel : s.sel = false) (h : execPollDataSent opcode params dst s = .next t) : t.sel = false := by
  rw [execPollDataSent, pollDataSentWith, whenIdle_next] at h
  obtain ⟨_, rfl⟩ | ⟨_, h⟩ := h
  · exact hsel
  · simp only [require_next] at h
    obtain ⟨hfit, _, h⟩ := h
    cases h
    exact pollAttempts_sel _ _ _ _ _ ((paramsFit_iff params).1 hfit) hsel

/-! ### What a deselected link admits -/

/-- An ACQUIRE that leaves the link selected returned OK; its Timeout deselects (42_link_arbiter.md R121). -/
theorem acquire_result_of_selected {s t : State} (h : exec .acquire s = .next t) (ht : t.sel = true) :
    t.result = some .done := by
  rw [exec_acquire, requireDriver_next, require_next] at h
  obtain ⟨_, _, h⟩ := h
  cases h
  obtain ⟨a, rd, d, _, e⟩ | ⟨rd, d, e⟩ := acquireLink_cases Config.hw s one_le_acqRetryMax_hw
  · rw [e]
    rfl
  · rw [e] at ht
    cases ht

/-- Everything taken on a deselected link: the arbiter's two operations, and requests that are no primitive and
leave the link deselected. Every codec step, the wire rows' among them, is stopped by its gate. -/
theorem exec_deselected_next {i : Instr} {s t : State} (hsel : s.sel = false) (h : exec i s = .next t) :
    i = .acquire ∨ i = .release ∨ (isPrimitive i = false ∧ t.sel = false) := by
  cases i with
  | acquire => exact .inl rfl
  | release => exact .inr (.inl rfl)
  | noOperation => cases h; exact .inr (.inr ⟨rfl, hsel⟩)
  | replyFrame confirm payloads =>
    obtain ⟨_, h⟩ := require_next.1 h
    cases h
    exact .inr (.inr ⟨rfl, hsel⟩)
  | execute opcode params e dsts => exact .inr (.inr ⟨rfl, execExecute_deselected hsel h⟩)
  | executeVariable opcode m dsts => exact .inr (.inr ⟨rfl, execExecuteVariable_deselected hsel h⟩)
  | pollDataSent opcode params dst => exact .inr (.inr ⟨rfl, execPollDataSent_deselected hsel h⟩)
  | reserved => cases h
  | encHeader | encodeCommand | cmdFrame | setNet | getConnStatus => exact absurd h (requireHeader_deselected hsel)
  | encParam | encParamU16 | paramU16 => exact absurd h (requireRecord_deselected hsel)
  | padToWord | encEnd => exact absurd h (requireClosing_deselected hsel)
  | decodeReplyHeader | decodeParameter | decodeEnd | setNetReply | getConnStatusReply =>
    exact absurd h (requireDecoder_deselected hsel)

end Sys2Proof.Laws
end

section
/-! The statements of 70_reset_and_hazards.md about the reset state and the deselected link. -/

namespace Sys2Proof.Proofs

open Sys2Proof.Machine Sys2Proof.Safety Sys2Proof.Laws

/-- Settles O10: both halves read off what a deselected link admits; RELEASE leaves it deselected, and an ACQUIRE
selects only with OK. -/
theorem codecRefusedOnDeselectedLink : Obligations.CodecRefusedOnDeselectedLink := by
  unfold Obligations.CodecRefusedOnDeselectedLink
  refine ⟨fun i s hprim hacquire hrelease hsel => refused_of_not_next fun t ht => ?_, fun i s t hsel h ht => ?_⟩
  · obtain rfl | rfl | ⟨hnot, _⟩ := exec_deselected_next hsel ht
    · exact hacquire rfl
    · exact hrelease rfl
    · simp [hprim] at hnot
  · obtain rfl | rfl | ⟨_, hdeselected⟩ := exec_deselected_next hsel h
    · exact ⟨rfl, acquire_result_of_selected h ht⟩
    · obtain ⟨_, h⟩ := requireDriver_next.1 h
      cases h
      cases ht
    · simp [ht] at hdeselected

/-- Settles O47: the reset state's registers are written out in the model; a step on an empty port is NONE. -/
theorem resetLeavesTheLinkIdle : Obligations.ResetLeavesTheLinkIdle :=
  ⟨rfl, rfl, rfl, rfl, rfl, rfl, rfl, fun _ => step_of_port_nil⟩

end Sys2Proof.Proofs
end

section
/-! SUPPORT. The parsers read backwards: what a byte sequence is when a parser answers for it (30_encoding.md R62, R71,
R52), and the two bytes of a 16-bit numeric put together and taken apart (R59, R72). -/

namespace Sys2Proof.Laws

open Sys2Proof.Machine Sys2Proof.Safety

/-! ### Records and the body of a frame -/

/-- `parseRecords` answers for exactly the bytes that records are written as (30_encoding.md R53, R62). -/
theorem parseRecords_eq_some {n : Nat} {bytes left : List Byte} {payloads : List (List Byte)} :
    parseRecords n bytes = some (payloads, left) ↔
      payloads.length = n ∧ (∀ b ∈ payloads, b.length ≤ 255) ∧ bytes = payloads.flatMap recordBytes ++ left := by
  constructor
  · intro h
    induction n generalizing bytes payloads with
    | zero =>
      obtain ⟨rfl, rfl⟩ : [] = payloads ∧ bytes = left := by simpa [parseRecords] using h
      simp
    | succ n ih =>
      cases bytes with
      | nil => simp [parseRecords] at h
      | cons len rest =>
        simp only [parseRecords] at h
        split at h
        case isFalse => cases h
        case isTrue hlong =>
          split at h
          case h_2 => cases h
          case h_1 payloads' left' hrest =>
            obtain ⟨rfl, rfl⟩ : rest.take len.toNat :: payloads' = payloads ∧ left' = left := by simpa using h
            obtain ⟨hcount, hle, hbytes⟩ := ih hrest
            have hlt := len.isLt
            have hlen : (rest.take len.toNat).length = len.toNat := by simpa using hlong
            refine ⟨by simp [hcount], ?_, ?_⟩
            · simpa [hlen] using ⟨by omega, hle⟩
            · rw [List.flatMap_cons, recordBytes_of_length hlen, List.cons_append, List.cons_append, List.append_assoc,
                ← hbytes, List.take_append_drop]
  · rintro ⟨rfl, hle, rfl⟩
    exact parseRecords_records payloads left hle

/-- A count byte holds the number of parameters it was written from (30_encoding.md R54). -/
theorem toNat_count {payloads : List (List Byte)} (h : payloads.length ≤ 255) :
    (BitVec.ofNat 8 payloads.length).toNat = payloads.length := by
  rw [BitVec.toNat_ofNat]
  omega

theorem frameBody_append (p : Params) (opcode : Byte) (payloads : List (List Byte)) (tail : List Byte) :
    frameBody p opcode payloads ++ tail =
      p.startByte :: opcode :: BitVec.ofNat 8 payloads.length :: (payloads.flatMap recordBytes ++ tail) := by
  simp [frameBody]

/-- A header byte by byte and the records after it are a body of payloads a frame can carry. -/
theorem frameBody_of_parseRecords (p : Params) (opcode : Byte) {count : Byte} {rest tail : List Byte}
    {payloads : List (List Byte)} (h : parseRecords count.toNat rest = some (payloads, tail)) :
    payloadsFit payloads = true ∧ p.startByte :: opcode :: count :: rest = frameBody p opcode payloads ++ tail := by
  obtain ⟨hcount, hle, rfl⟩ := parseRecords_eq_some.1 h
  have hlt := count.isLt
  refine ⟨(payloadsFit_iff _).2 ⟨by omega, hle⟩, ?_⟩
  rw [frameBody_append, hcount, BitVec.ofNat_toNat, BitVec.setWidth_eq]

/-! ### Command frames and reply frames -/

/-- `ParseCommand` answers for a body and a tail that fits it (30_encoding.md R71). -/
theorem parseCommand_eq_ok {p : Params} {bytes : List Byte} {opcode : Byte} {payloads : List (List Byte)} :
    parseCommand p bytes = .ok (opcode, payloads) ↔ payloadsFit payloads = true ∧
      ∃ tail, bytes = frameBody p opcode payloads ++ tail ∧
        tailFits p (frameBody p opcode payloads).length tail = true := by
  constructor
  · intro h
    simp only [parseCommand] at h
    split at h
    case h_2 => cases h
    case h_1 start opcode' count rest =>
      split at h
      case isFalse => cases h
      case isTrue hstart =>
        split at h
        case h_2 => cases h
        case h_1 payloads' tail hrecords =>
          split at h
          case isFalse => cases h
          case isTrue htail =>
            obtain ⟨rfl, rfl⟩ : opcode' = opcode ∧ payloads' = payloads := by simpa using h
            obtain ⟨hfit, hbytes⟩ := frameBody_of_parseRecords p opcode' hrecords
            rw [hstart, hbytes, List.length_append, Nat.add_sub_cancel] at htail
            exact ⟨hfit, tail, by rw [hstart, hbytes], htail⟩
  · rintro ⟨hfit, tail, rfl, htail⟩
    obtain ⟨hcount, hle⟩ := (payloadsFit_iff _).1 hfit
    have hlen : (frameBody p opcode payloads ++ tail).length - tail.length = (frameBody p opcode payloads).length := by
      simp
    rw [frameBody_append] at hlen ⊢
    simp only [parseCommand, if_true, toNat_count hcount, parseRecords_records payloads _ hle, hlen, htail]

/-- A reply frame is a body and END (30_encoding.md R52). -/
theorem parseReplyFrame_eq_ok {p : Params} {bytes : List Byte} {confirm : Byte} {payloads : List (List Byte)} :
    parseReplyFrame p bytes = .ok (confirm, payloads) ↔
      payloadsFit payloads = true ∧ bytes = replyFrameBytes p confirm payloads := by
  constructor
  · intro h
    simp only [parseReplyFrame] at h
    split at h
    case h_2 => cases h
    case h_1 start confirm' count rest =>
      split at h
      case isFalse => cases h
      case isTrue hstart =>
        split at h
        case h_2 => cases h
        case h_1 payloads' tail hrecords =>
          split at h
          case isFalse => cases h
          case isTrue htail =>
            obtain ⟨rfl, rfl⟩ : confirm' = confirm ∧ payloads' = payloads := by simpa using h
            obtain ⟨hfit, hbytes⟩ := frameBody_of_parseRecords p confirm' hrecords
            exact ⟨hfit, by rw [hstart, hbytes, htail, replyFrameBytes]⟩
  · rintro ⟨hfit, rfl⟩
    obtain ⟨hcount, hle⟩ := (payloadsFit_iff _).1 hfit
    rw [replyFrameBytes, frameBody_append]
    simp only [parseReplyFrame, if_true, toNat_count hcount, parseRecords_records payloads _ hle]

/-- With the filler before END, a tail that fits is filler of any value and END (30_encoding.md R71). -/
theorem tailFits_beforeEnd {p : Params} (h : p.padPosition = .beforeEnd) (n : Nat) (tail : List Byte) :
    tailFits p n tail = true ↔
      ∃ filler : List Byte, filler.length = fillerCount (n + 1) ∧ tail = filler ++ [p.endByte] := by
  simp only [tailFits, h, beq_iff_eq]
  constructor
  · intro hdrop
    have hlen := congrArg List.length hdrop
    simp only [List.length_drop, List.length_singleton] at hlen
    exact ⟨tail.take (fillerCount (n + 1)), by rw [List.length_take]; omega, by rw [← hdrop, List.take_append_drop]⟩
  · rintro ⟨filler, hlen, rfl⟩
    rw [← hlen, List.drop_left]

/-- With the filler after END, a tail that fits is END and filler of any value (30_encoding.md R71). -/
theorem tailFits_afterEnd {p : Params} (h : p.padPosition = .afterEnd) (n : Nat) (tail : List Byte) :
    tailFits p n tail = true ↔
      ∃ filler : List Byte, filler.length = fillerCount (n + 1) ∧ tail = p.endByte :: filler := by
  simp only [tailFits, h, Bool.and_eq_true, beq_iff_eq]
  constructor
  · rintro ⟨hhead, hlen⟩
    obtain ⟨filler, rfl⟩ := List.head?_eq_some_iff.1 hhead
    exact ⟨filler, by simpa using hlen, rfl⟩
  · rintro ⟨filler, hlen, rfl⟩
    simp [hlen]

/-! ### 16-bit numerics -/

theorem hiByte_halfOf (hi lo : Byte) : hiByte (halfOf hi lo) = hi :=
  BitVec.extractLsb'_append_eq_left

theorem loByte_halfOf (hi lo : Byte) : loByte (halfOf hi lo) = lo :=
  BitVec.extractLsb'_append_eq_right

theorem decodeRecord_eq_ok {bytes : List Byte} {i : Instr} :
    decodeRecord bytes = .ok i ↔ ∃ value, i = .paramU16 value ∧ bytes = recordBytes (u16Payload value) := by
  constructor
  · intro h
    simp only [decodeRecord] at h
    split at h
    case h_2 => cases h
    case h_1 len hi lo =>
      split at h
      case isFalse => cases h
      case isTrue hlen =>
        obtain rfl : .paramU16 (halfOf hi lo) = i := by simpa using h
        refine ⟨halfOf hi lo, rfl, ?_⟩
        rw [hlen, u16Payload, hiByte_halfOf, loByte_halfOf]
        rfl
  · rintro ⟨value, rfl, rfl⟩
    simp only [recordBytes_u16, decodeRecord, if_true]
    exact congrArg (fun v => Except.ok (Instr.paramU16 v)) (halfOf_bytes value)

/-! ### Opcode bytes -/

theorem decodeOpcode_eq_ok {bytes : List Byte} {i : Instr} :
    decodeOpcode bytes = .ok i ↔ ∃ count, (i = .setNet count ∧ bytes = [opcSetNet, count]) ∨
      (i = .getConnStatus count ∧ bytes = [opcGetConnStatus, count]) := by
  constructor
  · intro h
    simp only [decodeOpcode] at h
    split at h
    case h_2 => cases h
    case h_1 opcode count =>
      split at h
      case isTrue hset =>
        cases h
        exact ⟨count, .inl ⟨rfl, by rw [hset]⟩⟩
      case isFalse =>
        split at h
        case isTrue hget =>
          cases h
          exact ⟨count, .inr ⟨rfl, by rw [hget]⟩⟩
        case isFalse => cases h
  · rintro ⟨count, ⟨rfl, rfl⟩ | ⟨rfl, rfl⟩⟩ <;> rfl

theorem decodeConfirm_eq_ok {p : Params} {answered confirm : Byte} {i : Instr} :
    decodeConfirm p answered confirm = .ok i ↔ confirm = confirmByte p answered ∧
      ((i = .setNetReply ∧ answered = opcSetNet) ∨ (i = .getConnStatusReply ∧ answered = opcGetConnStatus)) := by
  have hne : opcGetConnStatus ≠ opcSetNet := by decide
  constructor
  · intro h
    simp only [decodeConfirm] at h
    split at h
    case isFalse => cases h
    case isTrue hconfirm =>
      split at h
      case isTrue hset =>
        cases h
        exact ⟨hconfirm, .inl ⟨rfl, hset⟩⟩
      case isFalse =>
        split at h
        case isTrue hget =>
          cases h
          exact ⟨hconfirm, .inr ⟨rfl, hget⟩⟩
        case isFalse => cases h
  · rintro ⟨rfl, ⟨rfl, rfl⟩ | ⟨rfl, rfl⟩⟩
    · simp [decodeConfirm]
    · simp [decodeConfirm, hne]

/-! ### The reply marker (00_scope.md R8) -/

/-- The known 1 bit of the marker is outside bit 5. -/
theorem not_bit5_and_markerBit (k : Fin 7) : ~~~0x20#8 &&& markerBit k ≠ 0x00#8 := by
  revert k
  decide

/-- Whatever the open bits of the marker are, it has a 1 outside bit 5. -/
theorem not_bit5_and_replyMarker : ~~~0x20#8 &&& Config.hw.replyMarker ≠ 0x00#8 := by
  have hmarker : Config.hw.replyMarker = Config.replyMarkerBits ||| markerBit Config.replyMarkerBit := rfl
  rw [hmarker, BitVec.and_or_distrib_left, Ne, BitVec.or_eq_zero_iff]
  exact fun ⟨_, hknown⟩ => not_bit5_and_markerBit _ hknown

theorem replyMarker_ne_zero : Config.hw.replyMarker ≠ 0x00#8 := fun h =>
  not_bit5_and_replyMarker (by rw [h]; rfl)

theorem or_replyMarker_ne : 0x20#8 ||| Config.hw.replyMarker ≠ 0x20#8 := fun h => by
  have hmask : ~~~0x20#8 &&& (0x20#8 ||| Config.hw.replyMarker) = 0x00#8 := by
    rw [h]
    rfl
  rw [BitVec.and_or_distrib_left, BitVec.or_eq_zero_iff] at hmask
  obtain ⟨_, hmarker⟩ := hmask
  exact not_bit5_and_replyMarker hmarker

end Sys2Proof.Laws
end

section
/-! The statements of 30_encoding.md about the decoder and the encoder. -/

namespace Sys2Proof.Proofs

open Sys2Proof.Machine Sys2Proof.Safety Sys2Proof.Laws

/-- Settles O1: the rows of the operation port carry their operands in fields of their own; the rows of the wire are
read back by the parser of their format. -/
theorem decodeOfEncodeIsIdentity : Obligations.DecodeOfEncodeIsIdentity := by
  unfold Obligations.DecodeOfEncodeIsIdentity
  intro p i hwf
  cases i with
  | cmdFrame opcode payloads =>
    obtain ⟨hcount, hle⟩ := (payloadsFit_iff payloads).1 hwf
    rw [encodeWith, decodeWith, parseCommand_encodeFrame p opcode payloads hcount hle]
    rfl
  | replyFrame confirm payloads =>
    rw [encodeWith, decodeWith, parseReplyFrame_eq_ok.2 ⟨hwf, rfl⟩]
    rfl
  | paramU16 value => exact decodeRecord_eq_ok.2 ⟨value, rfl, rfl⟩
  | setNet count => exact decodeOpcode_eq_ok.2 ⟨count, .inl ⟨rfl, rfl⟩⟩
  | getConnStatus count => exact decodeOpcode_eq_ok.2 ⟨count, .inr ⟨rfl, rfl⟩⟩
  | setNetReply => exact decodeConfirm_eq_ok.2 ⟨rfl, .inl ⟨rfl, rfl⟩⟩
  | getConnStatusReply => exact decodeConfirm_eq_ok.2 ⟨rfl, .inr ⟨rfl, rfl⟩⟩
  | _ => rfl

/-- Settles O4: each form is the one that encodes the instruction, so the round trip reads it back. -/
theorem sampleWordsDecode : Obligations.SampleWordsDecode :=
  have hround (i : Instr) (hwf : i.wellFormed = true) : decode (encode i) = .ok i :=
    decodeOfEncodeIsIdentity Config.hw i hwf
  ⟨rfl, rfl, rfl, rfl, rfl, rfl, hround (.cmdFrame 0x20#8 []) rfl, hround (.replyFrame 0xA0#8 [[0x03#8]]) rfl,
    hround .getConnStatusReply rfl⟩

/-- Settles O5: whatever the open bits are, the marker has a 1 in a bit outside bit 5; the budgets are successors. -/
theorem parametersMeetTheirConstraints : Obligations.ParametersMeetTheirConstraints :=
  ⟨replyMarker_ne_zero, or_replyMarker_ne, Nat.le_add_left _ _, Nat.le_add_left _ _⟩

/-- Settles O60: each parser answers for its format alone, and an undecodable request is refused by the step. -/
theorem onlyTheFormatsDecode : Obligations.OnlyTheFormatsDecode := by
  unfold Obligations.OnlyTheFormatsDecode
  refine ⟨fun p bytes opcode payloads => ?_, fun p bytes i => ?_, fun p f i hport hcommand h => ?_,
    fun s r rest e hr hidle he => ?_⟩
  · rw [parseCommand_eq_ok]
    refine and_congr_right fun _ => ?_
    cases hpos : p.padPosition with
    | beforeEnd =>
      simp only [tailFits_beforeEnd hpos]
      exact ⟨fun ⟨_, hbytes, filler, hlen, htail⟩ => ⟨filler, hlen, htail ▸ hbytes⟩,
        fun ⟨filler, hlen, hbytes⟩ => ⟨_, hbytes, filler, hlen, rfl⟩⟩
    | afterEnd =>
      simp only [tailFits_afterEnd hpos]
      exact ⟨fun ⟨_, hbytes, filler, hlen, htail⟩ => ⟨filler, hlen, htail ▸ hbytes⟩,
        fun ⟨filler, hlen, hbytes⟩ => ⟨_, hbytes, filler, hlen, rfl⟩⟩
  · rw [decodeWith]
    cases hparse : parseCommand p bytes with
    | error e => simp [Except.map]
    | ok r =>
      obtain ⟨opcode, payloads⟩ := r
      simp [Except.map, eq_comm]
  · cases f with
    | opSel port => exact absurd rfl (hport port)
    | commandFrame bytes => exact absurd rfl (hcommand bytes)
    | replyFrame bytes =>
      rw [decodeWith] at h
      cases hparse : parseReplyFrame p bytes with
      | error e => simp [hparse, Except.map] at h
      | ok r =>
        obtain ⟨hfit, rfl⟩ := parseReplyFrame_eq_ok.1 hparse
        obtain rfl : Instr.replyFrame r.1 r.2 = i := by simpa [hparse, Except.map] using h
        exact ⟨hfit, rfl⟩
    | parameterRecord bytes =>
      obtain ⟨value, rfl, rfl⟩ := decodeRecord_eq_ok.1 h
      exact ⟨rfl, rfl⟩
    | commandOpcode bytes =>
      obtain ⟨count, ⟨rfl, rfl⟩ | ⟨rfl, rfl⟩⟩ := decodeOpcode_eq_ok.1 h
      · exact ⟨rfl, rfl⟩
      · exact ⟨rfl, rfl⟩
    | replyOpcode answered confirm =>
      obtain ⟨rfl, ⟨rfl, rfl⟩ | ⟨rfl, rfl⟩⟩ := decodeConfirm_eq_ok.1 h
      · exact ⟨rfl, rfl⟩
      · exact ⟨rfl, rfl⟩
  · refine step_undecoded (by simp [busy, hidle]) ?_
    rwa [fetch, hr]

end Sys2Proof.Proofs
end

section
/-! SUPPORT. The gate each arm of `exec` begins with, by what it refuses and under which name (60_exceptions.md R171,
R176; 70_reset_and_hazards.md R196, R197; 93_implementation_defined.md section 1). -/

namespace Sys2Proof.Laws

open Sys2Proof.Machine Sys2Proof.Safety

/-! ### Taking a request from the port -/

theorem fetch_of_port_cons {s : State} {r : Request} {rest : List Request} (h : s.port = r :: rest) :
    fetch s = r := by
  rw [fetch, h]

theorem accept_of_port_cons {s : State} {r : Request} {rest : List Request} (h : s.port = r :: rest) :
    accept s = { s with port := rest, level := r.level } := by
  rw [accept, fetch_of_port_cons h, h, List.tail_cons]

theorem busy_eq_false {s : State} : busy s = false ↔ s.seqPhase = .idle := by
  simp [busy]

theorem busy_eq_true {s : State} : busy s = true ↔ s.seqPhase ≠ .idle := by
  simp [busy]

/-- A step from an idle state runs the oldest request, taken off the port (30_encoding.md R66). -/
theorem step_of_port_cons {s : State} {r : Request} {rest : List Request} {i : Instr} (h : s.port = r :: rest)
    (hidle : s.seqPhase = .idle) (hd : decode r.form = .ok i) :
    step s = exec i { s with port := rest, level := r.level } := by
  rw [step_taken (busy_eq_false.2 hidle) (by rwa [fetch_of_port_cons h]), accept_of_port_cons h]

/-! ### The arms of `exec` -/

theorem exec_encodeCommand (opcode : Byte) (params : List Param) (flags : List Bool) (s : State) :
    exec (.encodeCommand opcode params flags) s =
      requireHeader s (require (paramsFit params) .tooManyParams (require (flagsFit params flags) .flagsDisagree
        (require (sourcesHold s.sizes params) .sourceTooShort
          (.next (finish .done (writeCommand Config.hw opcode params flags s)))))) := rfl

theorem exec_padToWord (total : Half) (s : State) : exec (.padToWord total) s =
    requireClosing s (.next (finish .done (padToWord Config.hw total s))) := rfl

theorem exec_encEnd (s : State) : exec .encEnd s =
    requireClosing s (.next (finish .done (writeEnd Config.hw s))) := rfl

theorem exec_cmdFrame (opcode : Byte) (payloads : List (List Byte)) (s : State) :
    exec (.cmdFrame opcode payloads) s = requireHeader s (require (payloadsFit payloads) .frameTooLarge
      (.next (finish .done (writeFrame Config.hw opcode payloads s)))) := rfl

theorem exec_replyFrame (confirm : Byte) (payloads : List (List Byte)) (s : State) :
    exec (.replyFrame confirm payloads) s = require (payloadsFit payloads) .frameTooLarge
      (.next (presentBytes (replyFrameBytes Config.hw confirm payloads) s)) := rfl

/-- PARAM_U16 is ENC_PARAM_U16 with the mark that agrees (log 10). -/
theorem exec_paramU16 (value : Half) (s : State) :
    exec (.paramU16 value) s = exec (.encParamU16 value (s.encRemaining == 0x01#8)) s := rfl

theorem exec_setNet (count : Byte) (s : State) : exec (.setNet count) s = exec (.encHeader 0x10#8 count) s := rfl

theorem exec_getConnStatus (count : Byte) (s : State) :
    exec (.getConnStatus count) s = exec (.encHeader 0x20#8 count) s := rfl

theorem exec_setNetReply (s : State) : exec .setNetReply s = exec (.decodeReplyHeader 0x10#8) s := rfl

theorem exec_getConnStatusReply (s : State) :
    exec .getConnStatusReply s = exec (.decodeReplyHeader 0x20#8) s := rfl

theorem exec_executeVariable (opcode m : Byte) (dsts : List Dst) (s : State) :
    exec (.executeVariable opcode m dsts) s = execExecuteVariable opcode m dsts s := rfl

theorem exec_pollDataSent (opcode : Byte) (params : List Param) (dst : Handle) (s : State) :
    exec (.pollDataSent opcode params dst) s = execPollDataSent opcode params dst s := rfl

/-! ### The level -/

/-- Every primitive asks for driver level before anything else (60_exceptions.md R171). -/
theorem exec_primitive_gate {i : Instr} (h : isPrimitive i = true) (s : State) :
    ∃ k, exec i s = requireDriver s k := by
  cases i with
  | encHeader | encParam | encParamU16 | padToWord | encEnd | encodeCommand | decodeReplyHeader | decodeParameter
  | decodeEnd | acquire | release => exact ⟨_, rfl⟩
  | _ => cases h

theorem requireDriver_client {s : State} (h : s.level = .client) (k : Answer) :
    requireDriver s k = .refused .primitiveAtClientLevel := by
  rw [requireDriver, h]
  rfl

/-! ### The selection and the position -/

theorem requireSelected_refused {s : State} (h : s.sel = false) (k : Answer) :
    requireSelected s k = .refused .linkNotSelected := by
  simp [requireSelected, h]

theorem requireHeader_open {s : State} (hlevel : s.level = .driver) (hsel : s.sel = true) (hopen : s.encState = .open)
    (k : Answer) : requireHeader s k = .refused .encoderNotIdle := by
  rw [requireHeader, requireDriver_ready hlevel, requireSelected, hsel, hopen]
  rfl

theorem requireRecord_idle {s : State} (hlevel : s.level = .driver) (hsel : s.sel = true) (hidle : s.encState = .idle)
    (last : Bool) (k : Answer) : requireRecord last s k = .refused .encoderNotOpen := by
  rw [requireRecord, requireDriver_ready hlevel, requireSelected, hsel, hidle]
  rfl

theorem requireRecord_disagrees {s : State} (h : recordReady s) {last : Bool}
    (hlast : ¬(last = true ↔ s.encRemaining = 0x01#8)) (k : Answer) :
    requireRecord last s k = .refused .lastDisagrees := by
  have ⟨hlevel, hsel, hopen⟩ := h
  have hagree : lastAgrees s.encRemaining last = false := by
    rw [← Bool.not_eq_true, lastAgrees_iff]
    exact hlast
  simp [requireRecord, requireDriver, requireSelected, hlevel, hsel, hopen, hagree]

theorem requireDecoder_elsewhere {pos : DecState} {r : Refusal} {s : State} (hlevel : s.level = .driver)
    (hsel : s.sel = true) (hpos : s.decState ≠ pos) (k : Answer) : requireDecoder pos r s k = .refused r := by
  simp [requireDecoder, requireDriver, requireSelected, hlevel, hsel, beq_false_of_ne hpos]

theorem requireClosing_outside {s : State} (hlevel : s.level = .driver) (h : s.closing = false) (k : Answer) :
    requireClosing s k = .refused .outsideClosing := by
  simp [requireClosing, requireDriver, hlevel, h]

theorem requireClosing_refused {s : State} (h : ¬(s.closing = true ∧ s.sel = true)) (k : Answer) :
    ∃ r, requireClosing s k = .refused r :=
  refused_of_not_next fun _ ht =>
    have ⟨_, hclosing, hsel⟩ := (requireClosing_next.1 ht).1
    h ⟨hclosing, hsel⟩

/-! ### The driver operations -/

/-- Every driver operation is held while FCLA is busy and needs the link at rest before anything else
(43_command_driver.md R136, R140). -/
theorem exec_driver_gate {i : Instr} (h : isDriverOperation i = true) (s : State) :
    ∃ k, exec i s = whenIdle s k := by
  cases i with
  | execute | executeVariable | pollDataSent => exact ⟨_, rfl⟩
  | _ => cases h

theorem whenIdle_busy {s : State} (h : s.seqPhase ≠ .idle) (k : Answer) : whenIdle s k = .next s := by
  simp only [whenIdle, busy_eq_true.2 h]

/-- Not busy, a driver operation is refused by the first part of rest that is missing (log 18). -/
theorem whenIdle_idle {s : State} (h : s.seqPhase = .idle) (k : Answer) : whenIdle s k = requireIdle s k := by
  simp only [whenIdle, busy_eq_false.2 h]

/-- What a driver operation is refused for: the link is not at rest, or its operands are refused. -/
theorem whenIdle_refused {s : State} {k : Answer} {q : Refusal} (h : whenIdle s k = .refused q) :
    q = .linkSelected ∨ q = .encoderNotIdle ∨ q = .decoderNotIdle ∨ k = .refused q := by
  by_cases hidle : s.seqPhase = .idle
  · rw [whenIdle_idle hidle] at h
    simp only [requireIdle, require_refused] at h
    tauto
  · rw [whenIdle_busy hidle] at h
    cases h

/-- No driver operation asks for a level (60_exceptions.md R171). -/
theorem exec_driver_ne_level {i : Instr} (h : isDriverOperation i = true) (s : State) :
    exec i s ≠ .refused .primitiveAtClientLevel := by
  intro hr
  cases i with
  | execute | executeVariable | pollDataSent => have hk := whenIdle_refused hr; simp [require_refused] at hk
  | _ => cases h

end Sys2Proof.Laws
end

section
/-! The statements about the operation port, the access levels, and requests that are refused. -/

namespace Sys2Proof.Proofs

open Sys2Proof.Machine Sys2Proof.Safety Sys2Proof.Laws

/-- Settles O7: a busy step is no step, and every driver operation begins with the same test; an idle one takes the
request. -/
theorem driverRequestsWaitWhileBusy : Obligations.DriverRequestsWaitWhileBusy := by
  unfold Obligations.DriverRequestsWaitWhileBusy
  intro s r rest hport
  refine ⟨fun hbusy => ⟨step_busy (busy_eq_true.2 hbusy), fun i _ hdriver => ?_⟩,
    fun hidle i hd => step_of_port_cons hport hidle hd⟩
  obtain ⟨k, hgate⟩ := exec_driver_gate hdriver s
  rw [hgate, whenIdle_busy hbusy]

/-- Settles O11: each operation's gate, at the position that is not its own. -/
theorem operationsOutOfFrameOrderRefused : Obligations.OperationsOutOfFrameOrderRefused := by
  unfold Obligations.OperationsOutOfFrameOrderRefused
  intro s hlevel hsel
  exact ⟨fun hopen _ _ _ _ => ⟨requireHeader_open hlevel hsel hopen _, requireHeader_open hlevel hsel hopen _⟩,
    fun hidle _ _ last _ => ⟨requireRecord_idle hlevel hsel hidle last _, requireRecord_idle hlevel hsel hidle last _⟩,
    fun hopen _ _ _ _ hlast => ⟨requireRecord_disagrees ⟨hlevel, hsel, hopen⟩ hlast _,
      requireRecord_disagrees ⟨hlevel, hsel, hopen⟩ hlast _⟩,
    fun hpos _ => requireDecoder_elsewhere hlevel hsel hpos _,
    fun hpos _ _ => requireDecoder_elsewhere hlevel hsel hpos _,
    fun hpos => requireDecoder_elsewhere hlevel hsel hpos _,
    fun hclosing _ => ⟨requireClosing_outside hlevel hclosing _, requireClosing_outside hlevel hclosing _⟩⟩

/-- Settles O12: a wire row has the gate of the primitive it runs. -/
theorem wireRowsRefusedAsTheirPrimitives : Obligations.WireRowsRefusedAsTheirPrimitives := by
  unfold Obligations.WireRowsRefusedAsTheirPrimitives
  intro s opcode count payloads value
  refine ⟨fun hclient => ?_, fun hlevel hsel => ?_, fun hlevel hsel hopen => ?_,
    fun hlevel hsel hidle => requireRecord_idle hlevel hsel hidle _ _, fun hlevel hsel hpos => ?_⟩
  · have hgate := requireDriver_client hclient
    simp only [List.forall_mem_cons]
    exact ⟨hgate _, hgate _, hgate _, hgate _, hgate _, hgate _, nofun⟩
  · have hgate (k : Answer) : requireDriver s (requireSelected s k) = .refused .linkNotSelected := by
      rw [requireDriver_ready hlevel, requireSelected_refused hsel]
    simp only [List.forall_mem_cons]
    exact ⟨hgate _, hgate _, hgate _, hgate _, hgate _, hgate _, nofun⟩
  · have hgate := requireHeader_open hlevel hsel hopen
    simp only [List.forall_mem_cons]
    exact ⟨hgate _, hgate _, hgate _, nofun⟩
  · have hgate := requireDecoder_elsewhere (r := .decoderNotIdle) hlevel hsel hpos
    simp only [List.forall_mem_cons]
    exact ⟨hgate _, hgate _, nofun⟩

/-- Settles O13: not busy, every driver operation tests the link, the encoder and the decoder, in this order. -/
theorem driverOperationsNeedTheLinkAtRest : Obligations.DriverOperationsNeedTheLinkAtRest := by
  unfold Obligations.DriverOperationsNeedTheLinkAtRest
  intro i s hdriver hidle
  obtain ⟨k, hgate⟩ := exec_driver_gate hdriver s
  rw [hgate, whenIdle_idle hidle, requireIdle]
  refine ⟨fun hsel => ?_, fun hsel hopen => ?_, fun hsel henc hdec => ?_⟩
  · rw [hsel]
    rfl
  · rw [hsel, hopen]
    rfl
  · rw [hsel, henc, beq_false_of_ne hdec]
    rfl

/-- Settles O14: where the gate lets an operation through, the checks of its operands refuse in their order. -/
theorem unrepresentableOperandsRefused : Obligations.UnrepresentableOperandsRefused := by
  unfold Obligations.UnrepresentableOperandsRefused
  intro s opcode params flags e dsts dst payloads buf len last size
  have hmany (h : 255 < params.length) : paramsFit params = false := by
    rw [← Bool.not_eq_true, paramsFit_iff]
    omega
  have hdsts (h : dsts.length ≠ e.toNat) : dstsFit e dsts = false := by
    rw [← Bool.not_eq_true, dstsFit_iff]
    exact h
  refine ⟨fun hs hlast hsize hshort => ?_, fun hs hn hsrc => ?_, fun hs hn => ?_, fun hs hn hflags => ?_,
    fun hs hfit => ?_, fun hfit => ?_, fun hs hn => ?_, fun hs hn hd => ?_, fun hs hd => ?_, fun hs hn hd hsrc => ?_⟩
  · rw [exec_encParam, requireRecord_ready hs ((lastAgrees_iff _ _).2 hlast),
      (bufferHolds_eq_false _ _ _).2 ⟨size, hsize, hshort⟩, require_false]
  · rw [exec_encodeCommand, requireHeader_ready hs, (paramsFit_iff params).2 hn, (flagsFit_iff params _).2 rfl, hsrc]
    rfl
  · rw [exec_encodeCommand, requireHeader_ready hs, hmany hn, require_false]
  · have hdisagree : flagsFit params flags = false := by
      rw [← Bool.not_eq_true, flagsFit_iff]
      exact hflags
    rw [exec_encodeCommand, requireHeader_ready hs, (paramsFit_iff params).2 hn, hdisagree]
    rfl
  · rw [exec_cmdFrame, requireHeader_ready hs, hfit, require_false]
  · rw [exec_replyFrame, hfit, require_false]
  · rw [exec_execute, exec_pollDataSent, execExecute, executeWith, execPollDataSent, pollDataSentWith,
      whenIdle_atRest hs, whenIdle_atRest hs, hmany hn]
    exact ⟨rfl, rfl⟩
  · rw [exec_execute, execExecute, executeWith, whenIdle_atRest hs, (paramsFit_iff params).2 hn, hdsts hd]
    rfl
  · rw [exec_executeVariable, execExecuteVariable, executeVariableWith, whenIdle_atRest hs, hdsts hd, require_false]
  · rw [exec_execute, exec_pollDataSent, execExecute, executeWith, execPollDataSent, pollDataSentWith,
      whenIdle_atRest hs, whenIdle_atRest hs, (paramsFit_iff params).2 hn, (dstsFit_iff e dsts).2 hd, hsrc]
    exact ⟨rfl, rfl⟩

/-- Settles O6: the request on the port is decoded, taken and executed. -/
theorem stepRunsTheDecodedInstruction : Obligations.StepRunsTheDecodedInstruction :=
  fun _ _ _ _ hport hd _ hidle => step_of_port_cons hport hidle hd

/-- Settles O9: every primitive asks for the level first; no check of a driver operation is named after it. -/
theorem onlyDriverOperationsAtClientLevel : Obligations.OnlyDriverOperationsAtClientLevel := by
  unfold Obligations.OnlyDriverOperationsAtClientLevel
  refine fun i s => ⟨fun hprim hclient => ?_, fun hdriver => exec_driver_ne_level hdriver s⟩
  obtain ⟨k, hgate⟩ := exec_primitive_gate hprim s
  rw [hgate, requireDriver_client hclient]

/-- Settles O59: the bytes are read one by one from index 0 on, and a written one reads as written. -/
theorem sourceBytesAreReadInOrder : Obligations.SourceBytesAreReadInOrder := by
  unfold Obligations.SourceBytesAreReadInOrder
  refine fun m buf len => ⟨readBuffer_length m buf len, fun i v hi hread => ?_⟩
  have hindex : (List.range len.toNat)[i]? = some i := by
    rw [List.getElem?_range hi]
  rw [readBuffer, List.getElem?_map, hindex, Option.map_some, readByte_written hread]

end Sys2Proof.Proofs
end

section
/-! The statements about the closing sequence's two steps and the rows of the wire formats. -/

namespace Sys2Proof.Proofs

open Sys2Proof.Machine Sys2Proof.Safety Sys2Proof.Laws

/-- Settles O16: the rows are ENC_HEADER of their opcodes, whose clauses O15 states. -/
theorem wireOpcodesOpenTheirFrames : Obligations.WireOpcodesOpenTheirFrames := by
  unfold Obligations.WireOpcodesOpenTheirFrames
  intro s count hs
  rw [exec_setNet, exec_getConnStatus]
  obtain ⟨hset, hsetEmpty, _⟩ := headerWritesThreeBytesOrTheEmptyFrame s 0x10#8 count
  obtain ⟨hget, hgetEmpty, _⟩ := headerWritesThreeBytesOrTheEmptyFrame s 0x20#8 count
  by_cases hcount : count = 0x00#8
  · exact ⟨_, _, hsetEmpty hs hcount, hgetEmpty hs hcount, fun hne => absurd hcount hne, fun _ => ⟨rfl, rfl⟩⟩
  · exact ⟨_, _, hset hs hcount, hget hs hcount, fun _ => ⟨rfl, rfl⟩, fun hzero => absurd hzero hcount⟩

/-- Settles O19: the row is ENC_PARAM_U16 with the mark that agrees, whose clauses O18 states. -/
theorem wireNumericWritesItsRecord : Obligations.WireNumericWritesItsRecord := by
  unfold Obligations.WireNumericWritesItsRecord
  intro s value hs
  rw [exec_paramU16]
  refine ⟨fun hne => ?_, fun hone hok => ?_⟩
  · obtain ⟨hmiddle, _, _⟩ := numericParameterWritesItsRecord s value false
    rw [beq_false_of_ne hne, hmiddle hs hne]
  · obtain ⟨_, hlast, _⟩ := numericParameterWritesItsRecord s value true
    rw [beq_iff_eq.2 hone]
    exact hlast hs hone hok

/-- Settles O21: the step of `Close()` that the operation shares. -/
theorem padToWordSendsFiller : Obligations.PadToWordSendsFiller := by
  unfold Obligations.PadToWordSendsFiller
  intro s total
  rw [exec_padToWord]
  refine ⟨fun hs => ?_, fun h => requireClosing_refused h _⟩
  rw [requireClosing_ready hs, padToWord_eq, List.map_replicate]
  rfl

/-- Settles O22: the step of `Close()` that the operation shares. -/
theorem encEndSendsEnd : Obligations.EncEndSendsEnd := by
  unfold Obligations.EncEndSendsEnd
  intro s
  rw [exec_encEnd]
  refine ⟨fun hs => ?_, fun h => requireClosing_refused h _⟩
  rw [requireClosing_ready hs, writeEnd_eq]
  rfl

/-- Settles O24: a whole frame through the encoder is `EncodeFrame`. -/
theorem commandFrameIsSentAsLaidOut : Obligations.CommandFrameIsSentAsLaidOut := by
  unfold Obligations.CommandFrameIsSentAsLaidOut
  intro s opcode payloads hs hfit
  obtain ⟨hcount, hle⟩ := (payloadsFit_iff payloads).1 hfit
  rw [exec_cmdFrame, requireHeader_ready hs, hfit, require_true, writeFrame_eq _ _ _ _ hcount hle]
  rfl

/-- Settles O26: the marker changes 0x20, and the rows are DECODE_REPLY_HEADER of their opcodes, whose clauses O25
states. -/
theorem wireRepliesAreConfirmedByTheirMarker : Obligations.WireRepliesAreConfirmedByTheirMarker := by
  unfold Obligations.WireRepliesAreConfirmedByTheirMarker
  refine ⟨or_replyMarker_ne.symm, fun s n op pre rest hs hpre opcode i hi => ?_⟩
  have hrow : exec i s = exec (.decodeReplyHeader opcode) s := by
    obtain ⟨rfl, rfl⟩ | ⟨rfl, rfl⟩ := hi
    · exact exec_setNetReply s
    · exact exec_getConnStatusReply s
  obtain ⟨hconfirmed, _, hunconfirmed, _⟩ := replyHeaderIsFoundConfirmedAndCounted s opcode n op pre rest
  rw [hrow]
  exact ⟨hconfirmed hs hpre, hunconfirmed hs hpre⟩

/-- Settles O31: the peer presents the frame, a body and END. -/
theorem replyFrameIsPresentedAsLaidOut : Obligations.ReplyFrameIsPresentedAsLaidOut := by
  unfold Obligations.ReplyFrameIsPresentedAsLaidOut
  intro s confirm payloads hfit
  rw [exec_replyFrame, hfit, require_true, replyFrameBytes, frameBody, List.flatMap_def]
  rfl

end Sys2Proof.Proofs
end

section
/-! SUPPORT. One exchange against a peer that is ready in both ACQUIREs, for each way its reply can end the exchange
(60_exceptions.md R167, R170), and the two requests that are one exchange (43_command_driver.md R136, R137). -/

namespace Sys2Proof.Laws

open Sys2Proof.Machine Sys2Proof.Safety

/-- Both codec machines idle and the link deselected again, after a reply phase that received `bytes`, `pre` of them
before START (43_command_driver.md R139). -/
abbrev replyEnded (opcode : Byte) (params : List Param) (a b : Nat) (samples : List Bool) (pre bytes rest : List Byte)
    (s : State) : State :=
  { replyReady Config.hw opcode params a b samples s with
    sel := false, startCnt := Config.hw.startPollMax - pre.length, rxIn := rest
    trace := s.trace ++ commandSent a (commandFrame Config.hw opcode params s.mem) ++ replyReceived b bytes
      ++ [.sel false] }

section NamedReply

variable {opcode : Byte} {params : List Param} {a b : Nat} {samples : List Bool} {s : State} {pre rest : List Byte}
  (passes : Byte → Bool) (dsts : List Dst)
  (hn : params.length ≤ 255) (ha : a < Config.hw.acqRetryMax) (hb : b < Config.hw.acqRetryMax)
  (hrdy : s.rdyIn = List.replicate a false ++ true :: (List.replicate b false ++ true :: samples))
  (hpre : Config.hw.startByte ∉ pre)

include hn ha hb hrdy hpre

/-- No START within the polling budget: Timeout START. -/
theorem exchange_no_start (hlen : pre.length = Config.hw.startPollMax) (hrx : s.rxIn = pre ++ rest) :
    exchange Config.hw opcode params passes dsts s =
      (replyEnded opcode params a b samples pre pre rest s, .error (.timeout .start)) := by
  rw [exchange_reached _ opcode params passes dsts a b s samples hn ha hb hrdy,
    readHeader_missing _ opcode pre (replyReady _ opcode params a b samples s) rest hpre hlen hrx]
  simp [abort, releaseLink_eq, replyReceived, hlen]

/-- Another byte than the confirmation after START: ProtocolMismatch OPCODE. -/
theorem exchange_unconfirmed {op : Byte} (hlen : pre.length < Config.hw.startPollMax)
    (hop : op ≠ confirmByte Config.hw opcode) (hrx : s.rxIn = pre ++ Config.hw.startByte :: op :: rest) :
    exchange Config.hw opcode params passes dsts s =
      (replyEnded opcode params a b samples pre (pre ++ [Config.hw.startByte, op]) rest s,
        .error (.protocolMismatch .opcode op (some (confirmByte Config.hw opcode)))) := by
  rw [exchange_reached _ opcode params passes dsts a b s samples hn ha hb hrdy,
    readHeader_unconfirmed _ opcode op pre (replyReady _ opcode params a b samples s) rest hpre hlen hop hrx]
  simp [abort, releaseLink_eq, replyReceived]

/-- A count that does not pass: ProtocolMismatch COUNT, before any parameter. -/
theorem exchange_count_refused {n : Byte} (hlen : pre.length < Config.hw.startPollMax) (hcount : passes n = false)
    (hrx : s.rxIn = replyHead pre opcode n ++ rest) :
    exchange Config.hw opcode params passes dsts s =
      ({ replyEnded opcode params a b samples pre (replyHead pre opcode n) rest s with decRemaining := n },
        .error (.protocolMismatch .count n none)) := by
  rw [exchange_reached _ opcode params passes dsts a b s samples hn ha hb hrdy,
    readHeader_named _ opcode n pre _ rest hpre hlen (by simpa [replyHead] using hrx)]
  simp [testCount, hcount, abort, releaseLink_eq, replyReceived, replyHead]

/-- A count that passes leads on to the parameters. -/
theorem exchange_counted {n : Byte} (hlen : pre.length < Config.hw.startPollMax) (hcount : passes n = true)
    (hrx : s.rxIn = replyHead pre opcode n ++ rest) :
    exchange Config.hw opcode params passes dsts s =
      abortOnRaise (andThen (replyItems Config.hw dsts n { replyReady Config.hw opcode params a b samples s with
        startCnt := Config.hw.startPollMax - pre.length, rxIn := rest, decRemaining := n
        decState := if n = 0x00#8 then .atEnd else .params
        trace := s.trace ++ commandSent a (commandFrame Config.hw opcode params s.mem)
          ++ replyReceived b (replyHead pre opcode n) }) fun lens s => (s, .ok (n, lens))) := by
  rw [exchange_reached _ opcode params passes dsts a b s samples hn ha hb hrdy,
    readHeader_named _ opcode n pre _ rest hpre hlen (by simpa [replyHead] using hrx)]
  simp [testCount, hcount, replyReceived, replyHead]

/-- A parameter that declares more than its destination holds: BufferOverflow, with those before it delivered. -/
theorem exchange_overflow {n len : Byte} {before after : List Dst} {d : Dst} {payloads : List (List Byte)}
    (hlen : pre.length < Config.hw.startPollMax) (hcount : passes n = true) (hk : before.length < n.toNat)
    (hfit : payloadsFitDsts before payloads) (hcap : d.cap < len.toNat)
    (hrx : s.rxIn = replyHead pre opcode n ++ payloads.flatMap recordBytes ++ len :: rest) :
    ∃ left, exchange Config.hw opcode params passes (before ++ d :: after) s =
      ({ replyEnded opcode params a b samples pre (replyHead pre opcode n ++ payloads.flatMap recordBytes ++ [len])
          rest s with
          seqPhase := .rplPar, decRemaining := left, mem := deliver before payloads s.mem },
        .error (.bufferOverflow len d.cap (some before.length))) := by
  obtain ⟨m, hm⟩ : ∃ m, n.toNat = before.length + (m + 1) := ⟨n.toNat - before.length - 1, by omega⟩
  have hdsts : dstsFor n (before ++ d :: after) = before ++ d :: after.take m := by
    rw [dstsFor, hm, List.take_length_add_append, List.take_succ_cons]
  rw [exchange_counted passes _ hn ha hb hrdy hpre hlen hcount (by rw [hrx, List.append_assoc]), replyItems, hdsts]
  obtain ⟨left, e⟩ := readParameters_overflow before d (after.take m) 0 payloads len
    (enterPhase .rplPar { replyReady Config.hw opcode params a b samples s with
      startCnt := Config.hw.startPollMax - pre.length, decRemaining := n
      rxIn := payloads.flatMap recordBytes ++ len :: rest
      decState := if n = 0x00#8 then .atEnd else .params
      trace := s.trace ++ commandSent a (commandFrame Config.hw opcode params s.mem)
        ++ replyReceived b (replyHead pre opcode n) }) rest hfit hcap rfl
  refine ⟨left, ?_⟩
  rw [e]
  simp [abort, releaseLink_eq, replyReceived, enterPhase]

/-- A byte that is not END where the reply ends: ProtocolMismatch END, with every parameter delivered. -/
theorem exchange_wrong_end {n last : Byte} {payloads : List (List Byte)}
    (hlen : pre.length < Config.hw.startPollMax) (hcount : passes n = true) (hpayloads : payloads.length = n.toNat)
    (hfit : payloadsFitDsts (dstsFor n dsts) payloads) (hlast : last ≠ Config.endByte)
    (hrx : s.rxIn = replyHead pre opcode n ++ payloads.flatMap recordBytes ++ last :: rest) :
    exchange Config.hw opcode params passes dsts s =
      ({ replyEnded opcode params a b samples pre (replyHead pre opcode n ++ payloads.flatMap recordBytes ++ [last])
          rest s with
          seqPhase := .rplEnd, decRemaining := 0x00#8, mem := deliver (dstsFor n dsts) payloads s.mem },
        .error (.protocolMismatch .atEnd last (some Config.endByte))) := by
  have hend : endAccepted Config.hw last = false := by simpa [endAccepted, Config.hw] using hlast
  have hbyte : Config.hw.endByte = Config.endByte := rfl
  rw [exchange_counted passes dsts hn ha hb hrdy hpre hlen hcount (by rw [hrx, List.append_assoc]),
    replyItems_named _ dsts n last payloads _ rest hpayloads rfl hfit rfl, hend, hbyte]
  simp [abort, releaseLink_eq, replyReceived]

end NamedReply

/-! ### The requests that are one exchange -/

/-- EXECUTE and EXECUTE_VARIABLE at rest are one exchange with the count test of each (43_command_driver.md R136,
R137). -/
theorem exec_exchangeRequest {i : Instr} {opcode e : Byte} {params : List Param} {dsts : List Dst} {s : State}
    (hi : exchangeRequest i opcode params e dsts) (hs : atRest s) (hn : params.length ≤ 255)
    (hsrc : sourcesHold s.sizes params = true) (hd : dsts.length = e.toNat) :
    ∃ (passes : Byte → Bool) (f : Byte → List Byte → OpResult),
      (∀ n, passes n = true ↔ countPasses i opcode e n dsts) ∧
      exec i s = .next (endExchange (exchange Config.hw opcode params passes dsts s) f) := by
  obtain rfl | ⟨rfl, rfl⟩ := hi
  · exact ⟨admitExactly e, _, fun n => by simp [admitExactly, countPasses],
      execExecute_atRest opcode params e dsts s hs hn hsrc hd⟩
  · exact ⟨admitAtMost e, _, fun n => by simp [admitAtMost, countPasses],
      execExecuteVariable_atRest opcode e dsts s hs hd⟩

theorem endExchange_error (s : State) (err : OpError) (f : Byte → List Byte → OpResult) :
    endExchange (s, .error err) f = { s with seqPhase := .idle, result := some (.error err) } := rfl

theorem endExchange_ok (s : State) (a : Byte × List Byte) (f : Byte → List Byte → OpResult) :
    endExchange (s, .ok a) f = { s with seqPhase := .idle, result := some (f a.1 a.2) } := rfl

end Sys2Proof.Laws
end

section
/-! The statements of 43_command_driver.md and 60_exceptions.md R170 about EXECUTE and EXECUTE_VARIABLE. -/

namespace Sys2Proof.Proofs

open Sys2Proof.Machine Sys2Proof.Safety Sys2Proof.Laws

/-- Settles O36: at rest EXECUTE_VARIABLE is one exchange, and the exchange with a conforming peer completes with as
many destinations as the reply has parameters. -/
theorem executeVariableCompletesUpToItsBound : Obligations.ExecuteVariableCompletesUpToItsBound := by
  unfold Obligations.ExecuteVariableCompletesUpToItsBound
  intro s opcode m dsts payloads a b samples pre rest hs hd hle hfit ha hb hrdy ⟨hpre, hlen⟩ hrx
  have ⟨hsel, henc, hdec, hphase⟩ := hs
  have hcount := toNat_count (payloads := payloads) (by have := m.isLt; omega)
  have hpasses : admitAtMost m (BitVec.ofNat 8 payloads.length) = true := by
    simp only [admitAtMost, hcount]
    simpa using hle
  have hdsts : dstsFor (BitVec.ofNat 8 payloads.length) dsts = dsts.take payloads.length := by
    rw [dstsFor, hcount]
  have hframe : commandFrame Config.hw opcode [] s.mem = encodeFrame Config.hw opcode [] := rfl
  have hempty : (encodeFrame Config.hw opcode []).length = 4 :=
    encodeFrame_length_of_aligned Config.hw opcode [] (by rw [frameBody_length_nil])
  rw [exec_executeVariable, execExecuteVariable_atRest opcode m dsts s hs hd,
    exchange_completes Config.hw opcode _ [] (admitAtMost m) dsts payloads a b s samples pre rest (Nat.zero_le _) ha hb
      hrdy hpre hlen hcount.symm hpasses (by rwa [hdsts]) hrx, hdsts]
  simp [endExchange_ok, hframe, hempty, confirmByte, hsel, henc, hdec, hphase]

/-- Settles O37: both requests are one exchange, which ends at the ACQUIRE that times out. -/
theorem executeTimesOutWithoutReady : Obligations.ExecuteTimesOutWithoutReady := by
  unfold Obligations.ExecuteTimesOutWithoutReady
  intro i s opcode params e dsts a samples hi hs hn hsrc hd
  have ⟨hsel, henc, hdec, hphase⟩ := hs
  obtain ⟨passes, f, _, hexec⟩ := exec_exchangeRequest hi hs hn hsrc hd
  rw [hexec]
  refine ⟨fun hrdy => ?_, fun ha hrdy => ?_⟩
  · rw [exchange_first_never _ opcode params passes dsts s samples one_le_acqRetryMax_hw hrdy, endExchange_error]
    simp [hsel, henc, hdec, hphase]
  · rw [exchange_second_never _ opcode params passes dsts a s samples hn ha hrdy, endExchange_error]
    simp [hsel, henc, hdec, hphase]

/-- Settles O38: both requests are one exchange, which ends in the header or at the count test. -/
theorem executeErrorsBeforeAnyParameter : Obligations.ExecuteErrorsBeforeAnyParameter := by
  unfold Obligations.ExecuteErrorsBeforeAnyParameter
  intro i s opcode params e dsts a b samples pre rest hi hs hn hsrc hd ha hb hrdy hpre frame head ended hrx
  have ⟨hsel, henc, hdec, hphase⟩ := hs
  obtain ⟨passes, f, hpasses, hexec⟩ := exec_exchangeRequest hi hs hn hsrc hd
  rw [hexec]
  refine ⟨fun hlen hhead => ?_, fun op hlen hop hhead => ?_, fun n hlen hcount hhead => ?_⟩
  · subst hhead
    rw [exchange_no_start passes dsts hn ha hb hrdy hpre hlen (by simpa using hrx), endExchange_error]
    simp [ended, frame, hsel, henc, hdec, hphase]
  · subst hhead
    rw [exchange_unconfirmed passes dsts hn ha hb hrdy hpre hlen hop (by simpa using hrx), endExchange_error]
    simp [ended, frame, confirmByte, hsel, henc, hdec, hphase]
  · subst hhead
    have hrefused : passes n = false := by
      rw [← Bool.not_eq_true, hpasses]
      exact hcount
    rw [exchange_count_refused passes dsts hn ha hb hrdy hpre hlen hrefused hrx, endExchange_error]
    simp [ended, frame, replyHead, confirmByte, hsel, henc, hdec, hphase]

/-- Settles O39: the count error of O38, for a count above the bound. -/
theorem executeVariableRejectsExcessItems : Obligations.ExecuteVariableRejectsExcessItems := by
  unfold Obligations.ExecuteVariableRejectsExcessItems
  intro s opcode m n dsts a b samples pre rest hs hd hexcess ha hb hrdy ⟨hpre, hlen⟩ hrx
  obtain ⟨_, _, hcount⟩ := executeErrorsBeforeAnyParameter (.executeVariable opcode m dsts) s opcode [] m dsts a b
    samples pre rest (.inr ⟨rfl, rfl⟩) hs (Nat.zero_le _) rfl hd ha hb hrdy hpre _
    (by rw [hrx, replyHead])
  have hrefused : ¬countPasses (.executeVariable opcode m dsts) opcode m n dsts := by
    rw [countPasses, if_pos rfl]
    omega
  exact ⟨_, hcount n hlen hrefused rfl, rfl, rfl, hs, rfl, rfl⟩

/-- Settles O40: both requests are one exchange, which ends at the LEN byte that exceeds its capacity. -/
theorem executeOverflowKeepsEarlierParameters : Obligations.ExecuteOverflowKeepsEarlierParameters := by
  unfold Obligations.ExecuteOverflowKeepsEarlierParameters
  intro i s opcode params e n len before after d payloads a b samples pre rest hi hs hn hsrc hd hcount hk hfit hcap ha
    hb hrdy ⟨hpre, hlen⟩ hrx
  obtain ⟨passes, f, hpasses, hexec⟩ := exec_exchangeRequest hi hs hn hsrc hd
  obtain ⟨left, e⟩ := exchange_overflow passes (after := after) hn ha hb hrdy hpre hlen ((hpasses n).2 hcount) hk hfit
    hcap hrx
  rw [hexec, e, endExchange_error]
  exact ⟨_, rfl, rfl, rfl, ⟨rfl, rfl, rfl, rfl⟩, rfl, rfl, rfl⟩

/-- Settles O41: both requests are one exchange, which ends at the byte in the place of END. -/
theorem executeWrongEndKeepsAllParameters : Obligations.ExecuteWrongEndKeepsAllParameters := by
  unfold Obligations.ExecuteWrongEndKeepsAllParameters
  intro i s opcode params e n last dsts payloads a b samples pre rest hi hs hn hsrc hd hcount hpayloads hfit hlast ha hb
    hrdy ⟨hpre, hlen⟩ hrx
  obtain ⟨passes, f, hpasses, hexec⟩ := exec_exchangeRequest hi hs hn hsrc hd
  rw [hexec, exchange_wrong_end passes dsts hn ha hb hrdy hpre hlen ((hpasses n).2 hcount) hpayloads hfit hlast hrx,
    endExchange_error]
  exact ⟨_, rfl, rfl, rfl, ⟨rfl, rfl, rfl, rfl⟩, rfl, rfl, rfl⟩

end Sys2Proof.Proofs
end

section
/-! SUPPORT. Noninterference: what the operations do does not depend on what a projection of the state forgets, where
every update they are made of keeps two states alike under it (10_state.md R18, R24). -/

namespace Sys2Proof.Laws

open Sys2Proof.Machine Sys2Proof.Safety

/-- The update `f` leaves states alike under `h` that were alike under `h`. -/
def Respects (h f : State → State) : Prop := ∀ s, h (f (h s)) = h (f s)

theorem Respects.congr {h f : State → State} (hf : Respects h f) {s u : State} (e : h s = h u) :
    h (f s) = h (f u) := by
  rw [← hf s, e, hf u]

/-- Runs that end with the same value or error, in states alike under `h`. -/
def AlikeRuns {α : Type} (h : State → State) (r q : Run α) : Prop := r.2 = q.2 ∧ h r.1 = h q.1

/-- `h` forgets nothing that a procedure of the link or the decoder reads, and every update these procedures and the
Command Driver make keeps states alike under it. -/
structure Forgetful (h : State → State) : Prop where
  rxIn : ∀ s, (h s).rxIn = s.rxIn
  rdyIn : ∀ s, (h s).rdyIn = s.rdyIn
  draws : ∀ s, (h s).draws = s.draws
  mem : ∀ s, (h s).mem = s.mem
  seqExpected : ∀ s, (h s).seqExpected = s.seqExpected
  takeByte : ∀ e rest, Respects h fun s => emit e { s with rxIn := rest }
  takeSample : ∀ e rest, Respects h fun s => emit e { s with rdyIn := rest }
  draw : ∀ e n, Respects h fun s => emit e { s with draws := n }
  setSelect : ∀ v, Respects h (setSelect v)
  yieldFor : ∀ k, Respects h (yieldFor k)
  releaseLink : Respects h releaseLink
  sent : ∀ bs n, Respects h fun s =>
    { s with trace := s.trace ++ bs, txCount := n, encRemaining := 0x00#8, encState := .idle, closing := false }
  setAcqCnt : ∀ n, Respects h fun s => { s with acqCnt := n }
  setStartCnt : ∀ n, Respects h fun s => { s with startCnt := n }
  setCount : ∀ n d, Respects h fun s => { s with decRemaining := n, decState := d }
  countDecoded : Respects h countDecoded
  decoderIdle : Respects h fun s => { s with decState := .idle }
  writeByte : ∀ buf i v, Respects h (writeByte buf i v)
  enterPhase : ∀ v, Respects h (enterPhase v)
  setExpected : ∀ opcode, Respects h fun s => { s with seqExpected := opcode }
  setAttempt : ∀ n, Respects h fun s => { s with seqAttempt := n }

theorem AlikeRuns.andThen {α β : Type} {h : State → State} {r q : Run α} {f : α → State → Run β}
    (e : AlikeRuns h r q) (hf : ∀ a s u, h s = h u → AlikeRuns h (f a s) (f a u)) :
    AlikeRuns h (andThen r f) (andThen q f) := by
  obtain ⟨s, _ | a⟩ := r
  all_goals
    obtain ⟨u, _⟩ := q
    obtain ⟨rfl, hsu⟩ := e
  · exact ⟨rfl, hsu⟩
  · exact hf a s u hsu

theorem AlikeRuns.abortOnRaise {α : Type} {h : State → State} (hh : Forgetful h) {r q : Run α}
    (e : AlikeRuns h r q) : AlikeRuns h (abortOnRaise r) (abortOnRaise q) := by
  obtain ⟨s, _ | a⟩ := r
  all_goals
    obtain ⟨u, x⟩ := q
    obtain ⟨hvalue, hsu⟩ := e
    obtain rfl : _ = x := hvalue
  · exact ⟨rfl, hh.releaseLink.congr (s := s) (u := u) hsu⟩
  · exact ⟨rfl, hsu⟩

/-! ### The transport, against the opaque peer -/

theorem rxByte_nil {s : State} (h : s.rxIn = []) : rxByte s =
    (Config.peerByte s.draws, emit (.rx (Config.peerByte s.draws)) { s with draws := s.draws + 1 }) := by
  simp only [rxByte, h]

theorem readyQuery_nil {s : State} (h : s.rdyIn = []) : readyQuery s =
    (Config.peerReady s.draws, emit (.rdy (Config.peerReady s.draws)) { s with draws := s.draws + 1 }) := by
  simp only [readyQuery, h]

section

variable {h : State → State} (hh : Forgetful h) {s u : State} (e : h s = h u)

include hh e

/-! ### The transport -/

theorem Forgetful.rxByte_alike : (rxByte s).1 = (rxByte u).1 ∧ h (rxByte s).2 = h (rxByte u).2 := by
  have hin : s.rxIn = u.rxIn := by rw [← hh.rxIn s, e, hh.rxIn u]
  have hdraws : s.draws = u.draws := by rw [← hh.draws s, e, hh.draws u]
  cases hu : u.rxIn with
  | nil =>
    rw [rxByte_nil (hin.trans hu), rxByte_nil hu, hdraws]
    exact ⟨rfl, (hh.draw _ _).congr e⟩
  | cons b rest =>
    rw [rxByte_cons (hin.trans hu), rxByte_cons hu]
    exact ⟨rfl, (hh.takeByte (.rx b) rest).congr e⟩

theorem Forgetful.readyQuery_alike :
    (readyQuery s).1 = (readyQuery u).1 ∧ h (readyQuery s).2 = h (readyQuery u).2 := by
  have hin : s.rdyIn = u.rdyIn := by rw [← hh.rdyIn s, e, hh.rdyIn u]
  have hdraws : s.draws = u.draws := by rw [← hh.draws s, e, hh.draws u]
  cases hu : u.rdyIn with
  | nil =>
    rw [readyQuery_nil (hin.trans hu), readyQuery_nil hu, hdraws]
    exact ⟨rfl, (hh.draw _ _).congr e⟩
  | cons v rest =>
    rw [readyQuery_cons (hin.trans hu), readyQuery_cons hu]
    exact ⟨rfl, (hh.takeSample (.rdy v) rest).congr e⟩

omit e in
theorem Forgetful.pollReady_alike (n : Nat) (e : h s = h u) : AlikeRuns h (pollReady n s) (pollReady n u) := by
  induction n generalizing s u with
  | zero => exact ⟨rfl, (hh.setSelect false).congr e⟩
  | succ n ih =>
    obtain ⟨hsample, hquery⟩ := hh.readyQuery_alike e
    simp only [pollReady, hsample]
    split
    · exact ⟨rfl, hquery⟩
    · have hcount := (hh.setAcqCnt n).congr hquery
      split
      · exact ih hcount
      · exact ih ((hh.yieldFor .poll).congr hcount)

theorem Forgetful.acquireLink_alike (p : Params) : AlikeRuns h (acquireLink p s) (acquireLink p u) :=
  hh.pollReady_alike _ ((hh.setAcqCnt _).congr ((hh.setSelect true).congr e))

/-! ### The decoder -/

omit e in
theorem Forgetful.scanStart_alike (p : Params) (n : Nat) (e : h s = h u) :
    AlikeRuns h (scanStart p n s) (scanStart p n u) := by
  induction n generalizing s u with
  | zero => exact ⟨rfl, e⟩
  | succ n ih =>
    obtain ⟨hbyte, hrx⟩ := hh.rxByte_alike e
    simp only [scanStart, hbyte]
    split
    · exact ⟨rfl, hrx⟩
    · exact ih ((hh.setStartCnt n).congr hrx)

theorem Forgetful.readConfirm_alike (p : Params) (expected : Byte) :
    AlikeRuns h (readConfirm p expected s) (readConfirm p expected u) := by
  obtain ⟨hbyte, hrx⟩ := hh.rxByte_alike e
  simp only [readConfirm, hbyte]
  split <;> exact ⟨rfl, hrx⟩

theorem Forgetful.readCount_alike : AlikeRuns h (readCount s) (readCount u) := by
  obtain ⟨hbyte, hrx⟩ := hh.rxByte_alike e
  simp only [readCount, hbyte]
  exact ⟨rfl, (hh.setCount _ _).congr hrx⟩

theorem Forgetful.readHeader_alike (p : Params) (expected : Byte) :
    AlikeRuns h (readHeader p expected s) (readHeader p expected u) :=
  (hh.scanStart_alike p _ ((hh.setStartCnt _).congr e)).andThen fun _ _ _ e =>
    (hh.readConfirm_alike e p expected).andThen fun _ _ _ e => hh.readCount_alike e

omit e in
theorem Forgetful.storePayload_alike (dst : Handle) (n i : Nat) (e : h s = h u) :
    h (storePayload dst n i s) = h (storePayload dst n i u) := by
  induction n generalizing i s u with
  | zero => exact e
  | succ n ih =>
    obtain ⟨hbyte, hrx⟩ := hh.rxByte_alike e
    simp only [storePayload, hbyte]
    exact ih (i + 1) ((hh.writeByte dst i _).congr hrx)

theorem Forgetful.readParameter_alike (dst : Dst) (k : Option Nat) :
    AlikeRuns h (readParameter dst k s) (readParameter dst k u) := by
  obtain ⟨hbyte, hrx⟩ := hh.rxByte_alike e
  simp only [readParameter, hbyte]
  split
  · exact ⟨rfl, hh.decoderIdle.congr hrx⟩
  · exact ⟨rfl, hh.countDecoded.congr (hh.storePayload_alike dst.dst _ 0 hrx)⟩

omit e in
theorem Forgetful.readParameters_alike (dsts : List Dst) (k : Nat) (e : h s = h u) :
    AlikeRuns h (readParameters dsts k s) (readParameters dsts k u) := by
  induction dsts generalizing k s u with
  | nil => exact ⟨rfl, e⟩
  | cons dst dsts ih =>
    exact (hh.readParameter_alike e dst (some k)).andThen fun _ _ _ e => (ih (k + 1) e).andThen fun _ _ _ e => ⟨rfl, e⟩

theorem Forgetful.readEnd_alike (p : Params) : AlikeRuns h (readEnd p s) (readEnd p u) := by
  obtain ⟨hbyte, hrx⟩ := hh.rxByte_alike e
  simp only [readEnd, hbyte]
  split <;> exact ⟨rfl, hh.decoderIdle.congr hrx⟩

/-! ### The Command Driver -/

theorem Forgetful.writeCommand_alike (p : Params) (opcode : Byte) {params : List Param} (hn : params.length ≤ 255) :
    h (writeCommand p opcode params (terminalFlags params.length) s) =
      h (writeCommand p opcode params (terminalFlags params.length) u) := by
  have hmem : params.map (paramBytes s.mem) = params.map (paramBytes u.mem) := by rw [← hh.mem s, e, hh.mem u]
  rw [writeCommand_eq p opcode params s hn, writeCommand_eq p opcode params u hn, hmem]
  exact (hh.sent _ _).congr e

/-- The command phase sets the opcode it expects an answer to before anything else. -/
theorem Forgetful.commandPhase_alike (p : Params) (opcode : Byte) {params : List Param} (hn : params.length ≤ 255) :
    AlikeRuns h (commandPhase p opcode params s) (commandPhase p opcode params u) :=
  (hh.acquireLink_alike ((hh.enterPhase .cmdAcq).congr ((hh.setExpected opcode).congr e)) p).andThen fun _ _ _ e =>
    ⟨rfl, (hh.yieldFor .turnaround).congr ((hh.enterPhase .turn).congr (hh.releaseLink.congr
      (hh.writeCommand_alike ((hh.enterPhase .cmdSend).congr e) p opcode hn)))⟩

omit hh in
theorem testCount_alike (passes : Byte → Bool) (n : Byte) :
    AlikeRuns h (testCount passes n s) (testCount passes n u) := by
  simp only [testCount]
  split <;> exact ⟨rfl, e⟩

theorem Forgetful.replyItems_alike (p : Params) (dsts : List Dst) (n : Byte) :
    AlikeRuns h (replyItems p dsts n s) (replyItems p dsts n u) :=
  (hh.readParameters_alike _ 0 ((hh.enterPhase .rplPar).congr e)).andThen fun _ _ _ e =>
    (hh.readEnd_alike ((hh.enterPhase .rplEnd).congr e) p).andThen fun _ _ _ e => ⟨rfl, hh.releaseLink.congr e⟩

theorem Forgetful.replyPhase_alike (p : Params) (passes : Byte → Bool) (dsts : List Dst) :
    AlikeRuns h (replyPhase p passes dsts s) (replyPhase p passes dsts u) :=
  (hh.acquireLink_alike ((hh.enterPhase .rplAcq).congr e) p).andThen fun _ s u e => by
    have hexpected : s.seqExpected = u.seqExpected := by rw [← hh.seqExpected s, e, hh.seqExpected u]
    rw [hexpected]
    exact (hh.readHeader_alike ((hh.enterPhase .rplHdr).congr e) p _).andThen fun n _ _ e =>
      (testCount_alike e passes n).andThen fun _ _ _ e =>
        (hh.replyItems_alike e p dsts n).andThen fun _ _ _ e => ⟨rfl, e⟩

theorem Forgetful.exchange_alike (p : Params) (opcode : Byte) {params : List Param} (hn : params.length ≤ 255)
    (passes : Byte → Bool) (dsts : List Dst) :
    AlikeRuns h (exchange p opcode params passes dsts s) (exchange p opcode params passes dsts u) :=
  ((hh.commandPhase_alike e p opcode hn).andThen fun _ _ _ e => hh.replyPhase_alike e p passes dsts).abortOnRaise hh

end

end Sys2Proof.Laws
end

section
/-! SUPPORT. The traces of the Command Driver piece by piece (43_command_driver.md R139): what each predicate on traces
says after a piece, as a function of what it says of the rest. -/

namespace Sys2Proof.Laws

open Sys2Proof.Machine Sys2Proof.Safety

/-! ### Repeated events -/

/-- What does not see one block of events does not see any number of them. -/
theorem skip_blocks {α : Type} (f : List Event → α) (block : List Event)
    (h : ∀ rest, f (block ++ rest) = f rest) (n : Nat) (rest : List Event) :
    f ((List.replicate n block).flatten ++ rest) = f rest := by
  induction n with
  | zero => rfl
  | succ n ih => rw [List.replicate_succ, List.flatten_cons, List.append_assoc, h, ih]

/-- What does not see one event of a kind does not see any number of them. -/
theorem skip_bytes {α : Type} (f : List Event → α) (kind : Byte → Event)
    (h : ∀ b rest, f (kind b :: rest) = f rest) (bs : List Byte) (rest : List Event) :
    f (bs.map kind ++ rest) = f rest := by
  induction bs with
  | nil => rfl
  | cons b bs ih => rw [List.map_cons, List.cons_append, h, ih]

/-! ### The select line -/

@[simp] theorem lineAfter_tx (v : Bool) (bs : List Byte) (rest : List Event) :
    lineAfter v (bs.map .tx ++ rest) = lineAfter v rest := skip_bytes _ _ (fun _ _ => rfl) bs rest

@[simp] theorem lineAfter_rx (v : Bool) (bs : List Byte) (rest : List Event) :
    lineAfter v (bs.map .rx ++ rest) = lineAfter v rest := skip_bytes _ _ (fun _ _ => rfl) bs rest

@[simp] theorem lineAfter_acquired (v : Bool) (a : Nat) (rest : List Event) :
    lineAfter v (acquired a ++ rest) = lineAfter true rest := by
  simp [acquired, lineAfter, skip_blocks (lineAfter true) [.rdy false, .yielded .poll] fun _ => rfl]

@[simp] theorem lineAfter_timedOut (v : Bool) (n : Nat) (rest : List Event) :
    lineAfter v (timedOut n ++ rest) = lineAfter false rest := by
  simp [timedOut, lineAfter, skip_blocks (lineAfter true) [.rdy false, .yielded .poll] fun _ => rfl]

theorem lineAfter_append (v : Bool) (xs ys : List Event) :
    lineAfter v (xs ++ ys) = lineAfter (lineAfter v xs) ys := by
  induction xs generalizing v with
  | nil => rfl
  | cons x xs ih => cases x <;> exact ih _

/-! ### Alternation -/

@[simp] theorem selectsAlternate_tx (v : Bool) (bs : List Byte) (rest : List Event) :
    selectsAlternate v (bs.map .tx ++ rest) = selectsAlternate v rest := skip_bytes _ _ (fun _ _ => rfl) bs rest

@[simp] theorem selectsAlternate_rx (v : Bool) (bs : List Byte) (rest : List Event) :
    selectsAlternate v (bs.map .rx ++ rest) = selectsAlternate v rest := skip_bytes _ _ (fun _ _ => rfl) bs rest

@[simp] theorem selectsAlternate_acquired (a : Nat) (rest : List Event) :
    selectsAlternate false (acquired a ++ rest) = selectsAlternate true rest := by
  simp [acquired, selectsAlternate, skip_blocks (selectsAlternate true) [.rdy false, .yielded .poll] fun _ => rfl]

@[simp] theorem selectsAlternate_timedOut (n : Nat) (rest : List Event) :
    selectsAlternate false (timedOut n ++ rest) = selectsAlternate false rest := by
  simp [timedOut, selectsAlternate, skip_blocks (selectsAlternate true) [.rdy false, .yielded .poll] fun _ => rfl]

/-! ### What moves only while selected -/

@[simp] theorem onlySelected_tx (bs : List Byte) (rest : List Event) :
    onlySelected true (bs.map .tx ++ rest) = onlySelected true rest := skip_bytes _ _ (fun _ _ => rfl) bs rest

@[simp] theorem onlySelected_rx (bs : List Byte) (rest : List Event) :
    onlySelected true (bs.map .rx ++ rest) = onlySelected true rest := skip_bytes _ _ (fun _ _ => rfl) bs rest

@[simp] theorem onlySelected_acquired (v : Bool) (a : Nat) (rest : List Event) :
    onlySelected v (acquired a ++ rest) = onlySelected true rest := by
  simp [acquired, onlySelected, skip_blocks (onlySelected true) [.rdy false, .yielded .poll] fun _ => rfl]

@[simp] theorem onlySelected_timedOut (v : Bool) (n : Nat) (rest : List Event) :
    onlySelected v (timedOut n ++ rest) = onlySelected false rest := by
  simp [timedOut, onlySelected, skip_blocks (onlySelected true) [.rdy false, .yielded .poll] fun _ => rfl]

theorem onlySelected_append (v : Bool) (xs ys : List Event) :
    onlySelected v (xs ++ ys) = (onlySelected v xs && onlySelected (lineAfter v xs) ys) := by
  induction xs generalizing v with
  | nil => rfl
  | cons x xs ih => cases x <;> simp [onlySelected, lineAfter, ih, Bool.and_assoc]

/-! ### One direction in a phase -/

@[simp] theorem halfDuplex_tx (sent v : Bool) (bs : List Byte) (rest : List Event) :
    halfDuplex sent false (bs.map .tx ++ .sel v :: rest) = halfDuplex false false rest := by
  induction bs generalizing sent with
  | nil => rfl
  | cons b bs ih => exact ih true

@[simp] theorem halfDuplex_rx (received v : Bool) (bs : List Byte) (rest : List Event) :
    halfDuplex false received (bs.map .rx ++ .sel v :: rest) = halfDuplex false false rest := by
  induction bs generalizing received with
  | nil => rfl
  | cons b bs ih => exact ih true

@[simp] theorem halfDuplex_acquired (sent received : Bool) (a : Nat) (rest : List Event) :
    halfDuplex sent received (acquired a ++ rest) = halfDuplex false false rest := by
  simp [acquired, halfDuplex, skip_blocks (halfDuplex false false) [.rdy false, .yielded .poll] fun _ => rfl]

@[simp] theorem halfDuplex_timedOut (sent received : Bool) (n : Nat) (rest : List Event) :
    halfDuplex sent received (timedOut n ++ rest) = halfDuplex false false rest := by
  simp [timedOut, halfDuplex, skip_blocks (halfDuplex false false) [.rdy false, .yielded .poll] fun _ => rfl]

/-! ### The direction of each phase -/

@[simp] theorem phasesDirected_tx (bs : List Byte) (rest : List Event) :
    phasesDirected true (bs.map .tx ++ rest) = phasesDirected true rest := skip_bytes _ _ (fun _ _ => rfl) bs rest

@[simp] theorem phasesDirected_rx (bs : List Byte) (rest : List Event) :
    phasesDirected false (bs.map .rx ++ rest) = phasesDirected false rest := skip_bytes _ _ (fun _ _ => rfl) bs rest

@[simp] theorem phasesDirected_acquired (command : Bool) (a : Nat) (rest : List Event) :
    phasesDirected command (acquired a ++ rest) = phasesDirected (!command) rest := by
  simp [acquired, phasesDirected, skip_blocks (phasesDirected !command) [.rdy false, .yielded .poll] fun _ => rfl]

@[simp] theorem phasesDirected_timedOut (command : Bool) (n : Nat) (rest : List Event) :
    phasesDirected command (timedOut n ++ rest) = phasesDirected (!command) rest := by
  simp [timedOut, phasesDirected, skip_blocks (phasesDirected !command) [.rdy false, .yielded .poll] fun _ => rfl]

/-! ### Whole exchanges -/

/-- The shape of the events of a driver operation, whatever the current phase before them has done: what O46 and O58
ask of its trace, strengthened so that it holds of attempts in a row. -/
structure DriverEvents (events : List Event) : Prop where
  alternate : selectsAlternate false events = true
  line : ∀ v, lineAfter v events = false
  selected : ∀ v, onlySelected v events = true
  duplex : ∀ sent received, halfDuplex sent received events = true
  directed : phasesDirected false events = true

/-- The trace of an exchange against any peer has the shape. -/
theorem DriverEvents.of_exchange {α : Type} {p : Params} {frame : List Byte} {r : Except OpError α}
    {events : List Event} (h : exchangeEvents p frame r events) : DriverEvents events := by
  obtain ⟨_, rfl⟩ | ⟨a, _, _, rfl⟩ | ⟨a, b, bs, _, _, rfl⟩ := h
  all_goals
    constructor <;>
      simp [commandSent, replyReceived, selectsAlternate, lineAfter, onlySelected, halfDuplex, phasesDirected]

/-- Events with the shape after an exchange that met no error, and a yield between the two. -/
theorem DriverEvents.after_exchange {α : Type} {p : Params} {frame : List Byte} {value : α} {events rest : List Event}
    (h : exchangeEvents p frame (.ok value) events) (hrest : DriverEvents rest) :
    DriverEvents (events ++ .yielded .retry :: rest) := by
  obtain ⟨hr, _⟩ | ⟨_, _, hr, _⟩ | ⟨a, b, bs, _, _, rfl⟩ := h
  · cases hr
  · cases hr
  · constructor <;>
      simp [commandSent, replyReceived, selectsAlternate, lineAfter, onlySelected, halfDuplex, phasesDirected,
        hrest.alternate, hrest.line, hrest.selected, hrest.duplex, hrest.directed]

end Sys2Proof.Laws
end

section
/-! SUPPORT. Everything an operation can do: one effect for each procedure that an arm of `exec` runs, and its footprint
on the port, the counters, the buffers, the trace and the select line. -/

namespace Sys2Proof.Laws

open Sys2Proof.Machine Sys2Proof.Safety

/-! ### The driver operations at rest -/

/-- A driver operation that is taken at rest is one exchange or a polling, in every state at rest in which the client
has stated the same buffer lengths. -/
theorem exec_driver_atRest {i : Instr} {s t : State} (hi : isDriverOperation i = true) (hs : atRest s)
    (h : exec i s = .next t) :
    (∃ opcode params passes f, params.length ≤ 255 ∧ ∀ u, atRest u → u.sizes = s.sizes →
      exec i u = .next (endExchange (exchange Config.hw opcode params passes (destinations i) u) f)) ∨
    (∃ opcode params dst, params.length ≤ 255 ∧ destinations i = statusDst dst ∧ ∀ u, atRest u → u.sizes = s.sizes →
      exec i u =
        .next (pollAttempts Config.hw opcode params dst dataSentRetryMax { u with seqAttempt := 0#5 })) := by
  cases i with
  | execute opcode params e dsts =>
    rw [exec_execute, execExecute, executeWith, whenIdle_atRest hs] at h
    simp only [require_next] at h
    obtain ⟨hfit, hdsts, hsrc, _⟩ := h
    have hn := (paramsFit_iff params).1 hfit
    exact .inl ⟨opcode, params, _, _, hn, fun u hu hsizes =>
      execExecute_atRest opcode params e dsts u hu hn (by rwa [hsizes]) ((dstsFit_iff e dsts).1 hdsts)⟩
  | executeVariable opcode m dsts =>
    rw [exec_executeVariable, execExecuteVariable, executeVariableWith, whenIdle_atRest hs] at h
    obtain ⟨hdsts, _⟩ := require_next.1 h
    exact .inl ⟨opcode, [], _, _, Nat.zero_le _, fun u hu _ =>
      execExecuteVariable_atRest opcode m dsts u hu ((dstsFit_iff m dsts).1 hdsts)⟩
  | pollDataSent opcode params dst =>
    rw [exec_pollDataSent, execPollDataSent, pollDataSentWith, whenIdle_atRest hs] at h
    simp only [require_next] at h
    obtain ⟨hfit, hsrc, _⟩ := h
    have hn := (paramsFit_iff params).1 hfit
    exact .inr ⟨opcode, params, dst, hn, rfl, fun u hu hsizes =>
      execPollDataSent_atRest opcode params dst u hu hn (by rwa [hsizes])⟩
  | _ => cases hi

/-! ### The effects -/

/-- What an operation that names the destinations `dsts` can do to a state: one constructor for each procedure that an
arm of `exec` runs, with the precondition it runs under. -/
inductive Effect : List Dst → State → State → Prop
  | nothing (dsts : List Dst) (s : State) : Effect dsts s s
  | presented (bytes : List Byte) (s : State) : Effect [] s (presentBytes bytes s)
  | header {s : State} (opcode count : Byte) (hs : headerReady s) :
    Effect [] s (finish .done (writeHeader Config.hw opcode count s))
  | record {s : State} (payload : List Byte) (last : Bool) (hs : recordReady s)
    (hlast : last = true ↔ s.encRemaining = 0x01#8) (hlen : payload.length ≤ 255) :
    Effect [] s (finish .done (writeRecord Config.hw payload last s))
  | frame {s : State} (opcode : Byte) (payloads : List (List Byte)) (hs : headerReady s)
    (hfit : payloadsFit payloads = true) : Effect [] s (finish .done (writeFrame Config.hw opcode payloads s))
  | padded {s : State} (total : Half) (hs : closingReady s) :
    Effect [] s (finish .done (padToWord Config.hw total s))
  | ended {s : State} (hs : closingReady s) : Effect [] s (finish .done (writeEnd Config.hw s))
  | replyHeader {s : State} (expected : Byte) (hs : decoderReady .idle s) :
    Effect [] s (finishRun (readHeader Config.hw expected s) .count)
  | parameter {s : State} (dst : Dst) (hs : decoderReady .params s) :
    Effect [dst] s (finishRun (readParameter dst none s) .len)
  | replyEnd {s : State} (hs : decoderReady .atEnd s) :
    Effect [] s (finishRun (readEnd Config.hw s) fun _ => .done)
  | acquire {s : State} (hs : s.sel = false) : Effect [] s (finishRun (acquireLink Config.hw s) fun _ => .done)
  | release (s : State) : Effect [] s (finish .done (releaseLink s))
  | exchange {s : State} (opcode : Byte) (params : List Param) (passes : Byte → Bool) (dsts : List Dst)
    (f : Byte → List Byte → OpResult) (hs : atRest s) (hn : params.length ≤ 255) :
    Effect dsts s (endExchange (exchange Config.hw opcode params passes dsts s) f)
  | poll {s : State} (opcode : Byte) (params : List Param) (dst : Handle) (hs : atRest s) (hn : params.length ≤ 255) :
    Effect (statusDst dst) s
      (pollAttempts Config.hw opcode params dst dataSentRetryMax { s with seqAttempt := 0#5 })

/-- The payloads of a parameter list are payloads a frame can carry. -/
theorem payloadsFit_params (m : Memory) {params : List Param} (h : params.length ≤ 255) :
    payloadsFit (params.map (paramBytes m)) = true := by
  refine (payloadsFit_iff _).2 ⟨by rwa [List.length_map], fun b hb => ?_⟩
  obtain ⟨param, _, rfl⟩ := List.mem_map.1 hb
  exact paramBytes_length_le m param

/-- ENCODE_COMMAND is the row CMD_FRAME with the payloads its parameters have. -/
theorem writeCommand_eq_writeFrame (p : Params) (opcode : Byte) {params : List Param} (s : State)
    (h : params.length ≤ 255) : writeCommand p opcode params (terminalFlags params.length) s =
      writeFrame p opcode (params.map (paramBytes s.mem)) s := by
  obtain ⟨hcount, hle⟩ := (payloadsFit_iff _).1 (payloadsFit_params s.mem h)
  rw [writeCommand_eq p opcode params s h, writeFrame_eq p opcode _ s hcount hle]

theorem driver_effect {i : Instr} {s t : State} (hi : isDriverOperation i = true) (h : exec i s = .next t) :
    Effect (destinations i) s t := by
  obtain ⟨k, hgate⟩ := exec_driver_gate hi s
  obtain ⟨_, rfl⟩ | ⟨hs, _⟩ := whenIdle_next.1 (hgate ▸ h)
  · exact .nothing _ _
  · obtain ⟨opcode, params, passes, f, hn, hexec⟩ | ⟨opcode, params, dst, hn, hdst, hexec⟩ :=
      exec_driver_atRest hi hs h
    · rw [hexec s hs rfl] at h
      cases h
      exact .exchange opcode params passes _ f hs hn
    · rw [hexec s hs rfl] at h
      cases h
      rw [hdst]
      exact .poll opcode params dst hs hn

/-- Everything an operation that is taken can do. -/
theorem exec_effect {i : Instr} {s t : State} (h : exec i s = .next t) : Effect (destinations i) s t := by
  cases i with
  | noOperation => cases h; exact .nothing _ _
  | replyFrame confirm payloads =>
    obtain ⟨_, h⟩ := require_next.1 h
    cases h
    exact .presented _ _
  | encHeader | setNet | getConnStatus =>
    obtain ⟨hs, h⟩ := requireHeader_next.1 h
    cases h
    exact .header _ _ hs
  | encParam buf len last =>
    obtain ⟨hs, hlast, h⟩ := requireRecord_next.1 h
    obtain ⟨_, h⟩ := require_next.1 h
    cases h
    exact .record _ _ hs ((lastAgrees_iff _ _).1 hlast) (paramBytes_length_le s.mem (.raw buf len))
  | encParamU16 | paramU16 =>
    obtain ⟨hs, hlast, h⟩ := requireRecord_next.1 h
    cases h
    exact .record _ _ hs ((lastAgrees_iff _ _).1 hlast) (paramBytes_length_le s.mem (.u16 _))
  | encodeCommand opcode params flags =>
    obtain ⟨hs, h⟩ := requireHeader_next.1 h
    simp only [require_next] at h
    obtain ⟨hfit, hflags, _, h⟩ := h
    have hn := (paramsFit_iff params).1 hfit
    rw [(flagsFit_iff params flags).1 hflags, writeCommand_eq_writeFrame _ _ _ hn] at h
    cases h
    exact .frame _ _ hs (payloadsFit_params s.mem hn)
  | cmdFrame opcode payloads =>
    obtain ⟨hs, h⟩ := requireHeader_next.1 h
    obtain ⟨hfit, h⟩ := require_next.1 h
    cases h
    exact .frame _ _ hs hfit
  | padToWord total =>
    obtain ⟨hs, h⟩ := requireClosing_next.1 h
    cases h
    exact .padded _ hs
  | encEnd =>
    obtain ⟨hs, h⟩ := requireClosing_next.1 h
    cases h
    exact .ended hs
  | decodeReplyHeader | setNetReply | getConnStatusReply =>
    obtain ⟨hs, h⟩ := requireDecoder_next.1 h
    cases h
    exact .replyHeader _ hs
  | decodeParameter dst cap =>
    obtain ⟨hs, h⟩ := requireDecoder_next.1 h
    cases h
    exact .parameter _ hs
  | decodeEnd =>
    obtain ⟨hs, h⟩ := requireDecoder_next.1 h
    cases h
    exact .replyEnd hs
  | acquire =>
    obtain ⟨_, h⟩ := requireDriver_next.1 h
    obtain ⟨hsel, h⟩ := require_next.1 h
    cases h
    exact .acquire (by simpa using hsel)
  | release =>
    obtain ⟨_, h⟩ := requireDriver_next.1 h
    cases h
    exact .release _
  | execute | executeVariable | pollDataSent => exact driver_effect rfl h
  | reserved => cases h

/-! ### Footprints -/

/-- What every operation that names the destinations `dsts` leaves unchanged, and the bounds on what it changes. -/
structure Footprint (dsts : List Dst) (s t : State) : Prop where
  port : t.port = s.port
  level : t.level = s.level
  acqCnt : t.acqCnt ≤ Config.hw.acqRetryMax ∨ t.acqCnt = s.acqCnt
  startCnt : t.startCnt ≤ Config.hw.startPollMax ∨ t.startCnt = s.startCnt
  seqAttempt : t.seqAttempt.toNat ≤ dataSentRetryMax ∨ t.seqAttempt = s.seqAttempt
  mem : ∀ a, (∀ d ∈ dsts, ¬inDestination d a) → memRead? t.mem a = memRead? s.mem a
  wf : s.mem.wf = true → t.mem.wf = true
  trace : ∃ events, t.trace = s.trace ++ events ∧ t.sel = lineAfter s.sel events ∧ onlySelected s.sel events = true

theorem Footprint.refl (dsts : List Dst) (s : State) : Footprint dsts s s where
  port := rfl
  level := rfl
  acqCnt := .inr rfl
  startCnt := .inr rfl
  seqAttempt := .inr rfl
  mem _ _ := rfl
  wf h := h
  trace := ⟨[], by simp, rfl, rfl⟩

theorem Footprint.trans {dsts : List Dst} {s t u : State} (h : Footprint dsts s t) (h' : Footprint dsts t u) :
    Footprint dsts s u where
  port := h'.port.trans h.port
  level := h'.level.trans h.level
  acqCnt := h'.acqCnt.elim .inl fun e => e ▸ h.acqCnt
  startCnt := h'.startCnt.elim .inl fun e => e ▸ h.startCnt
  seqAttempt := h'.seqAttempt.elim .inl fun e => e ▸ h.seqAttempt
  mem a ha := (h'.mem a ha).trans (h.mem a ha)
  wf hs := h'.wf (h.wf hs)
  trace := by
    obtain ⟨xs, hxs, hsel, honly⟩ := h.trace
    obtain ⟨ys, hys, hsel', honly'⟩ := h'.trace
    refine ⟨xs ++ ys, by rw [hys, hxs, List.append_assoc], ?_, ?_⟩
    · rw [lineAfter_append, ← hsel, hsel']
    · rw [onlySelected_append, honly, ← hsel, honly', Bool.and_self]

/-- What the result port holds is not part of a footprint. -/
theorem Footprint.finish {dsts : List Dst} {s t : State} (h : Footprint dsts s t) (r : OpResult) :
    Footprint dsts s (finish r t) := ⟨h.port, h.level, h.acqCnt, h.startCnt, h.seqAttempt, h.mem, h.wf, h.trace⟩

theorem Footprint.enterPhase {dsts : List Dst} {s t : State} (h : Footprint dsts s t) (v : SeqPhase) :
    Footprint dsts s (enterPhase v t) :=
  ⟨h.port, h.level, h.acqCnt, h.startCnt, h.seqAttempt, h.mem, h.wf, h.trace⟩

/-- Only the registers of the encoder and the bytes sent differ. -/
def Sent (s t : State) : Prop :=
  ∃ bs : List Byte, t = { s with
    trace := s.trace ++ bs.map .tx, txCount := t.txCount, encRemaining := t.encRemaining, encState := t.encState
    closing := t.closing }

theorem closeFrame_sent (p : Params) (s : State) : Sent s (closeFrame p s) := by
  rw [closeFrame_eq]
  exact ⟨_, rfl⟩

theorem Sent.trans {s t u : State} (h : Sent s t) (h' : Sent t u) : Sent s u := by
  obtain ⟨bs, ht⟩ := h
  obtain ⟨bs', hu⟩ := h'
  rw [ht] at hu
  exact ⟨bs ++ bs', by rw [List.map_append, ← List.append_assoc]; exact hu⟩

theorem writeHeader_sent (p : Params) (opcode count : Byte) (s : State) : Sent s (writeHeader p opcode count s) := by
  by_cases hcount : count = 0x00#8
  · rw [hcount, writeHeader_zero]
    exact .trans ⟨[p.startByte, opcode, 0x00#8], rfl⟩ (closeFrame_sent _ _)
  · rw [writeHeader_ne _ _ _ _ hcount]
    exact ⟨[p.startByte, opcode, count], rfl⟩

theorem writeRecord_sent (p : Params) (payload : List Byte) (last : Bool) (s : State) :
    Sent s (writeRecord p payload last s) := by
  have hmiddle : Sent s (writeRecord p payload false s) := by
    rw [writeRecord_false]
    exact ⟨recordBytes payload, rfl⟩
  cases last with
  | false => exact hmiddle
  | true => rw [writeRecord_true]; exact hmiddle.trans (closeFrame_sent _ _)

theorem writeFrame_sent (p : Params) (opcode : Byte) {payloads : List (List Byte)} (s : State)
    (h : payloadsFit payloads = true) : Sent s (writeFrame p opcode payloads s) := by
  obtain ⟨hcount, hle⟩ := (payloadsFit_iff _).1 h
  rw [writeFrame_eq p opcode payloads s hcount hle]
  exact ⟨encodeFrame p opcode payloads, rfl⟩

theorem padToWord_sent (p : Params) (total : Half) (s : State) : Sent s (padToWord p total s) := by
  rw [padToWord_eq]
  exact ⟨_, rfl⟩

theorem writeEnd_sent (p : Params) (s : State) : Sent s (writeEnd p s) := ⟨[p.endByte], rfl⟩

theorem Sent.footprint {s t : State} (h : Sent s t) (hsel : s.sel = true) : Footprint [] s t := by
  obtain ⟨bs, ht⟩ := h
  rw [ht]
  refine ⟨rfl, rfl, .inr rfl, .inr rfl, .inr rfl, fun _ _ => rfl, id, bs.map .tx, rfl, ?_, ?_⟩
  · simpa [lineAfter] using (lineAfter_tx s.sel bs []).symm
  · simpa [hsel, onlySelected] using onlySelected_tx bs []

/-- Only the registers of the decoder, the bytes received and cells of `dsts` differ. -/
structure Received (dsts : List Dst) (s t : State) : Prop where
  frame : ∃ bs : List Byte, t = { s with
    trace := s.trace ++ bs.map .rx, startCnt := t.startCnt, decRemaining := t.decRemaining, decState := t.decState
    mem := t.mem, rxIn := t.rxIn, draws := t.draws }
  startCnt : t.startCnt ≤ Config.hw.startPollMax ∨ t.startCnt = s.startCnt
  mem : ∀ a, (∀ d ∈ dsts, ¬inDestination d a) → memRead? t.mem a = memRead? s.mem a
  wf : s.mem.wf = true → t.mem.wf = true

theorem Received.footprint {dsts : List Dst} {s t : State} (h : Received dsts s t) (hsel : s.sel = true) :
    Footprint dsts s t := by
  obtain ⟨⟨bs, ht⟩, hstart, hmem, hwf⟩ := h
  rw [ht] at hstart hmem hwf ⊢
  refine ⟨rfl, rfl, .inr rfl, hstart, .inr rfl, hmem, hwf, bs.map .rx, rfl, ?_, ?_⟩
  · simpa [lineAfter] using (lineAfter_rx s.sel bs []).symm
  · simpa [hsel, onlySelected] using onlySelected_rx bs []

/-- Delivering a payload that fits its destination writes only cells of it (20_memory.md R34, R42). -/
theorem memRead_deliverFrom_outside {d : Dst} {payload : List Byte} (m : Memory) {a : Nat}
    (h255 : payload.length ≤ 255) (hcap : payload.length ≤ d.cap) (ha : ¬inDestination d a) :
    memRead? (deliverFrom d.dst 0 payload m) a = memRead? m a :=
  memRead_deliverFrom_other d.dst payload 0 m a fun j hj e =>
    ha ⟨j, by omega, by omega, by simpa using e⟩

theorem memRead_deliver_outside {dsts : List Dst} {payloads : List (List Byte)} (m : Memory) {a : Nat}
    (hfit : payloadsFitDsts dsts payloads) (ha : ∀ d ∈ dsts, ¬inDestination d a) :
    memRead? (deliver dsts payloads m) a = memRead? m a := by
  obtain ⟨hlen, h255, hcap⟩ := hfit
  induction dsts generalizing payloads m with
  | nil => rfl
  | cons d dsts ih =>
    cases payloads with
    | nil => rfl
    | cons payload payloads =>
      simp only [List.forall_mem_cons, List.zip_cons_cons] at ha h255 hcap
      obtain ⟨hd, hdsts⟩ := ha
      obtain ⟨h255d, h255s⟩ := h255
      obtain ⟨hcapd, hcaps⟩ := hcap
      rw [deliver, ih _ hdsts (by simpa using hlen) h255s hcaps]
      exact memRead_deliverFrom_outside m h255d hcapd hd

theorem readHeader_received (expected : Byte) (s : State) : Received [] s (readHeader Config.hw expected s).1 := by
  obtain ⟨bs, c, rd, d, _, hc, ⟨n, e⟩ | ⟨err, e⟩⟩ := readHeader_any Config.hw expected s
  all_goals
    rw [e]
    exact ⟨⟨bs, rfl⟩, .inl hc, fun _ _ => rfl, id⟩

theorem readParameter_received (dst : Dst) (k : Option Nat) (s : State) :
    Received [dst] s (readParameter dst k s).1 := by
  obtain ⟨rd, d, ⟨payload, h255, hcap, e⟩ | ⟨len, _, e⟩⟩ := readParameter_any dst k s
  · rw [e]
    exact ⟨⟨recordBytes payload, rfl⟩, .inr rfl,
      fun _ ha => memRead_deliverFrom_outside s.mem h255 hcap (ha dst (List.mem_singleton_self dst)),
      deliverFrom_wf dst.dst payload 0 s.mem⟩
  · rw [e]
    exact ⟨⟨[len], rfl⟩, .inr rfl, fun _ _ => rfl, id⟩

theorem readEnd_received (s : State) : Received [] s (readEnd Config.hw s).1 := by
  obtain ⟨b, rd, d, r, e⟩ := readEnd_any Config.hw s
  rw [e]
  exact ⟨⟨[b], rfl⟩, .inr rfl, fun _ _ => rfl, id⟩

theorem Footprint.finishRun {α : Type} {dsts : List Dst} {s : State} {r : Run α} (h : Footprint dsts s r.1)
    (f : α → OpResult) : Footprint dsts s (finishRun r f) := by
  obtain ⟨q, e⟩ := finishRun_eq r f
  rw [e]
  exact h.finish q

theorem acquireLink_footprint (s : State) : Footprint [] s (acquireLink Config.hw s).1 := by
  obtain ⟨a, rd, d, _, e⟩ | ⟨rd, d, e⟩ := acquireLink_cases Config.hw s one_le_acqRetryMax_hw
  · rw [e]
    refine ⟨rfl, rfl, .inl (Nat.sub_le _ _), .inr rfl, .inr rfl, fun _ _ => rfl, id, acquired a, rfl, ?_, ?_⟩
    · simpa [lineAfter] using (lineAfter_acquired s.sel a []).symm
    · simpa [onlySelected] using onlySelected_acquired s.sel a []
  · rw [e]
    refine ⟨rfl, rfl, .inl (Nat.zero_le _), .inr rfl, .inr rfl, fun _ _ => rfl, id, timedOut _, rfl, ?_, ?_⟩
    · simpa [lineAfter] using (lineAfter_timedOut s.sel Config.hw.acqRetryMax []).symm
    · simpa [onlySelected] using onlySelected_timedOut s.sel Config.hw.acqRetryMax []

theorem releaseLink_footprint (s : State) : Footprint [] s (releaseLink s) :=
  ⟨rfl, rfl, .inr rfl, .inr rfl, .inr rfl, fun _ _ => rfl, id, [.sel false], rfl, rfl, rfl⟩

theorem presentBytes_footprint (bytes : List Byte) (s : State) : Footprint [] s (presentBytes bytes s) :=
  ⟨rfl, rfl, .inr rfl, .inr rfl, .inr rfl, fun _ _ => rfl, id, [], by simp, rfl, rfl⟩

/-! ### What the Command Driver leaves -/

/-- What an exchange from `s` leaves: both codec machines idle and the link deselected, and the events of an exchange
that ended as it did. -/
structure Exchanged (dsts : List Dst) (frame : List Byte) (s : State) (q : Run (Byte × List Byte)) : Prop where
  footprint : Footprint dsts s q.1
  sel : q.1.sel = false
  encState : q.1.encState = .idle
  decState : q.1.decState = .idle
  closing : q.1.closing = false
  seqAttempt : q.1.seqAttempt = s.seqAttempt
  txCount : q.1.txCount.toNat ≤ 65284 ∨ q.1.txCount = s.txCount
  events : ∃ events, q.1.trace = s.trace ++ events ∧ exchangeEvents Config.hw frame q.2 events

theorem exchange_exchanged (opcode : Byte) {params : List Param} (passes : Byte → Bool) (dsts : List Dst) (s : State)
    (hn : params.length ≤ 255) : Exchanged dsts (commandFrame Config.hw opcode params s.mem) s
      (exchange Config.hw opcode params passes dsts s) := by
  obtain ⟨t, r, before, after, payloads, events, e, hdsts, hfit, hevents, hacq, hstart, htx, ht⟩ :=
    exchange_any Config.hw opcode params passes dsts s one_le_acqRetryMax_hw hn
  have hshape := DriverEvents.of_exchange hevents
  have hport : t.port = s.port := by rw [ht]
  have hlevel : t.level = s.level := by rw [ht]
  have hattempt : t.seqAttempt = s.seqAttempt := by rw [ht]
  have hmem : t.mem = deliver before payloads s.mem := congrArg State.mem ht
  have hsel : t.sel = false := congrArg State.sel ht
  have htrace : t.trace = s.trace ++ events := congrArg State.trace ht
  rw [e]
  refine ⟨⟨hport, hlevel, .inl hacq, hstart, .inr hattempt,
      fun a ha => ?_, fun hwf => ?_, events, htrace, ?_, hshape.selected _⟩, hsel, congrArg State.encState ht,
    congrArg State.decState ht, congrArg State.closing ht, hattempt, htx.imp_left fun e => ?_,
    events, htrace, hevents⟩
  · rw [hmem]
    exact memRead_deliver_outside s.mem hfit fun d hd => ha d (by rw [hdsts]; exact List.mem_append_left after hd)
  · rw [hmem]
    exact deliver_wf _ _ _ hwf
  · rw [hsel, hshape.line]
  · have hle := encodeFrame_length_le_greatest Config.hw opcode _ (payloadsFit_params s.mem hn)
    rw [e, BitVec.toNat_ofNat]
    exact (Nat.mod_le _ _).trans hle

/-- What a driver operation from `s` leaves: the link at rest again but for a phase yet to be ended, and events of the
shape of `DriverEvents`. -/
structure DriverRun (dsts : List Dst) (s t : State) : Prop where
  footprint : Footprint dsts s t
  sel : t.sel = false
  encState : t.encState = .idle
  decState : t.decState = .idle
  closing : t.closing = false
  txCount : t.txCount.toNat ≤ 65284 ∨ t.txCount = s.txCount
  events : ∃ events, t.trace = s.trace ++ events ∧ DriverEvents events

theorem Exchanged.driverRun {dsts : List Dst} {frame : List Byte} {s : State} {q : Run (Byte × List Byte)}
    (h : Exchanged dsts frame s q) : DriverRun dsts s q.1 where
  footprint := h.footprint
  sel := h.sel
  encState := h.encState
  decState := h.decState
  closing := h.closing
  txCount := h.txCount
  events := by
    obtain ⟨events, htrace, hevents⟩ := h.events
    exact ⟨events, htrace, .of_exchange hevents⟩

/-- The yield between two attempts of POLL_DATA_SENT. -/
abbrev betweenAttempts (s : State) : State := yieldFor .retry (enterPhase .retryWait s)

theorem betweenAttempts_footprint (dsts : List Dst) (s : State) : Footprint dsts s (betweenAttempts s) :=
  ⟨rfl, rfl, .inr rfl, .inr rfl, .inr rfl, fun _ _ => rfl, id, [.yielded .retry], rfl, rfl, rfl⟩

/-- An exchange that met no error, a yield, and what the driver does after it. -/
theorem Exchanged.then_driverRun {dsts : List Dst} {frame : List Byte} {s t u : State} {a : Byte × List Byte}
    (h : Exchanged dsts frame s (t, .ok a)) (h' : DriverRun dsts (betweenAttempts t) u) : DriverRun dsts s u where
  footprint := h.footprint.trans ((betweenAttempts_footprint dsts t).trans h'.footprint)
  sel := h'.sel
  encState := h'.encState
  decState := h'.decState
  closing := h'.closing
  txCount := h'.txCount.elim .inl fun e => e ▸ h.txCount
  events := by
    obtain ⟨events, (htrace : t.trace = s.trace ++ events), hevents⟩ := h.events
    obtain ⟨rest, htrace', hrest⟩ := h'.events
    refine ⟨events ++ .yielded .retry :: rest, ?_, .after_exchange hevents hrest⟩
    have hyield : (betweenAttempts t).trace = t.trace ++ [.yielded .retry] := rfl
    rw [htrace', hyield, htrace]
    simp

theorem DriverRun.endDriver {dsts : List Dst} {s t : State} (h : DriverRun dsts s t) (r : OpResult) :
    DriverRun dsts s (endDriver r t) :=
  ⟨(h.footprint.enterPhase .idle).finish r, h.sel, h.encState, h.decState, h.closing, h.txCount, h.events⟩

theorem endExchange_eq (q : Run (Byte × List Byte)) (f : Byte → List Byte → OpResult) :
    ∃ r, endExchange q f = endDriver r q.1 := by
  obtain ⟨s, _ | a⟩ := q
  · exact ⟨_, rfl⟩
  · exact ⟨_, rfl⟩

/-! ### The attempts of POLL_DATA_SENT -/

/-- One attempt of POLL_DATA_SENT: an exchange that expects the one status byte (43_command_driver.md R138). -/
def attempt (opcode : Byte) (params : List Param) (dst : Handle) (s : State) : Run (Byte × List Byte) :=
  exchange Config.hw opcode params (admitExactly 0x01#8) (statusDst dst) { s with seqAttempt := s.seqAttempt + 1#5 }

theorem attempt_eq (opcode : Byte) (params : List Param) (dst : Handle) (s : State) : attempt opcode params dst s =
    exchange Config.hw opcode params (admitExactly 0x01#8) (statusDst dst)
      { s with seqAttempt := s.seqAttempt + 1#5 } := rfl

section

variable {opcode : Byte} {params : List Param} {dst : Handle} {s : State} (fuel : Nat)

/-- The attempt ends the polling (43_command_driver.md R138). -/
theorem pollAttempts_ended {r : OpResult} (h : attemptEnds Config.hw dst (attempt opcode params dst s) = some r) :
    pollAttempts Config.hw opcode params dst (fuel + 1) s = endDriver r (attempt opcode params dst s).1 := by
  simp only [pollAttempts, ← attempt_eq, h]

/-- The attempt does not end the polling, and it was the last one (60_exceptions.md R164). -/
theorem pollAttempts_exhausted (h : attemptEnds Config.hw dst (attempt opcode params dst s) = none)
    (hlast : (attempt opcode params dst s).1.seqAttempt.toNat = dataSentRetryMax) :
    pollAttempts Config.hw opcode params dst (fuel + 1) s =
      endDriver (.error (.peerReportedFailure dataSentRetryMax)) (attempt opcode params dst s).1 := by
  simp only [pollAttempts, ← attempt_eq, h, hlast, if_true]

/-- The attempt does not end the polling, and another one follows. -/
theorem pollAttempts_again (h : attemptEnds Config.hw dst (attempt opcode params dst s) = none)
    (hmore : (attempt opcode params dst s).1.seqAttempt.toNat ≠ dataSentRetryMax) :
    pollAttempts Config.hw opcode params dst (fuel + 1) s =
      pollAttempts Config.hw opcode params dst fuel (betweenAttempts (attempt opcode params dst s).1) := by
  simp only [pollAttempts, ← attempt_eq, h, hmore, if_false]

end

/-- An error ends the polling, since the machine does not retry on errors (92_eei_decisions.md D26). -/
theorem attemptEnds_error (dst : Handle) (s : State) (err : OpError) :
    attemptEnds Config.hw dst (s, .error err) = some (.error err) := rfl

/-- Everything an attempt leads to: the polling ends where the attempt did, or an attempt that met no error and was
not the last one is followed by another. -/
theorem pollAttempts_succ (opcode : Byte) (params : List Param) (dst : Handle) (fuel : Nat) (s : State) :
    (∃ r, pollAttempts Config.hw opcode params dst (fuel + 1) s = endDriver r (attempt opcode params dst s).1) ∨
    (∃ t a, attempt opcode params dst s = (t, .ok a) ∧ t.seqAttempt.toNat ≠ dataSentRetryMax ∧
      pollAttempts Config.hw opcode params dst (fuel + 1) s =
        pollAttempts Config.hw opcode params dst fuel (betweenAttempts t)) := by
  cases hends : attemptEnds Config.hw dst (attempt opcode params dst s) with
  | some r => exact .inl ⟨r, pollAttempts_ended fuel hends⟩
  | none =>
    by_cases hlast : (attempt opcode params dst s).1.seqAttempt.toNat = dataSentRetryMax
    · exact .inl ⟨_, pollAttempts_exhausted fuel hends hlast⟩
    · have hagain := pollAttempts_again fuel hends hlast
      cases hq : attempt opcode params dst s with
      | mk t q =>
        rw [hq] at hends hlast hagain
        cases q with
        | error err => rw [attemptEnds_error] at hends; cases hends
        | ok a => exact .inr ⟨t, a, rfl, hlast, hagain⟩

/-- The polling, with as many attempts left as `SEQ_ATTEMPT` is below its bound. -/
theorem pollAttempts_driverRun (opcode : Byte) {params : List Param} (dst : Handle) (fuel : Nat) (s : State)
    (hn : params.length ≤ 255) (hfuel : s.seqAttempt.toNat + fuel = dataSentRetryMax) (hpos : 0 < fuel) :
    ∃ r t, pollAttempts Config.hw opcode params dst fuel s = endDriver r t ∧ DriverRun (statusDst dst) s t := by
  induction fuel generalizing s with
  | zero => omega
  | succ fuel ih =>
    have hbound : dataSentRetryMax = 25 := rfl
    have hnext : (s.seqAttempt + 1#5).toNat = s.seqAttempt.toNat + 1 := by
      rw [BitVec.toNat_add]
      simp only [BitVec.toNat_ofNat]
      omega
    have hcounted : Footprint (statusDst dst) s { s with seqAttempt := s.seqAttempt + 1#5 } :=
      ⟨rfl, rfl, .inr rfl, .inr rfl, .inl (by rw [hnext]; omega), fun _ _ => rfl, id, [], by simp, rfl, rfl⟩
    have hattempt := exchange_exchanged opcode (admitExactly 0x01#8) (statusDst dst)
      { s with seqAttempt := s.seqAttempt + 1#5 } hn
    rw [← attempt_eq] at hattempt
    obtain ⟨r, e⟩ | ⟨t, a, hok, hmore, e⟩ := pollAttempts_succ opcode params dst fuel s
    · have hrun := hattempt.driverRun
      exact ⟨r, _, e, hcounted.trans hrun.footprint, hrun.sel, hrun.encState, hrun.decState, hrun.closing, hrun.txCount,
        hrun.events⟩
    · rw [hok] at hattempt
      have hcount : t.seqAttempt = s.seqAttempt + 1#5 := hattempt.seqAttempt
      have hcount' : (betweenAttempts t).seqAttempt.toNat = s.seqAttempt.toNat + 1 := by
        rw [← hnext, ← hcount]
        rfl
      rw [hcount, hnext] at hmore
      obtain ⟨r, u, e', hu⟩ := ih (betweenAttempts t) (by omega) (by omega)
      have hrun := hattempt.then_driverRun hu
      exact ⟨r, u, e.trans e', hcounted.trans hrun.footprint, hrun.sel, hrun.encState, hrun.decState, hrun.closing,
        hrun.txCount, hrun.events⟩

/-- The polling from its first attempt. -/
theorem poll_driverRun (opcode : Byte) {params : List Param} (dst : Handle) (s : State) (hn : params.length ≤ 255) :
    ∃ r t, pollAttempts Config.hw opcode params dst dataSentRetryMax { s with seqAttempt := 0#5 } = endDriver r t ∧
      DriverRun (statusDst dst) s t := by
  have hreset : Footprint (statusDst dst) s { s with seqAttempt := 0#5 } :=
    ⟨rfl, rfl, .inr rfl, .inr rfl, .inl (by simp), fun _ _ => rfl, id, [], by simp, rfl, rfl⟩
  obtain ⟨r, t, e, hrun⟩ :=
    pollAttempts_driverRun opcode dst dataSentRetryMax { s with seqAttempt := 0#5 } hn rfl (by decide)
  exact ⟨r, t, e, hreset.trans hrun.footprint, hrun.sel, hrun.encState, hrun.decState, hrun.closing, hrun.txCount,
    hrun.events⟩

/-- Every driver operation taken at rest puts a result on the port where it leaves the link. -/
theorem driver_run {i : Instr} {s t : State} (hi : isDriverOperation i = true) (hs : atRest s)
    (h : exec i s = .next t) : ∃ r u, t = endDriver r u ∧ DriverRun (destinations i) s u := by
  obtain ⟨opcode, params, passes, f, hn, hexec⟩ | ⟨opcode, params, dst, hn, hdst, hexec⟩ := exec_driver_atRest hi hs h
  · obtain ⟨r, e⟩ := endExchange_eq (exchange Config.hw opcode params passes (destinations i) s) f
    rw [hexec s hs rfl, e] at h
    cases h
    exact ⟨r, _, rfl, (exchange_exchanged opcode passes (destinations i) s hn).driverRun⟩
  · obtain ⟨r, u, e, hrun⟩ := poll_driverRun opcode dst s hn
    rw [hexec s hs rfl, e] at h
    cases h
    exact ⟨r, u, rfl, by rwa [hdst]⟩

/-- Every effect has its footprint. -/
theorem Effect.footprint {dsts : List Dst} {s t : State} (h : Effect dsts s t) : Footprint dsts s t := by
  cases h with
  | nothing => exact .refl _ _
  | presented bytes => exact presentBytes_footprint bytes s
  | header opcode count hs =>
    obtain ⟨_, hsel, _⟩ := hs
    exact ((writeHeader_sent _ opcode count s).footprint hsel).finish _
  | record payload last hs =>
    obtain ⟨_, hsel, _⟩ := hs
    exact ((writeRecord_sent _ payload last s).footprint hsel).finish _
  | frame opcode payloads hs hfit =>
    obtain ⟨_, hsel, _⟩ := hs
    exact ((writeFrame_sent _ opcode s hfit).footprint hsel).finish _
  | padded total hs =>
    obtain ⟨_, _, hsel⟩ := hs
    exact ((padToWord_sent _ total s).footprint hsel).finish _
  | ended hs =>
    obtain ⟨_, _, hsel⟩ := hs
    exact ((writeEnd_sent _ s).footprint hsel).finish _
  | replyHeader expected hs =>
    obtain ⟨_, hsel, _⟩ := hs
    exact ((readHeader_received expected s).footprint hsel).finishRun _
  | parameter dst hs =>
    obtain ⟨_, hsel, _⟩ := hs
    exact ((readParameter_received dst none s).footprint hsel).finishRun _
  | replyEnd hs =>
    obtain ⟨_, hsel, _⟩ := hs
    exact ((readEnd_received s).footprint hsel).finishRun _
  | acquire => exact (acquireLink_footprint s).finishRun _
  | release => exact (releaseLink_footprint s).finish _
  | exchange opcode params passes _ f _ hn =>
    obtain ⟨r, e⟩ := endExchange_eq (Machine.exchange Config.hw opcode params passes dsts s) f
    rw [e]
    exact ((exchange_exchanged opcode passes dsts s hn).driverRun.endDriver r).footprint
  | poll opcode params dst _ hn =>
    obtain ⟨r, u, e, hrun⟩ := poll_driverRun opcode dst s hn
    rw [e]
    exact (hrun.endDriver r).footprint

end Sys2Proof.Laws
end

section
/-! SUPPORT. The invariant of 10_state.md R23 through each effect. -/

namespace Sys2Proof.Laws

open Sys2Proof.Machine Sys2Proof.Safety

/-- With both codec machines idle the clauses about open frames and replies say nothing. -/
theorem invariant_of_idle {s : State} (henc : s.encState = .idle) (hdec : s.decState = .idle)
    (hphase : s.seqPhase = .idle) (hclosing : s.closing = false) (htx : s.txCount.toNat ≤ 65284)
    (hwf : s.mem.wf = true) : invariant s := by
  refine ⟨fun h => ?_, ⟨fun h => ?_, fun h => ?_⟩, fun h => ?_, hphase, hclosing, htx, hwf⟩
  · rw [henc] at h
    cases h
  · rw [hdec] at h
    cases h
  · rw [hdec] at h
    cases h
  · rw [henc, hdec] at h
    simp at h

/-- What the encoder does on a selected link has its own clauses to keep and no other. -/
theorem invariant_of_sent {s t : State} (h : Sent s t) (hs : invariant s) (hsel : s.sel = true) (henc : encoderOk t)
    (hclosing : t.closing = false) (htx : t.txCount.toNat ≤ 65284) : invariant t := by
  obtain ⟨bs, ht⟩ := h
  obtain ⟨_, hdec, _, hphase, _, _, hwf⟩ := hs
  refine ⟨henc, ?_, fun _ => ?_, ?_, hclosing, htx, ?_⟩
  · rw [ht]
    exact hdec
  · rw [ht]
    exact hsel
  · rw [ht]
    exact hphase
  · rw [ht]
    exact hwf

/-- What the decoder does on a selected link has its own clauses to keep and no other. -/
theorem invariant_of_received {dsts : List Dst} {s t : State} (h : Received dsts s t) (hs : invariant s)
    (hsel : s.sel = true) (hdec : decoderOk t) : invariant t := by
  obtain ⟨⟨bs, ht⟩, _, _, hwf⟩ := h
  obtain ⟨henc, _, _, hphase, hclosing, htx, hmem⟩ := hs
  refine ⟨?_, hdec, fun _ => ?_, ?_, ?_, ?_, hwf hmem⟩
  · rw [ht]
    exact henc
  · rw [ht]
    exact hsel
  · rw [ht]
    exact hphase
  · rw [ht]
    exact hclosing
  · rw [ht]
    exact htx

/-- The invariant does not speak of the result. -/
theorem invariant_finish {s : State} (h : invariant s) (r : OpResult) : invariant (finish r s) := h

theorem invariant_finishRun {α : Type} {q : Run α} (h : invariant q.1) (f : α → OpResult) :
    invariant (finishRun q f) := by
  obtain ⟨r, e⟩ := finishRun_eq q f
  rw [e]
  exact invariant_finish h r

/-! ### The encoder -/

/-- A header opens its frame with the three bytes of the header sent, or has closed it. -/
theorem writeHeader_invariant (opcode count : Byte) {s : State} (hs : invariant s) (hsel : s.sel = true) :
    invariant (writeHeader Config.hw opcode count s) := by
  have hsent := writeHeader_sent Config.hw opcode count s
  obtain ⟨_, _, _, _, hclosing, _⟩ := id hs
  by_cases hcount : count = 0x00#8
  · have e := writeHeader_zero Config.hw opcode s
    rw [closeFrame_of_body _ _ 3 rfl] at e
    have htx : (BitVec.ofNat 16 (3 + fillerCount (3 + 1) + 1)).toNat ≤ 65284 := by decide
    rw [hcount] at hsent ⊢
    rw [e] at hsent ⊢
    exact invariant_of_sent hsent hs hsel nofun rfl htx
  · rw [writeHeader_ne _ _ _ _ hcount] at hsent ⊢
    have hpos : count.toNat ≠ 0 := fun h => hcount (BitVec.eq_of_toNat_eq h)
    exact invariant_of_sent hsent hs hsel (fun _ => ⟨Nat.pos_of_ne_zero hpos, le_rfl, Nat.le_add_right _ _⟩) hclosing
      (by simp)

/-- The count of bytes sent after one more record that is not the last (40_frame_encoder.md R82). -/
theorem txCount_add_record {tx : Half} {n len : Nat} (hlen : len ≤ 255) (htx : tx.toNat ≤ 3 + n * 256)
    (hn : n ≤ 254) : (tx + 1#16 + BitVec.ofNat 16 len).toNat = tx.toNat + 1 + len := by
  simp only [BitVec.toNat_add, BitVec.toNat_ofNat]
  omega

/-- One more record: parameters are left, and the bound on `TX_COUNT` moves by a record of 256 bytes; or the frame is
closed, at whole words no longer than the longest frame. -/
theorem writeRecord_invariant (payload : List Byte) (last : Bool) {s : State} (hs : invariant s)
    (hready : recordReady s) (hlast : last = true ↔ s.encRemaining = 0x01#8) (hlen : payload.length ≤ 255) :
    invariant (writeRecord Config.hw payload last s) := by
  have hsent := writeRecord_sent Config.hw payload last s
  obtain ⟨henc, _, _, _, hclosing, _⟩ := id hs
  obtain ⟨_, hsel, hopen⟩ := hready
  obtain ⟨hleft, hlow, hhigh⟩ := henc hopen
  cases last with
  | true =>
    have hone : s.encRemaining.toNat = 1 := by rw [hlast.1 rfl]; rfl
    have hwords := fillerCount_add_mod (s.txCount.toNat + 1 + payload.length + 1)
    have hfill := fillerCount_le (s.txCount.toNat + 1 + payload.length + 1)
    rw [writeRecord_last _ _ _ (hlast.1 rfl)] at hsent ⊢
    refine invariant_of_sent hsent hs hsel nofun rfl ?_
    simp only [BitVec.toNat_ofNat]
    omega
  | false =>
    have hmore : s.encRemaining.toNat ≠ 1 := fun h => Bool.false_ne_true (hlast.2 (BitVec.eq_of_toNat_eq h))
    have hlt := s.encRemaining.isLt
    have htx := txCount_add_record hlen hhigh (by omega)
    have hcount : (s.encRemaining - 1#8).toNat = s.encRemaining.toNat - 1 := by
      simp only [BitVec.toNat_sub, BitVec.toNat_ofNat]
      omega
    rw [writeRecord_false] at hsent ⊢
    refine invariant_of_sent hsent hs hsel (fun _ => ?_) hclosing ?_
    · simp only [htx, hcount]
      omega
    · simp only [htx]
      omega

theorem writeFrame_invariant (opcode : Byte) {payloads : List (List Byte)} {s : State} (hs : invariant s)
    (hsel : s.sel = true) (hfit : payloadsFit payloads = true) :
    invariant (writeFrame Config.hw opcode payloads s) := by
  have hsent := writeFrame_sent Config.hw opcode s hfit
  have hle := encodeFrame_length_le_greatest Config.hw opcode payloads hfit
  obtain ⟨hcount, hlen⟩ := (payloadsFit_iff payloads).1 hfit
  rw [writeFrame_eq _ _ _ _ hcount hlen] at hsent ⊢
  refine invariant_of_sent hsent hs hsel nofun rfl ?_
  simp only [BitVec.toNat_ofNat]
  omega

/-! ### The decoder -/

/-- The position after a count byte is the one the count asks for (41_frame_decoder.md R101). -/
theorem readHeader_decoderOk (expected : Byte) {s : State} (hs : decoderOk s) :
    decoderOk (readHeader Config.hw expected s).1 := by
  obtain ⟨bs, c, rd, d, _, _, ⟨n, e⟩ | ⟨err, e⟩⟩ := readHeader_any Config.hw expected s
  · rw [e]
    by_cases hn : n = 0x00#8
    · simp [decoderOk, hn]
    · have hpos : n.toNat ≠ 0 := fun h => hn (BitVec.eq_of_toNat_eq h)
      refine ⟨fun _ => Nat.pos_of_ne_zero hpos, fun h => ?_⟩
      simp [hn] at h
  · rw [e]
    exact hs

/-- One parameter less is left, and the position is DEC_END when none is (41_frame_decoder.md R104). -/
theorem readParameter_decoderOk (dst : Dst) (k : Option Nat) {s : State} (hs : decoderOk s)
    (hparams : s.decState = .params) : decoderOk (readParameter dst k s).1 := by
  obtain ⟨hleft, _⟩ := hs
  have hpos := hleft hparams
  obtain ⟨rd, d, ⟨payload, _, _, e⟩ | ⟨len, _, e⟩⟩ := readParameter_any dst k s
  · rw [e]
    by_cases hzero : s.decRemaining - 1#8 = 0x00#8
    · simp [decoderOk, hzero]
    · have hne : (s.decRemaining - 1#8).toNat ≠ 0 := fun h => hzero (BitVec.eq_of_toNat_eq h)
      refine ⟨fun _ => ?_, fun h => ?_⟩
      · exact Nat.pos_of_ne_zero hne
      · simp [hzero, hparams] at h
  · rw [e]
    exact ⟨nofun, nofun⟩

theorem readEnd_decoderOk (s : State) : decoderOk (readEnd Config.hw s).1 := by
  obtain ⟨b, rd, d, r, e⟩ := readEnd_any Config.hw s
  rw [e]
  exact ⟨nofun, nofun⟩

/-! ### The link and the driver -/

/-- On a deselected link no frame is open and no reply in progress, so ACQUIRE finds none. -/
theorem acquireLink_invariant {s : State} (hs : invariant s) (hsel : s.sel = false) :
    invariant (acquireLink Config.hw s).1 := by
  obtain ⟨_, _, hlink, hphase, hclosing, htx, hwf⟩ := hs
  have hidle : ¬(s.encState = .open ∨ s.decState ≠ .idle) := fun h => by simp [hlink h] at hsel
  have henc : s.encState = .idle := by
    obtain h | h : s.encState = .idle ∨ s.encState = .open := by cases s.encState <;> simp
    · exact h
    · exact absurd (.inl h) hidle
  have hdec : s.decState = .idle := by
    by_contra h
    exact hidle (.inr h)
  obtain ⟨a, rd, d, _, e⟩ | ⟨rd, d, e⟩ := acquireLink_cases Config.hw s one_le_acqRetryMax_hw
  all_goals
    rw [e]
    exact invariant_of_idle henc hdec hphase hclosing htx hwf

theorem DriverRun.invariant_endDriver {dsts : List Dst} {s t : State} (h : DriverRun dsts s t) (hs : invariant s)
    (r : OpResult) : invariant (Machine.endDriver r t) := by
  obtain ⟨_, _, _, _, _, htx, hwf⟩ := hs
  exact invariant_of_idle h.encState h.decState rfl h.closing (h.txCount.elim id fun e => e ▸ htx)
    (h.footprint.wf hwf)

/-- Every effect keeps the invariant. -/
theorem Effect.invariant {dsts : List Dst} {s t : State} (h : Effect dsts s t) (hs : invariant s) : invariant t := by
  cases h with
  | nothing => exact hs
  | presented bytes => exact hs
  | header opcode count hready =>
    obtain ⟨_, hsel, _⟩ := hready
    exact writeHeader_invariant opcode count hs hsel
  | record payload last hready hlast hlen => exact writeRecord_invariant payload last hs hready hlast hlen
  | frame opcode payloads hready hfit =>
    obtain ⟨_, hsel, _⟩ := hready
    exact writeFrame_invariant opcode hs hsel hfit
  | padded total hready =>
    obtain ⟨_, hclosing, _⟩ := hready
    obtain ⟨_, _, _, _, hnot, _⟩ := hs
    simp [hclosing] at hnot
  | ended hready =>
    obtain ⟨_, hclosing, _⟩ := hready
    obtain ⟨_, _, _, _, hnot, _⟩ := hs
    simp [hclosing] at hnot
  | replyHeader expected hready =>
    obtain ⟨_, hsel, _⟩ := hready
    obtain ⟨_, hdec, _⟩ := id hs
    have hdec' := readHeader_decoderOk expected hdec
    exact invariant_finishRun (invariant_of_received (readHeader_received expected s) hs hsel hdec') _
  | parameter dst hready =>
    obtain ⟨_, hsel, hparams⟩ := hready
    obtain ⟨_, hdec, _⟩ := id hs
    have hdec' := readParameter_decoderOk dst none hdec hparams
    exact invariant_finishRun (invariant_of_received (readParameter_received dst none s) hs hsel hdec') _
  | replyEnd hready =>
    obtain ⟨_, hsel, _⟩ := hready
    exact invariant_finishRun (invariant_of_received (readEnd_received s) hs hsel (readEnd_decoderOk s)) _
  | acquire hsel => exact invariant_finishRun (acquireLink_invariant hs hsel) _
  | release =>
    obtain ⟨_, _, _, hphase, _, htx, hwf⟩ := hs
    exact invariant_of_idle rfl rfl hphase rfl htx hwf
  | exchange opcode params passes _ f _ hn =>
    obtain ⟨r, e⟩ := endExchange_eq (Machine.exchange Config.hw opcode params passes dsts s) f
    rw [e]
    exact (exchange_exchanged opcode passes dsts s hn).driverRun.invariant_endDriver hs r
  | poll opcode params dst _ hn =>
    obtain ⟨r, u, e, hrun⟩ := poll_driverRun opcode dst s hn
    rw [e]
    exact hrun.invariant_endDriver hs r

/-! ### Result codes -/

/-- FCLA returns no UnsupportedOperation (60_exceptions.md R165). -/
theorem resultCode_ne_unsupported (r : OpResult) : resultCode r ≠ .unsupportedOperation := by
  cases r with
  | error e => cases e <;> exact nofun
  | _ => exact nofun

theorem codeBits_le {c : ResultCode} (h : c ≠ .unsupportedOperation) : (codeBits c).toNat ≤ 4 := by
  cases c with
  | unsupportedOperation => exact absurd rfl h
  | _ => decide

/-! ### A step -/

/-- Everything a step that answers a next state can do: nothing, or the effect of the request it took. -/
theorem step_effect {s t : State} (h : step s = .next t) : t = s ∨ ∃ i, Effect (destinations i) (accept s) t := by
  obtain ⟨_, rfl⟩ | ⟨_, i, _, hexec⟩ := step_next h
  · exact .inl rfl
  · exact .inr ⟨i, exec_effect hexec⟩

end Sys2Proof.Laws
end

section
/-! The statements about every driver operation and about the whole machine. -/

namespace Sys2Proof.Proofs

open Sys2Proof.Machine Sys2Proof.Safety Sys2Proof.Laws

/-- Settles O45: the operands let each operation run, and what it runs leaves the link at rest. -/
theorem driverNeverLeavesTheLinkHeld : Obligations.DriverNeverLeavesTheLinkHeld := by
  unfold Obligations.DriverNeverLeavesTheLinkHeld
  intro i s hi hwf hs hexecute hpoll
  obtain ⟨t, h⟩ : ∃ t, exec i s = .next t := by
    cases i with
    | execute opcode params e dsts =>
      obtain ⟨hn, hd⟩ := Bool.and_eq_true_iff.1 hwf
      exact ⟨_, execExecute_atRest opcode params e dsts s hs ((paramsFit_iff params).1 hn)
        (hexecute opcode params e dsts rfl) ((dstsFit_iff e dsts).1 hd)⟩
    | executeVariable opcode m dsts =>
      exact ⟨_, execExecuteVariable_atRest opcode m dsts s hs ((dstsFit_iff m dsts).1 hwf)⟩
    | pollDataSent opcode params dst =>
      exact ⟨_, execPollDataSent_atRest opcode params dst s hs ((paramsFit_iff params).1 hwf)
        (hpoll opcode params dst rfl)⟩
    | _ => cases hi
  obtain ⟨r, u, rfl, hrun⟩ := driver_run hi hs h
  exact ⟨_, h, ⟨hrun.sel, hrun.encState, hrun.decState, rfl⟩, hrun.closing, r, rfl⟩

/-- Settles O46: the events of a driver operation are exchanges in a row, and each has the shape from any phase. -/
theorem driverTracesArePairedAndHalfDuplex : Obligations.DriverTracesArePairedAndHalfDuplex := by
  unfold Obligations.DriverTracesArePairedAndHalfDuplex
  intro i s t hi hs h
  obtain ⟨r, u, rfl, hrun⟩ := driver_run hi hs h
  obtain ⟨events, htrace, hshape⟩ := hrun.events
  exact ⟨events, htrace, hshape.alternate, hshape.line false, hshape.selected false, hshape.duplex false false⟩

/-- Settles O58: an exchange that met no error has had both its phases, so the next one begins with a command phase. -/
theorem commandPhasesSendReplyPhasesReceive : Obligations.CommandPhasesSendReplyPhasesReceive := by
  unfold Obligations.CommandPhasesSendReplyPhasesReceive
  intro i s t hi hs h
  obtain ⟨r, u, rfl, hrun⟩ := driver_run hi hs h
  obtain ⟨events, htrace, hshape⟩ := hrun.events
  exact ⟨events, htrace, hshape.directed⟩

/-- Settles O48: both codec machines are idle after reset. -/
theorem invariantHoldsAfterReset : Obligations.InvariantHoldsAfterReset :=
  invariant_of_idle rfl rfl rfl rfl (Nat.zero_le _) reset_mem_wf

/-- Settles O49: taking a request changes the port and the level only, and every effect keeps the invariant. -/
theorem everyStepKeepsTheInvariant : Obligations.EveryStepKeepsTheInvariant := by
  unfold Obligations.EveryStepKeepsTheInvariant
  intro s t hs h
  obtain rfl | ⟨i, heffect⟩ := step_effect h
  · exact hs
  · exact heffect.invariant hs

/-- Settles O50: the footprint of an effect bounds each counter it changes. -/
theorem everyStepKeepsTheCountersInRange : Obligations.EveryStepKeepsTheCountersInRange := by
  unfold Obligations.EveryStepKeepsTheCountersInRange
  refine ⟨⟨Nat.zero_le _, Nat.zero_le _, Nat.zero_le _⟩, fun s t hs h => ?_⟩
  obtain rfl | ⟨i, heffect⟩ := step_effect h
  · exact hs
  · obtain ⟨hacq, hstart, hattempt⟩ := hs
    have hfoot := heffect.footprint
    exact ⟨hfoot.acqCnt.elim id fun e => e ▸ hacq, hfoot.startCnt.elim id fun e => e ▸ hstart,
      hfoot.seqAttempt.elim id fun e => e ▸ hattempt⟩

/-- Settles O51: the footprint of an effect names its events. -/
theorem selectLineFollowsTheTrace : Obligations.SelectLineFollowsTheTrace := by
  unfold Obligations.SelectLineFollowsTheTrace
  refine ⟨rfl, fun _ => rfl, fun s t h => ?_⟩
  obtain rfl | ⟨i, heffect⟩ := step_effect h
  · exact ⟨[], by simp, rfl, rfl⟩
  · exact heffect.footprint.trace

/-- Settles O52: the footprint of an effect holds what lies outside its destinations. -/
theorem onlyDestinationsAreWritten : Obligations.OnlyDestinationsAreWritten :=
  fun _ _ _ h => (exec_effect h).footprint.mem

/-- Settles O55: the port and the level are in no footprint. -/
theorem operationsLeaveThePortAlone : Obligations.OperationsLeaveThePortAlone :=
  fun _ _ _ h => ⟨(exec_effect h).footprint.port, (exec_effect h).footprint.level⟩

/-- Settles O56: the codes are a table, and each operation that returns only OK ends in `finish .done`. -/
theorem resultCodesAreZeroToFour : Obligations.ResultCodesAreZeroToFour := by
  unfold Obligations.ResultCodesAreZeroToFour
  refine ⟨fun r => ?_, rfl, fun _ => rfl, fun _ => rfl, fun _ => rfl, fun _ _ => rfl, fun _ => rfl, fun _ _ _ => rfl,
    fun _ _ _ => rfl, fun _ => rfl, fun i s t hi h => ?_⟩
  · exact codeBits_le (resultCode_ne_unsupported r)
  · cases i with
    | encHeader opcode count =>
      obtain ⟨_, h⟩ := requireHeader_next.1 h
      cases h
      rfl
    | encParam buf len last =>
      obtain ⟨_, _, h⟩ := requireRecord_next.1 h
      obtain ⟨_, h⟩ := require_next.1 h
      cases h
      rfl
    | encParamU16 value last =>
      obtain ⟨_, _, h⟩ := requireRecord_next.1 h
      cases h
      rfl
    | padToWord | encEnd =>
      obtain ⟨_, h⟩ := requireClosing_next.1 h
      cases h
      rfl
    | encodeCommand opcode params flags =>
      obtain ⟨_, h⟩ := requireHeader_next.1 h
      simp only [require_next] at h
      obtain ⟨_, _, _, h⟩ := h
      cases h
      rfl
    | release =>
      obtain ⟨_, h⟩ := requireDriver_next.1 h
      cases h
      rfl
    | _ => cases hi

end Sys2Proof.Proofs
end

section
/-! SUPPORT. The three projections that the noninterference statements are about: the result, the registers that reset
leaves unspecified, and `SEQ_ATTEMPT`; and the driver operations from states alike under one of them. -/

namespace Sys2Proof.Laws

open Sys2Proof.Machine Sys2Proof.Safety

/-! ### Driver operations from states alike -/

theorem endExchange_alike {h : State → State} {q q' : Run (Byte × List Byte)} (e : AlikeRuns h q q')
    (f : Byte → List Byte → OpResult) :
    ∃ r, endExchange q f = endDriver r q.1 ∧ endExchange q' f = endDriver r q'.1 := by
  obtain ⟨s, _ | a⟩ := q
  all_goals
    obtain ⟨u, x⟩ := q'
    obtain ⟨hvalue, _⟩ := e
    obtain rfl : _ = x := hvalue
    exact ⟨_, rfl, rfl⟩

/-- An attempt counts `SEQ_ATTEMPT` up, and the exchange in it leaves the count alone. -/
theorem attempt_seqAttempt (opcode : Byte) {params : List Param} (dst : Handle) (s : State)
    (hn : params.length ≤ 255) : (attempt opcode params dst s).1.seqAttempt = s.seqAttempt + 1#5 :=
  (exchange_exchanged opcode (admitExactly 0x01#8) (statusDst dst) { s with seqAttempt := s.seqAttempt + 1#5 }
    hn).seqAttempt

section

variable {h : State → State} (hh : Forgetful h)

include hh

theorem Forgetful.attemptEnds_alike {q q' : Run (Byte × List Byte)} (e : AlikeRuns h q q') (dst : Handle) :
    attemptEnds Config.hw dst q = attemptEnds Config.hw dst q' := by
  obtain ⟨s, _ | a⟩ := q
  all_goals
    obtain ⟨u, x⟩ := q'
    obtain ⟨hvalue, hsu⟩ := e
    obtain rfl : _ = x := hvalue
  · rfl
  · have hmem : s.mem = u.mem := by rw [← hh.mem s, ← hh.mem u, show h s = h u from hsu]
    simp only [attemptEnds, hmem]

theorem Forgetful.attempt_alike {s u : State} (e : h s = h u) (hcount : s.seqAttempt = u.seqAttempt) (opcode : Byte)
    {params : List Param} (dst : Handle) (hn : params.length ≤ 255) :
    AlikeRuns h (attempt opcode params dst s) (attempt opcode params dst u) := by
  rw [attempt_eq, attempt_eq, hcount]
  exact hh.exchange_alike ((hh.setAttempt _).congr e) _ opcode hn _ _

/-- From states alike, with the same number of attempts made, the polling ends with the same result, in states alike. -/
theorem Forgetful.pollAttempts_alike {s u : State} (e : h s = h u) (hcount : s.seqAttempt = u.seqAttempt)
    (opcode : Byte) {params : List Param} (dst : Handle) (fuel : Nat) (hn : params.length ≤ 255) :
    ∃ r t v, pollAttempts Config.hw opcode params dst fuel s = endDriver r t ∧
      pollAttempts Config.hw opcode params dst fuel u = endDriver r v ∧ h t = h v := by
  induction fuel generalizing s u with
  | zero => exact ⟨_, s, u, rfl, rfl, e⟩
  | succ fuel ih =>
    have hruns := hh.attempt_alike e hcount opcode dst hn
    have hends := hh.attemptEnds_alike hruns dst
    have hcount' : (attempt opcode params dst s).1.seqAttempt = (attempt opcode params dst u).1.seqAttempt := by
      rw [attempt_seqAttempt _ _ _ hn, attempt_seqAttempt _ _ _ hn, hcount]
    obtain ⟨_, halike⟩ := hruns
    cases hs : attemptEnds Config.hw dst (attempt opcode params dst s) with
    | some r => exact ⟨r, _, _, pollAttempts_ended fuel hs, pollAttempts_ended fuel (hends ▸ hs), halike⟩
    | none =>
      by_cases hlast : (attempt opcode params dst s).1.seqAttempt.toNat = dataSentRetryMax
      · exact ⟨_, _, _, pollAttempts_exhausted fuel hs hlast,
          pollAttempts_exhausted fuel (hends ▸ hs) (hcount' ▸ hlast), halike⟩
      · rw [pollAttempts_again fuel hs hlast, pollAttempts_again fuel (hends ▸ hs) (hcount' ▸ hlast)]
        exact ih ((hh.yieldFor .retry).congr ((hh.enterPhase .retryWait).congr halike)) hcount'

/-- A driver operation taken in one of two states at rest that are alike is taken in the other, with the same result
and in states alike. -/
theorem Forgetful.driver_alike {i : Instr} {s u t : State} (hi : isDriverOperation i = true) (hs : atRest s)
    (hu : atRest u) (hsizes : u.sizes = s.sizes) (e : h s = h u) (hexec : exec i s = .next t) :
    ∃ r t' v', t = endDriver r t' ∧ exec i u = .next (endDriver r v') ∧ h t' = h v' := by
  obtain ⟨opcode, params, passes, f, hn, hall⟩ | ⟨opcode, params, dst, hn, _, hall⟩ := exec_driver_atRest hi hs hexec
  · have hruns := hh.exchange_alike e Config.hw opcode hn passes (destinations i)
    obtain ⟨r, es, eu⟩ := endExchange_alike hruns f
    rw [hall s hs rfl, es] at hexec
    cases hexec
    obtain ⟨_, halike⟩ := hruns
    exact ⟨r, _, _, rfl, by rw [hall u hu hsizes, eu], halike⟩
  · obtain ⟨r, t', v', es, eu, halike⟩ :=
      hh.pollAttempts_alike ((hh.setAttempt 0#5).congr e) rfl opcode dst dataSentRetryMax hn
    rw [hall s hs rfl, es] at hexec
    cases hexec
    exact ⟨r, t', v', rfl, by rw [hall u hu hsizes, eu], halike⟩

end

/-! ### The result -/

/-- A state but for what stands on the result port. -/
def forgetResult (s : State) : State := { s with result := none }

theorem forgetResult_forgetful : Forgetful forgetResult :=
  ⟨fun _ => rfl, fun _ => rfl, fun _ => rfl, fun _ => rfl, fun _ => rfl, fun _ _ _ => rfl, fun _ _ _ => rfl,
    fun _ _ _ => rfl, fun _ _ => rfl, fun _ _ => rfl, fun _ => rfl, fun _ _ _ => rfl, fun _ _ => rfl, fun _ _ => rfl,
    fun _ _ _ => rfl, fun _ => rfl, fun _ => rfl, fun _ _ _ _ => rfl, fun _ _ => rfl, fun _ _ => rfl, fun _ _ => rfl⟩

/-- Putting a result on the port hides what stood there. -/
theorem finish_alike {s u : State} (e : forgetResult s = forgetResult u) (r : OpResult) :
    finish r s = finish r u := by
  have hfinish : finish r (forgetResult s) = finish r (forgetResult u) := by rw [e]
  exact hfinish

theorem finishRun_alike {α : Type} {q q' : Run α} (e : AlikeRuns forgetResult q q') (f : α → OpResult) :
    finishRun q f = finishRun q' f := by
  obtain ⟨s, _ | a⟩ := q
  all_goals
    obtain ⟨u, x⟩ := q'
    obtain ⟨hvalue, hsu⟩ := e
    obtain rfl : _ = x := hvalue
    exact finish_alike hsu _

theorem writeHeader_respects (p : Params) (opcode count : Byte) :
    Respects forgetResult (writeHeader p opcode count) := fun s => by
  by_cases hcount : count = 0x00#8
  · rw [hcount, writeHeader_zero, writeHeader_zero, closeFrame_eq, closeFrame_eq]
    rfl
  · rw [writeHeader_ne _ _ _ _ hcount, writeHeader_ne _ _ _ _ hcount]
    rfl

theorem writeRecord_respects (p : Params) (payload : List Byte) (last : Bool) :
    Respects forgetResult (writeRecord p payload last) := fun s => by
  cases last with
  | false =>
    rw [writeRecord_false, writeRecord_false]
    rfl
  | true =>
    rw [writeRecord_true, writeRecord_true, closeFrame_eq, closeFrame_eq, writeRecord_false, writeRecord_false]
    rfl

theorem writeFrame_respects (p : Params) (opcode : Byte) {payloads : List (List Byte)}
    (h : payloadsFit payloads = true) : Respects forgetResult (writeFrame p opcode payloads) := fun s => by
  obtain ⟨hcount, hle⟩ := (payloadsFit_iff payloads).1 h
  rw [writeFrame_eq _ _ _ _ hcount hle, writeFrame_eq _ _ _ _ hcount hle]
  rfl

theorem padToWord_respects (p : Params) (total : Half) : Respects forgetResult (padToWord p total) := fun s => by
  rw [padToWord_eq, padToWord_eq]
  rfl

theorem writeEnd_respects (p : Params) : Respects forgetResult (writeEnd p) := fun _ => rfl

/-! ### The registers that reset leaves unspecified -/

/-- A state but for the counters of 10_state.md R24 and the decoder's position, which follows one of them; the one
register of R24 it holds, `SEQ_EXPECTED`, a driver operation sets before it reads it. -/
def forgetRegisters (s : State) : State :=
  { s with
    acqCnt := 0, encRemaining := 0x00#8, txCount := 0x0000#16, decRemaining := 0x00#8, startCnt := 0, seqAttempt := 0#5
    decState := .idle }

theorem forgetRegisters_forgetful : Forgetful forgetRegisters :=
  ⟨fun _ => rfl, fun _ => rfl, fun _ => rfl, fun _ => rfl, fun _ => rfl, fun _ _ _ => rfl, fun _ _ _ => rfl,
    fun _ _ _ => rfl, fun _ _ => rfl, fun _ _ => rfl, fun _ => rfl, fun _ _ _ => rfl, fun _ _ => rfl, fun _ _ => rfl,
    fun _ _ _ => rfl, fun _ => rfl, fun _ => rfl, fun _ _ _ _ => rfl, fun _ _ => rfl, fun _ _ => rfl, fun _ _ => rfl⟩

/-- States alike but for the registers, with the decoder at the same position, are the same but for the registers. -/
theorem eq_withRegisters {t v : State} (e : forgetRegisters t = forgetRegisters v) (hdec : t.decState = v.decState) :
    v = withRegisters t v.acqCnt v.encRemaining v.txCount v.decRemaining v.startCnt v.seqAttempt v.seqExpected := by
  cases t
  cases v
  simp only [forgetRegisters, State.mk.injEq] at e hdec
  simp only [withRegisters, State.mk.injEq]
  grind

/-- A driver operation sets `SEQ_EXPECTED` before it reads it (43_command_driver.md R135). -/
theorem exec_driver_seqExpected {i : Instr} {s t : State} (hi : isDriverOperation i = true) (hs : atRest s)
    (h : exec i s = .next t) (expected : Byte) : exec i { s with seqExpected := expected } = .next t := by
  rw [← h]
  obtain ⟨opcode, params, passes, f, _, hall⟩ | ⟨opcode, params, dst, _, _, hall⟩ := exec_driver_atRest hi hs h
  · rw [hall s hs rfl, hall { s with seqExpected := expected } hs rfl]
    rfl
  · rw [hall s hs rfl, hall { s with seqExpected := expected } hs rfl]
    rfl

/-- Every driver operation leaves the decoder idle (10_state.md R23 d). -/
theorem driver_decState {i : Instr} {s t : State} (hi : isDriverOperation i = true) (hs : atRest s)
    (h : exec i s = .next t) : t.decState = .idle := by
  obtain ⟨r, u, rfl, hrun⟩ := driver_run hi hs h
  exact hrun.decState

end Sys2Proof.Laws
end

section
/-! The statements about what the operations do not read. -/

namespace Sys2Proof.Proofs

open Sys2Proof.Machine Sys2Proof.Safety Sys2Proof.Laws

/-- Settles O53: the gates do not read the result, each procedure keeps states alike that differ in it alone, and
every operation ends by putting its own result on the port. -/
theorem noOperationReadsTheResultPort : Obligations.NoOperationReadsTheResultPort := by
  unfold Obligations.NoOperationReadsTheResultPort
  intro i s t r hnone hreply hidle h
  have e : forgetResult { s with result := r } = forgetResult s := rfl
  cases i with
  | noOperation => exact absurd rfl hnone
  | replyFrame confirm payloads => exact absurd rfl (hreply confirm payloads)
  | reserved => cases h
  | encHeader | setNet | getConnStatus =>
    obtain ⟨hs, h⟩ := requireHeader_next.1 h
    rw [← h]
    refine (requireHeader_ready (s := { s with result := r }) hs _).trans (congrArg _ (finish_alike ?_ _))
    exact (writeHeader_respects _ _ _).congr e
  | encParam buf len last =>
    obtain ⟨hs, hlast, h⟩ := requireRecord_next.1 h
    rw [← h]
    refine (requireRecord_ready (s := { s with result := r }) hs hlast _).trans
      (congrArg (require _ _) (congrArg _ (finish_alike ?_ _)))
    exact (writeRecord_respects _ _ _).congr e
  | encParamU16 | paramU16 =>
    obtain ⟨hs, hlast, h⟩ := requireRecord_next.1 h
    rw [← h]
    refine (requireRecord_ready (s := { s with result := r }) hs hlast _).trans (congrArg _ (finish_alike ?_ _))
    exact (writeRecord_respects _ _ _).congr e
  | encodeCommand opcode params flags =>
    obtain ⟨hs, h⟩ := requireHeader_next.1 h
    simp only [require_next] at h
    obtain ⟨hfit, hflags, hsrc, h⟩ := h
    have hn := (paramsFit_iff params).1 hfit
    obtain rfl := (flagsFit_iff params flags).1 hflags
    rw [exec_encodeCommand_ready (s := { s with result := r }) opcode hs hn hsrc, ← h,
      writeCommand_eq_writeFrame _ _ _ hn, writeCommand_eq_writeFrame _ _ _ hn]
    exact congrArg _ (finish_alike ((writeFrame_respects _ _ (payloadsFit_params s.mem hn)).congr e) _)
  | cmdFrame opcode payloads =>
    obtain ⟨hs, h⟩ := requireHeader_next.1 h
    obtain ⟨hfit, h⟩ := require_next.1 h
    rw [exec_cmdFrame, requireHeader_ready (s := { s with result := r }) hs, hfit, require_true, ← h]
    exact congrArg _ (finish_alike ((writeFrame_respects _ _ hfit).congr e) _)
  | padToWord total =>
    obtain ⟨hs, h⟩ := requireClosing_next.1 h
    rw [← h]
    refine (requireClosing_ready (s := { s with result := r }) hs _).trans (congrArg _ (finish_alike ?_ _))
    exact (padToWord_respects _ _).congr e
  | encEnd =>
    obtain ⟨hs, h⟩ := requireClosing_next.1 h
    rw [← h]
    refine (requireClosing_ready (s := { s with result := r }) hs _).trans (congrArg _ (finish_alike ?_ _))
    exact (writeEnd_respects _).congr e
  | decodeReplyHeader | setNetReply | getConnStatusReply =>
    obtain ⟨hs, h⟩ := requireDecoder_next.1 h
    rw [← h]
    refine (requireDecoder_ready (s := { s with result := r }) hs _).trans (congrArg _ (finishRun_alike ?_ _))
    exact forgetResult_forgetful.readHeader_alike e _ _
  | decodeParameter dst cap =>
    obtain ⟨hs, h⟩ := requireDecoder_next.1 h
    rw [← h]
    refine (requireDecoder_ready (s := { s with result := r }) hs _).trans (congrArg _ (finishRun_alike ?_ _))
    exact forgetResult_forgetful.readParameter_alike e _ _
  | decodeEnd =>
    obtain ⟨hs, h⟩ := requireDecoder_next.1 h
    rw [← h]
    refine (requireDecoder_ready (s := { s with result := r }) hs _).trans (congrArg _ (finishRun_alike ?_ _))
    exact forgetResult_forgetful.readEnd_alike e _
  | acquire =>
    obtain ⟨hlevel, h'⟩ := requireDriver_next.1 h
    obtain ⟨hsel, h'⟩ := require_next.1 h'
    rw [exec_acquire_ready (s := { s with result := r }) hlevel (by simpa using hsel), ← h']
    exact congrArg _ (finishRun_alike (forgetResult_forgetful.acquireLink_alike e _) _)
  | release =>
    obtain ⟨hlevel, h⟩ := requireDriver_next.1 h
    rw [exec_release_ready (s := { s with result := r }) hlevel, ← h]
    exact congrArg _ (finish_alike (forgetResult_forgetful.releaseLink.congr e) _)
  | execute | executeVariable | pollDataSent =>
    obtain ⟨hbusy, _⟩ | ⟨hs, _⟩ := whenIdle_next.1 h
    · exact absurd hidle hbusy
    · obtain ⟨q, t', v', rfl, hexec, halike⟩ :=
        forgetResult_forgetful.driver_alike rfl hs (u := { s with result := r }) hs rfl e.symm h
      rw [hexec]
      exact congrArg _ (finish_alike (forgetResult_forgetful.enterPhase .idle |>.congr halike.symm) q)

/-- Settles O54: `SEQ_EXPECTED` is set before it is read, and from states that differ in the other registers every
procedure of an exchange goes the same way. -/
theorem unspecifiedRegistersAreNotRead : Obligations.UnspecifiedRegistersAreNotRead := by
  unfold Obligations.UnspecifiedRegistersAreNotRead
  intro i s t acqCnt encRemaining txCount decRemaining startCnt seqAttempt seqExpected hi hs h
  have hdec := driver_decState hi hs h
  have hu : atRest (withRegisters s acqCnt encRemaining txCount decRemaining startCnt seqAttempt s.seqExpected) := hs
  obtain ⟨r, t', v', rfl, hexec, halike⟩ := forgetRegisters_forgetful.driver_alike hi hs hu rfl rfl h
  refine ⟨endDriver r v', exec_driver_seqExpected hi hu hexec seqExpected, eq_withRegisters ?_ ?_⟩
  · exact congrArg (endDriver r) halike
  · rw [hdec, driver_decState hi hu hexec]

end Sys2Proof.Proofs
end

section
/-! SUPPORT. One attempt of POLL_DATA_SENT against a peer whose answers are named, and attempts in a row that do not end
the polling (43_command_driver.md R138). -/

namespace Sys2Proof.Laws

open Sys2Proof.Machine Sys2Proof.Safety

/-! ### One attempt -/

/-- The state after the exchange of an attempt in which the peer does `x`. -/
def afterAttempt (opcode : Byte) (params : List Param) (dst : Handle) (x : PollAttempt) (samples : List Bool)
    (rest : List Byte) (s : State) : State :=
  { s with
    sel := false, acqCnt := Config.hw.acqRetryMax - x.second, encState := .idle, encRemaining := 0x00#8
    txCount := BitVec.ofNat 16 (commandFrame Config.hw opcode params s.mem).length, decState := .idle
    decRemaining := 0x00#8, startCnt := Config.hw.startPollMax - x.stray.length, seqPhase := .rplEnd
    seqAttempt := s.seqAttempt + 1#5, seqExpected := opcode, closing := false, rdyIn := samples, rxIn := rest
    mem := deliverFrom dst 0 x.status s.mem
    trace := s.trace ++ x.events opcode (commandFrame Config.hw opcode params s.mem) }

section

variable {opcode : Byte} {params : List Param} {dst : Handle} {x : PollAttempt} {samples : List Bool}
  {rest : List Byte} {s : State}

/-- An attempt that meets no error answers the status it received. -/
theorem attempt_named (dst : Handle) (hn : params.length ≤ 255) (hx : x.conforms) (hstatus : x.status.length ≤ 1)
    (hrdy : s.rdyIn = x.samples ++ samples) (hrx : s.rxIn = x.bytes opcode ++ rest) :
    attempt opcode params dst s =
      (afterAttempt opcode params dst x samples rest s, .ok (0x01#8, lengthsOf [x.status])) := by
  obtain ⟨hfirst, hsecond, hpre, hlen⟩ := hx
  have hfit : payloadsFitDsts (dstsFor 0x01#8 (statusDst dst)) [x.status] :=
    ⟨rfl, List.forall_mem_singleton.2 (by omega), List.forall_mem_singleton.2 hstatus⟩
  have hrdy' : s.rdyIn =
      List.replicate x.first false ++ true :: (List.replicate x.second false ++ true :: samples) := by
    simpa [PollAttempt.samples] using hrdy
  rw [attempt_eq, exchange_completes Config.hw opcode 0x01#8 params _ (statusDst dst) [x.status] x.first x.second
    { s with seqAttempt := s.seqAttempt + 1#5 } samples x.stray rest hn hfirst hsecond hrdy' hpre hlen rfl
    (admitExactly_self _) hfit hrx]
  simp [afterAttempt, PollAttempt.events, PollAttempt.bytes, dstsFor, statusDst, deliver, confirmByte]

/-- A status of one byte that is not zero ends the polling with OK. -/
theorem attemptEnds_true {status : Byte} (dst : Handle) (hstatus : x.status = [status]) (hne : status ≠ 0x00#8) :
    attemptEnds Config.hw dst (afterAttempt opcode params dst x samples rest s, .ok (0x01#8, lengthsOf [x.status])) =
      some .done := by
  simp [attemptEnds, statusTrue, afterAttempt, hstatus, lengthsOf, deliverFrom, memRead_memWrite_same, hne]

/-- The byte zero, or no byte, does not end the polling. -/
theorem attemptEnds_notTrue (dst : Handle) (hx : x.notTrue) :
    attemptEnds Config.hw dst (afterAttempt opcode params dst x samples rest s, .ok (0x01#8, lengthsOf [x.status])) =
      none := by
  obtain hzero | hempty := hx
  · simp [attemptEnds, statusTrue, afterAttempt, hzero, lengthsOf, deliverFrom, memRead_memWrite_same]
  · simp [attemptEnds, statusTrue, hempty, lengthsOf]

theorem length_status_le (hx : x.notTrue) : x.status.length ≤ 1 := by
  obtain h | h := hx <;> simp [h]

end

/-! ### Attempts in a row -/

/-- What statuses that are not true leave of the buffers: zero in the status buffer if any byte came. -/
def afterStatuses (dst : Handle) (attempts : List PollAttempt) (m : Memory) : Memory :=
  if ∀ x ∈ attempts, x.status = [] then m else memWrite m (cellAddr dst 0) 0x00#8

theorem afterStatuses_append (dst : Handle) (attempts : List PollAttempt) {x : PollAttempt} (hx : x.notTrue)
    (m : Memory) :
    deliverFrom dst 0 x.status (afterStatuses dst attempts m) = afterStatuses dst (attempts ++ [x]) m := by
  obtain h | h := hx
  · have hsome : ¬∀ y ∈ attempts ++ [x], y.status = [] := fun hall => by simp [hall x (by simp)] at h
    rw [h, afterStatuses, afterStatuses, if_neg hsome]
    split
    · rfl
    · exact memWrite_memWrite_same m _ _ _
  · have hiff : (∀ y ∈ attempts ++ [x], y.status = []) ↔ ∀ y ∈ attempts, y.status = [] := by
      simp [or_imp, forall_and, h]
    simp only [h, deliverFrom, afterStatuses, hiff]

/-- A status byte replaces what the attempts before it left in the status buffer. -/
theorem memWrite_afterStatuses (dst : Handle) (attempts : List PollAttempt) (m : Memory) (status : Byte) :
    memWrite (afterStatuses dst attempts m) (cellAddr dst 0) status = memWrite m (cellAddr dst 0) status := by
  rw [afterStatuses]
  split
  · rfl
  · exact memWrite_memWrite_same m _ _ _

/-- The bytes of the command's parameters do not change when the status buffer is written. -/
abbrev statusIsNoSource (params : List Param) (dst : Handle) (m : Memory) : Prop :=
  ∀ b, params.map (paramBytes (memWrite m (cellAddr dst 0) b)) = params.map (paramBytes m)

theorem commandFrame_afterStatuses {params : List Param} {dst : Handle} {m : Memory}
    (h : statusIsNoSource params dst m) (opcode : Byte) (attempts : List PollAttempt) :
    commandFrame Config.hw opcode params (afterStatuses dst attempts m) = commandFrame Config.hw opcode params m := by
  simp only [commandFrame, afterStatuses]
  split
  · rfl
  · rw [h]

/-- `u` is where the polling that began at `s` stands after `attempts` that did not end it, but for the registers an
exchange sets before it reads them. -/
def Polled (opcode : Byte) (params : List Param) (dst : Handle) (s : State) (attempts : List PollAttempt)
    (samples : List Bool) (rest : List Byte) (u : State) : Prop :=
  u = { s with
    sel := u.sel, acqCnt := u.acqCnt, encState := u.encState, encRemaining := u.encRemaining, txCount := u.txCount
    decState := u.decState, decRemaining := u.decRemaining, startCnt := u.startCnt, seqPhase := u.seqPhase
    seqExpected := u.seqExpected, closing := u.closing
    seqAttempt := BitVec.ofNat 5 attempts.length, rdyIn := samples, rxIn := rest
    mem := afterStatuses dst attempts s.mem
    trace := s.trace ++ attempts.flatMap fun x =>
      x.events opcode (commandFrame Config.hw opcode params s.mem) ++ [.yielded .retry] }

section

variable {opcode : Byte} {params : List Param} {dst : Handle} {s u : State} {attempts : List PollAttempt}
  {x : PollAttempt} {samples : List Bool} {rest : List Byte}

/-- Before its first attempt the polling has reset the number of attempts. -/
theorem polled_nil (hrdy : s.rdyIn = samples) (hrx : s.rxIn = rest) :
    Polled opcode params dst s [] samples rest { s with seqAttempt := 0#5 } := by
  subst hrdy hrx
  simp [Polled, afterStatuses]

/-- The state after one more attempt, in the fields that do not depend on the registers before it. -/
theorem Polled.afterAttempt_eq
    (h : Polled opcode params dst s attempts (x.samples ++ samples) (x.bytes opcode ++ rest) u)
    (hsrc : statusIsNoSource params dst s.mem) : afterAttempt opcode params dst x samples rest u =
      { afterAttempt opcode params dst x samples rest s with
        seqAttempt := BitVec.ofNat 5 (attempts.length + 1)
        mem := deliverFrom dst 0 x.status (afterStatuses dst attempts s.mem)
        trace := s.trace ++ (attempts.flatMap fun x =>
          x.events opcode (commandFrame Config.hw opcode params s.mem) ++ [.yielded .retry])
          ++ x.events opcode (commandFrame Config.hw opcode params s.mem) } := by
  have hmem : u.mem = afterStatuses dst attempts s.mem := congrArg State.mem h
  have hframe : commandFrame Config.hw opcode params u.mem = commandFrame Config.hw opcode params s.mem := by
    rw [hmem, commandFrame_afterStatuses hsrc]
  unfold Polled at h
  rw [afterAttempt, hframe, h]
  simp [afterAttempt, BitVec.ofNat_add]

/-- One more attempt that does not end the polling. -/
theorem Polled.snoc (h : Polled opcode params dst s attempts (x.samples ++ samples) (x.bytes opcode ++ rest) u)
    (hsrc : statusIsNoSource params dst s.mem) (hx : x.notTrue) :
    Polled opcode params dst s (attempts ++ [x]) samples rest
      (betweenAttempts (afterAttempt opcode params dst x samples rest u)) := by
  rw [h.afterAttempt_eq hsrc, afterStatuses_append dst attempts hx]
  simp [Polled, betweenAttempts, yieldFor, emit, enterPhase, afterAttempt]

/-- What the peer does in one more attempt, as the polling finds it. -/
theorem Polled.attempt_eq (h : Polled opcode params dst s attempts (x.samples ++ samples) (x.bytes opcode ++ rest) u)
    (hn : params.length ≤ 255) (hx : x.conforms) (hstatus : x.status.length ≤ 1) : attempt opcode params dst u =
      (afterAttempt opcode params dst x samples rest u, .ok (0x01#8, lengthsOf [x.status])) :=
  attempt_named dst hn hx hstatus (congrArg State.rdyIn h) (congrArg State.rxIn h)

/-- The number of the next attempt. -/
theorem Polled.seqAttempt_succ (h : Polled opcode params dst s attempts samples rest u)
    (hcount : attempts.length < dataSentRetryMax) :
    (u.seqAttempt + 1#5).toNat = attempts.length + 1 := by
  have hattempt : u.seqAttempt = BitVec.ofNat 5 attempts.length := congrArg State.seqAttempt h
  have hbound : dataSentRetryMax = 25 := rfl
  rw [hattempt, ← BitVec.ofNat_add, BitVec.toNat_ofNat]
  omega

/-- Attempts in a row that do not end the polling, all before the 25th. -/
theorem Polled.append (hn : params.length ≤ 255) (hsrc : statusIsNoSource params dst s.mem)
    (more : List PollAttempt) (hmore : ∀ x ∈ more, x.conforms ∧ x.notTrue)
    (h : Polled opcode params dst s attempts (more.flatMap PollAttempt.samples ++ samples)
      (more.flatMap (PollAttempt.bytes opcode) ++ rest) u)
    (hcount : attempts.length + more.length < dataSentRetryMax) (fuel : Nat) :
    ∃ v, pollAttempts Config.hw opcode params dst (more.length + fuel) u =
        pollAttempts Config.hw opcode params dst fuel v ∧
      Polled opcode params dst s (attempts ++ more) samples rest v := by
  induction more generalizing attempts u with
  | nil => exact ⟨u, by simp, by simpa using h⟩
  | cons x more ih =>
    simp only [List.flatMap_cons, List.append_assoc, List.forall_mem_cons, List.length_cons] at h hmore hcount
    obtain ⟨⟨hx, hnot⟩, hmore⟩ := hmore
    have hnext := h.attempt_eq hn hx (length_status_le hnot)
    have hends : attemptEnds Config.hw dst (attempt opcode params dst u) = none := by
      rw [hnext, attemptEnds_notTrue dst hnot]
    have hagain : (attempt opcode params dst u).1.seqAttempt.toNat ≠ dataSentRetryMax := by
      rw [attempt_seqAttempt opcode dst u hn, h.seqAttempt_succ (by omega)]
      omega
    have hcount' : (attempts ++ [x]).length + more.length < dataSentRetryMax := by
      simp only [List.length_append, List.length_singleton]
      omega
    obtain ⟨v, hv, hpolled⟩ := ih hmore (h.snoc hsrc hnot) hcount'
    refine ⟨v, ?_, by simpa using hpolled⟩
    rw [List.length_cons, show more.length + 1 + fuel = more.length + fuel + 1 by omega,
      pollAttempts_again _ hends hagain, hnext, hv]

/-- POLL_DATA_SENT at rest reaches the attempt after those that do not end it. -/
theorem exec_pollDataSent_polled (hs : atRest s) (hn : params.length ≤ 255)
    (hsources : sourcesHold s.sizes params = true) (hsrc : statusIsNoSource params dst s.mem)
    (hall : ∀ x ∈ attempts, x.conforms ∧ x.notTrue) (hcount : attempts.length < dataSentRetryMax)
    (hrdy : s.rdyIn = attempts.flatMap PollAttempt.samples ++ samples)
    (hrx : s.rxIn = attempts.flatMap (PollAttempt.bytes opcode) ++ rest) :
    ∃ fuel v, attempts.length + (fuel + 1) = dataSentRetryMax ∧
      exec (.pollDataSent opcode params dst) s = .next (pollAttempts Config.hw opcode params dst (fuel + 1) v) ∧
      Polled opcode params dst s attempts samples rest v := by
  obtain ⟨fuel, hfuel⟩ : ∃ fuel, dataSentRetryMax = attempts.length + (fuel + 1) :=
    ⟨dataSentRetryMax - attempts.length - 1, by omega⟩
  obtain ⟨v, hv, hpolled⟩ := Polled.append hn hsrc attempts hall (polled_nil hrdy hrx)
    (by rw [List.length_nil]; omega) (fuel + 1)
  refine ⟨fuel, v, hfuel.symm, ?_, hpolled⟩
  rw [exec_pollDataSent, execPollDataSent_atRest opcode params dst s hs hn hsources, hfuel, hv]

end

/-! ### Errors -/

/-- A state but for the number of the attempt and the phase, which an exchange sets before it reads it. -/
def forgetAttempt (s : State) : State := { s with seqAttempt := 0#5, seqPhase := .idle }

theorem forgetAttempt_forgetful : Forgetful forgetAttempt :=
  ⟨fun _ => rfl, fun _ => rfl, fun _ => rfl, fun _ => rfl, fun _ => rfl, fun _ _ _ => rfl, fun _ _ _ => rfl,
    fun _ _ _ => rfl, fun _ _ => rfl, fun _ _ => rfl, fun _ => rfl, fun _ _ _ => rfl, fun _ _ => rfl, fun _ _ => rfl,
    fun _ _ _ => rfl, fun _ => rfl, fun _ => rfl, fun _ _ _ _ => rfl, fun _ _ => rfl, fun _ _ => rfl, fun _ _ => rfl⟩

/-- An EXECUTE that completes had operands the formats can carry. -/
theorem execute_operands {opcode e : Byte} {params : List Param} {dsts : List Dst} {s t : State} (hs : atRest s)
    (h : exec (.execute opcode params e dsts) s = .next t) :
    params.length ≤ 255 ∧ sourcesHold s.sizes params = true := by
  rw [exec_execute, execExecute, executeWith, whenIdle_atRest hs] at h
  simp only [require_next] at h
  obtain ⟨hfit, _, hsources, _⟩ := h
  exact ⟨(paramsFit_iff params).1 hfit, hsources⟩

/-- The end of a driver operation hides the phase. -/
theorem endDriver_of_forgetAttempt {s u : State} (e : forgetAttempt s = forgetAttempt u) (r : OpResult) :
    endDriver r s = { endDriver r u with seqAttempt := s.seqAttempt } := by
  have hend : { endDriver r (forgetAttempt s) with seqAttempt := s.seqAttempt } =
      { endDriver r (forgetAttempt u) with seqAttempt := s.seqAttempt } := by rw [e]
  exact hend

/-- An EXECUTE of the polling's command that ends with an error, from a state that is the polling's but for the number
of the attempt and the phase, is what the next attempt does; and the error ends the polling. -/
theorem pollAttempts_of_execute_error {opcode : Byte} {params : List Param} {dst : Handle} {s u t : State}
    {err : OpError} (hs : atRest s) (e : forgetAttempt u = forgetAttempt s)
    (hexec : exec (.execute opcode params 0x01#8 [⟨dst, 1⟩]) s = .next t) (hresult : t.result = some (.error err))
    (fuel : Nat) :
    pollAttempts Config.hw opcode params dst (fuel + 1) u = { t with seqAttempt := u.seqAttempt + 1#5 } := by
  obtain ⟨hn, hsources⟩ := execute_operands hs hexec
  rw [exec_execute, execExecute_atRest opcode params 0x01#8 _ s hs hn hsources rfl] at hexec
  have hruns : AlikeRuns forgetAttempt (attempt opcode params dst u)
      (exchange Config.hw opcode params (admitExactly 0x01#8) [⟨dst, 1⟩] s) :=
    forgetAttempt_forgetful.exchange_alike (s := { u with seqAttempt := u.seqAttempt + 1#5 }) e _ opcode hn _ _
  have hcount := attempt_seqAttempt opcode dst u hn
  obtain ⟨hvalue, halike⟩ := hruns
  cases hq : exchange Config.hw opcode params (admitExactly 0x01#8) [⟨dst, 1⟩] s with
  | mk t' q =>
    rw [hq] at hexec hvalue halike
    cases q with
    | ok a =>
      cases hexec
      cases hresult
    | error err' =>
      cases hexec
      obtain rfl : err' = err := by simpa [endExchange_error] using hresult
      have hends : attemptEnds Config.hw dst (attempt opcode params dst u) = some (.error err') := by
        rw [show attempt opcode params dst u = (_, .error err') from Prod.ext rfl hvalue, attemptEnds_error]
      rw [pollAttempts_ended fuel hends, endDriver_of_forgetAttempt halike, hcount]
      rfl

/-- POLL_DATA_SENT at rest, after attempts without a true status of which `last` is the last: it stands before its next
attempt, in the state an EXECUTE of the same command would begin in, but for the number of the attempt and the phase. -/
theorem exec_pollDataSent_between {opcode : Byte} {params : List Param} {dst : Handle} {s : State}
    {attempts : List PollAttempt} {last : PollAttempt} {samples : List Bool} {rest : List Byte} (hs : atRest s)
    (hn : params.length ≤ 255) (hsources : sourcesHold s.sizes params = true)
    (hsrc : statusIsNoSource params dst s.mem) (hall : ∀ x ∈ attempts ++ [last], x.conforms ∧ x.notTrue)
    (hcount : attempts.length + 1 < dataSentRetryMax)
    (hrdy : s.rdyIn = (attempts ++ [last]).flatMap PollAttempt.samples ++ samples)
    (hrx : s.rxIn = (attempts ++ [last]).flatMap (PollAttempt.bytes opcode) ++ rest) :
    ∃ fuel u, exec (.pollDataSent opcode params dst) s =
        .next (pollAttempts Config.hw opcode params dst (fuel + 1) u) ∧
      u.seqAttempt = BitVec.ofNat 5 (attempts.length + 1) ∧
      forgetAttempt u = forgetAttempt { s with
        acqCnt := Config.hw.acqRetryMax - last.second, encRemaining := 0x00#8
        txCount := BitVec.ofNat 16 (commandFrame Config.hw opcode params s.mem).length
        decRemaining := 0x00#8, startCnt := Config.hw.startPollMax - last.stray.length
        seqExpected := opcode, closing := false, rdyIn := samples, rxIn := rest
        mem := afterStatuses dst (attempts ++ [last]) s.mem
        trace := s.trace ++ (attempts ++ [last]).flatMap fun x =>
          x.events opcode (commandFrame Config.hw opcode params s.mem) ++ [.yielded .retry] } := by
  have ⟨hsel, henc, hdec, _⟩ := hs
  obtain ⟨hall, hlast⟩ := List.forall_mem_append.1 hall
  obtain ⟨hconforms, hnot⟩ := hlast last (List.mem_singleton_self last)
  have hbefore : attempts.length < dataSentRetryMax := by omega
  obtain ⟨fuel, v, hfuel, hexec, hpolled⟩ := exec_pollDataSent_polled (opcode := opcode) hs hn hsources hsrc hall
    hbefore (samples := last.samples ++ samples) (rest := last.bytes opcode ++ rest) (by simp [hrdy]) (by simp [hrx])
  obtain ⟨fuel, rfl⟩ : ∃ k, fuel = k + 1 := ⟨fuel - 1, by omega⟩
  have hnext := hpolled.attempt_eq hn hconforms (length_status_le hnot)
  have hends : attemptEnds Config.hw dst (attempt opcode params dst v) = none := by
    rw [hnext, attemptEnds_notTrue dst hnot]
  have hagain : (attempt opcode params dst v).1.seqAttempt.toNat ≠ dataSentRetryMax := by
    rw [attempt_seqAttempt opcode dst v hn, hpolled.seqAttempt_succ hbefore]
    omega
  refine ⟨fuel, _, by rw [hexec, pollAttempts_again _ hends hagain, hnext], ?_, ?_⟩
  · rw [hpolled.afterAttempt_eq hsrc]
    rfl
  · rw [hpolled.afterAttempt_eq hsrc, afterStatuses_append dst attempts hnot]
    simp [forgetAttempt, betweenAttempts, yieldFor, emit, enterPhase, afterAttempt, hsel, henc, hdec]

end Sys2Proof.Laws
end

section
/-! The statements of 43_command_driver.md R138 about POLL_DATA_SENT. -/

namespace Sys2Proof.Proofs

open Sys2Proof.Machine Sys2Proof.Safety Sys2Proof.Laws

/-- Settles O42: the attempts that are not true lead to the one that is, which ends the polling. -/
theorem pollSucceedsAtTheFirstTrueStatus : Obligations.PollSucceedsAtTheFirstTrueStatus := by
  unfold Obligations.PollSucceedsAtTheFirstTrueStatus
  intro s opcode status params dst attempts last samples rest hs hn hsources hsrc hcount hall hlast hstatus hne hrdy hrx
  have ⟨hsel, henc, hdec, hphase⟩ := hs
  obtain ⟨fuel, v, _, hexec, hpolled⟩ := exec_pollDataSent_polled hs hn hsources hsrc hall hcount
    (by rw [hrdy, List.append_assoc]) (by rw [hrx, List.append_assoc])
  have hnext := hpolled.attempt_eq hn hlast (by simp [hstatus])
  have hends : attemptEnds Config.hw dst (attempt opcode params dst v) = some .done := by
    rw [hnext, attemptEnds_true dst hstatus hne]
  rw [hexec, pollAttempts_ended fuel hends, hnext, hpolled.afterAttempt_eq hsrc, hstatus, deliverFrom, deliverFrom,
    memWrite_afterStatuses]
  simp [endDriver, enterPhase, finish, afterAttempt, hsel, henc, hdec, hphase]

/-- Settles O43: the first 24 attempts do not end the polling, and the 25th exhausts it. -/
theorem pollFailsAfterTwentyFiveZeros : Obligations.PollFailsAfterTwentyFiveZeros := by
  unfold Obligations.PollFailsAfterTwentyFiveZeros
  intro s opcode params dst attempts last samples rest hs hn hsources hsrc hcount hall hrdy hrx
  have ⟨hsel, henc, hdec, hphase⟩ := hs
  obtain ⟨hall, hlast⟩ := List.forall_mem_append.1 hall
  obtain ⟨hconforms, hnot⟩ := hlast last (List.mem_singleton_self last)
  have hbefore : attempts.length < dataSentRetryMax := by rw [hcount]; decide
  obtain ⟨fuel, v, _, hexec, hpolled⟩ := exec_pollDataSent_polled (opcode := opcode) hs hn hsources hsrc hall hbefore
    (samples := last.samples ++ samples) (rest := last.bytes opcode ++ rest) (by simp [hrdy]) (by simp [hrx])
  have hnext := hpolled.attempt_eq hn hconforms (length_status_le hnot)
  have hends : attemptEnds Config.hw dst (attempt opcode params dst v) = none := by
    rw [hnext, attemptEnds_notTrue dst hnot]
  have hexhausted : (attempt opcode params dst v).1.seqAttempt.toNat = dataSentRetryMax := by
    rw [attempt_seqAttempt opcode dst v hn, hpolled.seqAttempt_succ hbefore, hcount]
    rfl
  rw [hexec, pollAttempts_exhausted fuel hends hexhausted, hnext, hpolled.afterAttempt_eq hsrc,
    afterStatuses_append dst attempts hnot]
  simp [endDriver, enterPhase, finish, afterAttempt, hsel, henc, hdec, hphase, hcount, afterStatuses, dataSentRetryMax]

/-- Settles O57: the attempt is the EXECUTE of the hypothesis, but for the number of the attempt and the phase. -/
theorem pollEndsAtAnyTransportError : Obligations.PollEndsAtAnyTransportError := by
  unfold Obligations.PollEndsAtAnyTransportError
  refine ⟨fun s t opcode params dst err hs hexec hresult => ?_, ?_⟩
  · obtain ⟨hn, hsources⟩ := execute_operands hs hexec
    have hfirst := pollAttempts_of_execute_error (u := { s with seqAttempt := 0#5 }) hs rfl hexec hresult 24
    rw [exec_pollDataSent, execPollDataSent_atRest opcode params dst s hs hn hsources]
    exact congrArg _ hfirst
  · intro s t opcode params dst attempts last samples rest err hs hn hsources hsrc hcount hall hrdy hrx frame between
      hexec hresult
    obtain ⟨fuel, u, hpoll, hpolled, hforget⟩ :=
      exec_pollDataSent_between hs hn hsources hsrc hall hcount hrdy hrx
    rw [hpoll, pollAttempts_of_execute_error (s := between) (u := u) hs hforget hexec hresult fuel, hpolled]
    simp [BitVec.ofNat_add, add_assoc]

/-- Settles O44: O37's Timeout READY of EXECUTE, in the first attempt of O57. -/
theorem pollEndsAtATransportError : Obligations.PollEndsAtATransportError := by
  unfold Obligations.PollEndsAtATransportError
  intro s opcode params dst samples hs hn hsources hrdy
  obtain ⟨hnever, _⟩ := executeTimesOutWithoutReady (.execute opcode params 0x01#8 [⟨dst, 1⟩]) s opcode params 0x01#8
    [⟨dst, 1⟩] 0 samples (.inl rfl) hs hn hsources rfl
  obtain ⟨hfirst, _⟩ := pollEndsAtAnyTransportError
  exact hfirst s _ opcode params dst _ hs (hnever hrdy) rfl

end Sys2Proof.Proofs
end
